-- ==== Sys2Proof/Word.lean ====
section
/-! DEFINITION. The plainest data types of the model: bits, bytes, line identities, and the datum of the spec's
"float" (binary64, spec/43_engine_tick.md R210). Arithmetic on floats is in Machine/Float.lean. -/

namespace Sys2Proof

/-- One line level or one transferred bit; `true` is level 1, *released* (spec/00_scope.md R11). -/
abbrev Bit := Bool

/-- A byte, bits 7 down to 0 (spec/00_scope.md R8). -/
abbrev Byte := BitVec 8

/-- A scheduling hint: opaque, read by no rule (spec/00_scope.md R7). The carrier is the model's: log 16. -/
abbrev Hint := Nat

/-- A receive time: a totally ordered type (spec/20_memory.md R79). The carrier is the model's: log 12. -/
abbrev Timestamp := Nat

/-- The identity of a physical line: (controller identity, pin identifier) (spec/10_state.md R22). The carriers are the
model's: log 16. -/
structure LineId where
  ctrl : Nat
  pin : Nat
deriving DecidableEq, Repr, Inhabited

/-- A fixed total order on line identities, used only to keep maps in one canonical form. -/
def LineId.lt (a b : LineId) : Bool :=
  a.ctrl < b.ctrl || (a.ctrl == b.ctrl && a.pin < b.pin)

/-- The order on names (naturals) used to keep maps in one canonical form. -/
def natLt (a b : Nat) : Bool := a < b

/-- A binary64 datum (spec/00_scope.md R12, decision D14): not-a-number, an infinity, or a finite value given by its
biased exponent and fraction. Every term is one datum: there is no second spelling of a value. log 18. -/
inductive F64 where
  | nan
  | inf (neg : Bool)
  | fin (neg : Bool) (exp : Fin 2047) (frac : BitVec 52)
deriving DecidableEq, Repr, Inhabited

/-- Positive zero, `0.0`. -/
def F64.zero : F64 := .fin false 0 0

def F64.isNaN : F64 → Bool
  | .nan => true
  | .inf _ => false
  | .fin _ _ _ => false

def F64.isFinite : F64 → Bool
  | .nan => false
  | .inf _ => false
  | .fin _ _ _ => true

/-- Finite and greater than zero. -/
def F64.isPosFinite : F64 → Bool
  | .nan => false
  | .inf _ => false
  | .fin neg e f => !neg && (e != 0 || f != 0)

end Sys2Proof
end

