-- ==== Sys2Proof/Machine/Float.lean ====
section
/-! DEFINITION. The float operations of spec/00_scope.md R12 and spec/43_engine_tick.md R210: binary64, round to nearest,
ties to even. Each computes the exact result as a quotient of naturals in units of 2^-1074 (the least positive
datum) and rounds once. -/

namespace Sys2Proof.Machine

/-- The magnitude of a finite datum in units of 2^-1074. -/
def magUnits (e : Fin 2047) (f : BitVec 52) : Nat :=
  if e.val = 0 then f.toNat else (2 ^ 52 + f.toNat) * 2 ^ (e.val - 1)

/-- The value of a datum in units of 2^-1074. An infinity gets the value the next exponent would have, which is above
every finite one; not-a-number gets 0, and no operation looks at it. -/
def units : F64 → Int
  | .nan => 0
  | .inf neg => if neg then -(2 ^ 2098 : Nat) else (2 ^ 2098 : Nat)
  | .fin neg e f => if neg then -(magUnits e f : Int) else (magUnits e f : Int)

/-- The datum with significand `m` (below 2^53, and at least 2^52 unless `k` is 0) and magnitude `m * 2^k` units; an
infinity where the exponent has no room. -/
def packMag (neg : Bool) (m k : Nat) : F64 :=
  if m < 2 ^ 52 then .fin neg 0 (BitVec.ofNat 52 m)
  else if h : k + 1 < 2047 then .fin neg ⟨k + 1, h⟩ (BitVec.ofNat 52 m)
  else .inf neg

/-- The datum nearest to `num / den` units, ties to the even significand, with the given sign. -/
def roundMag (neg : Bool) (num den : Nat) : F64 :=
  let k := Nat.log2 (num / den) - 52
  let d := den * 2 ^ k
  let q := num / d
  let r := num % d
  let m := if d < 2 * r ∨ (2 * r = d ∧ q % 2 = 1) then q + 1 else q
  if m = 2 ^ 53 then packMag neg (2 ^ 52) (k + 1) else packMag neg m k

/-- The sign of a datum. -/
def signOf : F64 → Bool
  | .nan => false
  | .inf neg => neg
  | .fin neg _ _ => neg

/-- `float(n)`: an integer rounded to the format (R12). -/
def floatOfInt (n : Int) : F64 :=
  roundMag (decide (n < 0)) (n.natAbs * 2 ^ 1074) 1

/-- `fadd` (R12). A zero sum of two finite data is positive unless both are negative. -/
def fadd (x y : F64) : F64 :=
  match x, y with
  | .nan, _ => .nan
  | _, .nan => .nan
  | .inf a, .inf b => if a = b then .inf a else .nan
  | .inf a, .fin _ _ _ => .inf a
  | .fin _ _ _, .inf b => .inf b
  | .fin a ea fa, .fin b eb fb =>
    let z := units (.fin a ea fa) + units (.fin b eb fb)
    if z = 0 then .fin (a && b) 0 0 else roundMag (decide (z < 0)) z.natAbs 1

/-- `fdiv` (R12). -/
def fdiv (x y : F64) : F64 :=
  match x, y with
  | .nan, _ => .nan
  | _, .nan => .nan
  | .inf _, .inf _ => .nan
  | .inf a, .fin b _ _ => .inf (a != b)
  | .fin a _ _, .inf b => .fin (a != b) 0 0
  | .fin a ea fa, .fin b eb fb =>
    if magUnits eb fb = 0 then
      if magUnits ea fa = 0 then .nan else .inf (a != b)
    else roundMag (a != b) (magUnits ea fa * 2 ^ 1074) (magUnits eb fb)

/-- `<`: the format's ordered comparison, false with not-a-number (R12). -/
def flt (x y : F64) : Bool :=
  !x.isNaN && !y.isNaN && decide (units x < units y)

/-- `>=`: the format's ordered comparison, false with not-a-number (R12). -/
def fge (x y : F64) : Bool :=
  !x.isNaN && !y.isNaN && decide (units y ≤ units x)

/-- The datum nearest to the fraction `p / q`, for constants. -/
def floatOfFrac (p : Int) (q : Nat) : F64 :=
  roundMag (decide (p < 0)) (p.natAbs * 2 ^ 1074) q

end Sys2Proof.Machine
end

