-- ==== Sys2Proof/Config.lean ====
section
/-! DEFINITION. What the spec leaves open, as constants with no body: free values. A claim about them holds for every
value (spec/93_implementation_defined.md, "any value" and "parameter"). The parameters that have a default in
spec/00_scope.md R7 are plain data in `State.params` instead. -/

namespace Sys2Proof

/-- The level of a line before BCFG (spec/93_implementation_defined.md I7): the draw's number and which of the four
levels. log 9. -/
opaque Config.levelBeforeBcfg : Nat → Nat → Bit

/-- The slave's contribution to the data wire at a sample (spec/20_memory.md R78). log 10. -/
opaque Config.slaveBit : Nat → Bit

/-- Which other clock lines' executors run, and in what order, before the next entry of a clock line a read waits for
(spec/20_memory.md R72). log 4. -/
opaque Config.beside : Nat → List LineId

/-- The bytes an external bus answers a read with (spec/20_memory.md R66). log 11. -/
opaque Config.hwResponse : Nat → List Byte

/-- How far the receive time of a read lies after that of the last read of the same bus (spec/20_memory.md R79).
log 12. -/
opaque Config.rxGap : Nat → Nat

/-- What a query returns before the first completed cycle (spec/42_engine_lifecycle.md R176). log 13. -/
opaque Config.lastValue : Nat → F64

/-- The timestamp such a query returns (spec/42_engine_lifecycle.md R176, R177). log 13. -/
opaque Config.lastStamp : Nat → Timestamp

/-- The handle `register_recurring` returns (spec/60_exceptions.md R247). log 16. -/
opaque Config.timerHandle : Nat → Nat

/-- The scheduling hint the engine passes with its bus operations (spec/00_scope.md R7). log 16. -/
opaque Config.engineHint : Nat → Hint

/-- `EstTime`, from a receive time to process-relative time (spec/00_scope.md R7, decision D37). log 16. -/
opaque Config.estTime : Timestamp → F64

/-- The 7-bit slave address external bus `h` was built with (spec/10_state.md R42). log 17. -/
opaque Config.hwAddr7 : Nat → BitVec 7

/-- `FIRST_DEADLINE`, open (spec/00_scope.md R7). log 15. -/
opaque Config.firstDeadline : F64

/-- `BIT_RATE`, open, read by no rule (spec/00_scope.md R7); its carrier is the model's. log 15. -/
opaque Config.bitRate : Nat

end Sys2Proof
end

