-- ==== Sys2Proof/Syntax.lean ====
section
/-! DEFINITION. The operations (spec/30_encoding.md R101): one constructor per row of spec/opcode_table.json, operands
in the table's order. Integer operands are unbounded, as at the spec's calls: a value out of its domain can be passed,
and the operation refuses it (R103). -/

namespace Sys2Proof

/-- Which of the two lines SETL moves (spec/40_bus_primitives.md R120). -/
inductive WireLine where
  | scl
  | sda
deriving DecidableEq, Repr, Inhabited

/-- The bus an engine holds: a software bus or an external hardware bus (spec/00_scope.md R6). -/
inductive BusRef where
  | software (i : Nat)
  | hardware (h : Nat)
deriving DecidableEq, Repr, Inhabited

/-- The operations. `i` names a bus, `e` an engine, `c` a clock line, `h` is a hint. -/
inductive Instr where
  -- format B
  | bnew (i : Nat) (addr7 : Nat) (scl sda : LineId)
  | bcfg (i : Nat)
  | bwr (i : Nat) (ab : Nat) (payload : List Nat) (h : Hint)
  | brd (i : Nat) (n : Nat) (h : Hint)
  | bctl (i : Nat)
  -- format E
  | enew (e : Nat) (bus : BusRef) (gain : Int)
  | ewin (e : Nat) (sampleTime : F64) (sampleCount : Int) (min max : F64) (rcc : Int)
  | ecb (e : Nat) (reportTime : F64) (cb : Nat)
  | ecfg (e : Nat)
  | earm (e : Nat)
  | etick (e : Nat) (now : F64)
  | eget (e : Nat)
  | estat (e : Nat)
  -- format U
  | setl (i : Nat) (line : WireLine) (v : Bit) (h : Hint)
  | rel (i : Nat) (h : Hint)
  | start (i : Nat) (h : Hint)
  | stop (i : Nat) (h : Hint)
  | txbit (i : Nat) (b : Bit) (h : Hint)
  | txbyte (i : Nat) (byte : Byte) (h : Hint)
  | rxbit (i : Nat) (h : Hint)
  | rxbyte (i : Nat) (last : Bool) (h : Hint)
  | mack (i : Nat) (h : Hint)
  | mnack (i : Nat) (h : Hint)
  -- format Q
  | qset (c : LineId)
  | qsmp (c : LineId) (s : Bit)
deriving DecidableEq, Repr, Inhabited

/-- The format groups of spec/30_encoding.md R100. -/
inductive Format where
  | b
  | e
  | u
  | q
deriving DecidableEq, Repr, Inhabited

end Sys2Proof
end

