-- ==== Sys2Proof/Machine/State.lean ====
section
/-! DEFINITION. The state of the block (spec/10_state.md R20 to R52) and the model's own fields beside it, as plain
data; the reasons a step can stop; the state after reset (R55, R270). Partial maps are lists of key and value pairs,
keys strictly rising (Machine/Map.lean). -/

namespace Sys2Proof.Machine

/-! ### The bus (spec/10_state.md R21 to R32) -/

/-- An entry of a transition queue (R27; spec/30_encoding.md R99): `SET(SCL, v, h)`, `SET(SDA(i), v, h)` or
`SMP(i, h)`. -/
inductive Entry where
  | scl (v : Bit) (h : Hint)
  | sda (i : Nat) (v : Bit) (h : Hint)
  | smp (i : Nat) (h : Hint)
deriving DecidableEq, Repr, Inhabited

/-- The state that belongs to a clock line `c`, which is its owner's (R24). -/
structure ClockLine where
  owner : Nat                -- REG[c] (R23)
  tq : List Entry            -- TQ[c] (R27)
  qhead : Nat                -- QHEAD[c] (R28)
  rx : List (Nat × Bit)      -- RX[c] (R31)
  sclLvl : Bit               -- SCL_LVL[c] (R25)
  wScl : Bit                 -- W_SCL[c] (R29)
  clkCfg : Bool              -- CLK_CFG[c] (R30)
deriving DecidableEq, Repr, Inhabited

/-- The state of one bus `i`. -/
structure Bus where
  addr7 : BitVec 7           -- ADDR7[i] (R21)
  scl : LineId               -- SCL_ID[i] (R22)
  sda : LineId               -- SDA_ID[i] (R22)
  ctrl : Nat                 -- CTRL[i] (R22)
  owner : Nat                -- OWNER[i] (R24)
  sdaLvl : Bit               -- SDA_LVL[i] (R26)
  wSda : Bit                 -- W_SDA[i] (R29)
  busCfg : Bool              -- BUS_CFG[i] (R30)
deriving DecidableEq, Repr, Inhabited

/-! ### The engine (spec/10_state.md R40 to R51) -/

/-- ENG_STATE (R41). -/
inductive EngState where
  | idle
  | configuring
  | armed
  | sampling
deriving DecidableEq, Repr, Inhabited

/-- The supported gains (R43). -/
inductive Gain where
  | g1
  | g2
  | g4
  | g8
deriving DecidableEq, Repr, Inhabited

/-- The supported conversion rates, samples per second (R44). -/
inductive Rate where
  | r8
  | r16
  | r32
  | r128
deriving DecidableEq, Repr, Inhabited

/-- RATE, RATE_CODE and NORM, "always set together" (R44). -/
structure RateRegs where
  rate : Rate
  code : BitVec 2
  norm : Nat
deriving DecidableEq, Repr, Inhabited

/-- The acquisition window (R45). The integers are naturals: EWIN refuses the others (R171). -/
structure Window where
  sampleTime : F64           -- SAMPLE_TIME[e]
  sampleCount : Nat          -- SAMPLE_COUNT[e]
  minValue : F64             -- MIN_VALUE[e]
  maxValue : F64             -- MAX_VALUE[e]
  rangeCheckCount : Nat      -- RANGE_CHECK_COUNT[e]
deriving DecidableEq, Repr, Inhabited

/-- LAST_VALUE and LAST_TS, "overwritten atomically" (R47). -/
structure LastResult where
  value : F64
  ts : Timestamp
deriving DecidableEq, Repr, Inhabited

/-- CB and REPORT_TIME (R49); CB_SET is 1 exactly when an engine holds one. A callback is opaque; its carrier is the model's:
log 16. -/
structure Callback where
  cb : Nat
  reportTime : F64
deriving DecidableEq, Repr, Inhabited

/-- The registers of one engine `e`. A register R55 calls unwritten holds no value (`none`): that is the spec's own
state of it. -/
structure Engine where
  st : EngState                    -- ENG_STATE[e] (R41)
  bus : BusRef                     -- BUS_REF[e] (R42)
  gain : Gain                      -- GAIN[e] (R43)
  gainCode : BitVec 2              -- GAIN_CODE[e] (R43)
  rate : Option RateRegs           -- RATE[e], RATE_CODE[e], NORM[e] (R44)
  win : Option Window              -- the acquisition window (R45)
  partialSum : F64                 -- PARTIAL_SUM[e] (R46)
  samplesTaken : Nat               -- SAMPLES_TAKEN[e] (R46)
  last : Option LastResult         -- LAST_VALUE[e], LAST_TS[e] (R47)
  errCount : Nat                   -- ERR_COUNT[e] (R48)
  cb : Option Callback             -- CB_SET[e], CB[e], REPORT_TIME[e] (R49)
  lastCb : F64                     -- LAST_CB_TIME[e] (R49)
  timer : Option Nat               -- TIMER[e] (R50); the carrier is the model's (log 16)
  nextDeadline : Option F64        -- NEXT_DEADLINE[e] (R50)
  cfgReg : Option Byte             -- CFGREG[e] (R51)
deriving DecidableEq, Repr, Inhabited

/-! ### Output logs (spec/10_state.md R52) -/

/-- The reason passed to the shutdown hook: the only one is "ADC out of range" (spec/60_exceptions.md R235). -/
inductive ShutdownReason where
  | adcOutOfRange
deriving DecidableEq, Repr, Inhabited

/-- A record of SHUT_LOG. -/
structure ShutRecord where
  engine : Nat
  reason : ShutdownReason
deriving DecidableEq, Repr, Inhabited

/-- A record of CB_LOG: `(e, t, value)`. -/
structure CbRecord where
  engine : Nat
  time : F64
  value : F64
deriving DecidableEq, Repr, Inhabited

/-- A record of HW_LOG: `(h, a7, bytes)`. -/
structure HwRecord where
  bus : Nat
  addr7 : BitVec 7
  bytes : List Byte
deriving DecidableEq, Repr, Inhabited

/-- A record of DIAG (spec/60_exceptions.md R252). Its fields are the model's: log 21. -/
inductive DiagEvent where
  | tickStarted (e : Nat)
  | retryOccurred (e : Nat) (len : Nat)
  | shutdownTriggered (e : Nat)
deriving DecidableEq, Repr, Inhabited

/-! ### Parameters (spec/00_scope.md R7) -/

/-- RATE_CODE: the code of each rate (spec/30_encoding.md R94). -/
structure RateCodes where
  c8 : BitVec 2
  c16 : BitVec 2
  c32 : BitVec 2
  c128 : BitVec 2
deriving DecidableEq, Repr, Inhabited

/-- The parameters the model takes as an argument; no operation writes them. log 15. -/
structure Params where
  stopPrelow : Bool          -- STOP_PRELOW
  rdAddrStop : Bool          -- RD_ADDR_STOP
  rateCode : RateCodes       -- RATE_CODE
  firstDeadline : F64        -- FIRST_DEADLINE
  lastCbInit : F64           -- LAST_CB_INIT
  bitRate : Nat              -- BIT_RATE, read by no rule; the carrier is the model's (log 15)
deriving DecidableEq, Repr, Inhabited

/-- The spec's defaults; where it gives none, a free constant. -/
def Params.default : Params where
  stopPrelow := false
  rdAddrStop := false
  rateCode := ⟨3, 2, 1, 0⟩
  firstDeadline := Config.firstDeadline
  lastCbInit := F64.zero
  bitRate := Config.bitRate

/-! ### The model's own fields -/

/-- Who sends a command (spec/30_encoding.md R100; spec/60_exceptions.md R236). log 3. -/
inductive Agent where
  | host        -- the host loop: formats B and E
  | event       -- build-time callback, runtime-ready event, timer tick: format E
  | internal    -- the bus itself: format U
  | executor    -- the queue executor: format Q
deriving DecidableEq, Repr, Inhabited

/-- Commands waiting at the port, all from one agent. log 2. -/
structure Message where
  agent : Agent
  bytes : List Byte
deriving DecidableEq, Repr, Inhabited

/-- A response an external bus will give: its bytes, and how far its receive time lies after the last one. -/
structure HwResponse where
  bytes : List Byte
  gap : Nat
deriving DecidableEq, Repr, Inhabited

/-- Everything from outside the block (spec/10_state.md R53), as far as it is fixed in advance: a draw comes from the
list here, and from a free constant of Config when the list is empty. -/
structure Env where
  port : List Message                   -- commands waiting, first to run first (log 2)
  slave : List (LineId × List Bit)      -- the slave's levels at the next samples of a clock line (log 10)
  beside : List (List LineId)           -- the other clock lines that run before the next entries a read waits for (log 4)
  hw : List (Nat × List HwResponse)     -- the next responses of an external bus (log 11)
  swLast : List (Nat × Timestamp)       -- the last receive time of a software bus (log 12)
  hwLast : List (Nat × Timestamp)       -- the last receive time of an external bus (log 12)
  draws : Nat                           -- the counter the free constants are applied to (log 14)
deriving DecidableEq, Repr, Inhabited

/-- What an operation returns to its caller. log 27. -/
inductive Result where
  | none                                        -- nothing
  | controller (ctrl : Nat)                     -- BCTL (R154)
  | read (response : List Byte) (rt : Timestamp)  -- BRD (R153)
  | position (p : Nat)                          -- RXBIT (R126)
  | positions (ps : List Nat)                   -- RXBYTE (R127)
  | last (value : F64) (ts : Timestamp)         -- EGET (R176)
  | status (ts : Timestamp)                     -- ESTAT (R177)
  | deadline (t : F64)                          -- ETICK (R200)
deriving DecidableEq, Repr, Inhabited

/-- The two causes of a ConfigurationError, each with its recorded value (spec/60_exceptions.md R230). -/
inductive ConfigError where
  | unsupportedGain (e : Nat) (gain : Int)
  | controllerMismatch (i : Nat) (scl sda : Nat)
deriving DecidableEq, Repr, Inhabited

/-- The error kinds of spec/60_exceptions.md R230, ConfigurationError with its two causes. -/
inductive ErrorKind where
  | unsupportedGain
  | controllerMismatch
  | transientReadError
  | rangeViolation
  | fatalShutdown
deriving DecidableEq, Repr, Inhabited

/-- A tick that is inside its retry loop (spec/43_engine_tick.md R201). log 5. -/
structure Tick where
  engine : Nat
  now : F64
deriving DecidableEq, Repr, Inhabited

/-- The state: the block's own (R20), its parameters, and the model's own fields. -/
structure State where
  params : Params
  lines : List (LineId × ClockLine)     -- REG and the state of the clock lines
  buses : List (Nat × Bus)
  engines : List (Nat × Engine)
  shutLog : List ShutRecord             -- SHUT_LOG
  cbLog : List CbRecord                 -- CB_LOG
  hwLog : List HwRecord                 -- HW_LOG
  diag : List DiagEvent                 -- DIAG
  result : Result
  aborted : Option ConfigError
  busy : Option Tick
  env : Env
deriving DecidableEq, Repr, Inhabited

/-- Why the machine stops with a fault. -/
inductive Fault where
  /-- Raised by `step` when a ConfigurationError has ended process initialization: "no operation of the block runs at
  all" (spec/60_exceptions.md R239). Safe: nothing is proved of the state after it. -/
  | processAborted
deriving DecidableEq, Repr, Inhabited

/-- Why an operation is refused: the closed list of spec/60_exceptions.md R256, and the host's. Which of them a call has
where the spec does not say is log 7. All are safe: nothing is proved of a refused run. -/
inductive Refusal where
  /-- R256. BCFG, BCTL or any bus operation on a bus that is not there, bus traffic before BCFG (R30, D21), and a
  read of a wire level that holds no value (R55, log 7). Safe. -/
  | notConfigured
  /-- R256. A second BCFG (R151). Safe. -/
  | alreadyConfigured
  /-- R256. An engine operation outside its phase (R178), on an engine that is not there, and a read of an engine
  register that holds no value (R55, log 7). Safe. -/
  | wrongEngineState
  /-- R256. ECFG before EWIN (R173), and a tick that would read an unset window. Safe. -/
  | windowUnset
  /-- R256. An operand out of its domain (R103), a command whose operands are no values, and QSET or QSMP on an entry that
  is not of its kind (log 7). Safe. -/
  | badOperand
  /-- R256. A reserved opcode, or one its agent may not send (R102). Safe. -/
  | reservedOpcode
  /-- R256. BNEW with a data line in use (R150). Safe. -/
  | lineInUse
  /-- R256. BNEW or ENEW with a name that is taken (R150, R170). Safe. -/
  | nameInUse
  /-- R256. A response of an external bus longer than requested (R66). Safe. -/
  | overlongResponse
  /-- The host's: an instruction that has no meaning yet; none is left. Safe. -/
  | notModelled (mnemonic : String)
deriving DecidableEq, Repr, Inhabited

/-- An environment that fixes nothing in advance. -/
def Env.empty : Env where
  port := []
  slave := []
  beside := []
  hw := []
  swLast := []
  hwLast := []
  draws := 0

/-- The machine right after reset, that is at process start (R55, R270): registry, records and logs empty. -/
def State.reset : State where
  params := Params.default
  lines := []
  buses := []
  engines := []
  shutLog := []
  cbLog := []
  hwLog := []
  diag := []
  result := .none
  aborted := none
  busy := none
  env := Env.empty

end Sys2Proof.Machine
end

