-- ==== Sys2Proof/Machine/Flags.lean ====
section
/-! DEFINITION. The one-bit conditions that gate behaviour (spec/10_state.md R34). The block has no condition codes: these
are the stored flags' readings and the tests a tick computes and consumes. -/

namespace Sys2Proof.Machine

/-- What BWR and BRD need: `BUS_CFG[i] = 1` and `CLK_CFG[SCL_ID[i]] = 1` (spec/10_state.md R30). -/
def busReady (b : Bus) (l : ClockLine) : Bool := b.busCfg && l.clkCfg

/-- CB_SET (spec/10_state.md R49). -/
def cbSet (g : Engine) : Bool := g.cb.isSome

/-- "Outside" the closed interval (spec/43_engine_tick.md R206, decision D23). -/
def outOfRange (w : Window) (cal : F64) : Bool := flt cal w.minValue || flt w.maxValue cal

/-- The error count after a completed cycle (spec/43_engine_tick.md R206). -/
def errCountAfter (w : Window) (cal : F64) (n : Nat) : Nat := if outOfRange w cal then n + 1 else 0

/-- Whether a completed cycle calls the shutdown hook; `n` is the error count before it (spec/43_engine_tick.md R206). -/
def trips (w : Window) (cal : F64) (n : Nat) : Bool :=
  outOfRange w cal && decide (0 < w.rangeCheckCount) && decide (w.rangeCheckCount ≤ n + 1)

/-- Whether a completed cycle fires the callback (spec/43_engine_tick.md R207). -/
def callbackDue (g : Engine) (now : F64) : Bool :=
  match g.cb with
  | none => false
  | some k => fge now (fadd g.lastCb k.reportTime)

end Sys2Proof.Machine
end

