-- ==== Sys2Proof/Machine/Operands.lean ====
section
/-! DEFINITION. Operand forms and codes: the address byte, the configuration byte, the sample word, received bytes
(spec/30_encoding.md R91 to R95, R105), rate selection (spec/42_engine_lifecycle.md R174), and the operand domains of
R103. -/

namespace Sys2Proof.Machine

/-! ### Codes and tables -/

def gainNat : Gain → Nat
  | .g1 => 1
  | .g2 => 2
  | .g4 => 4
  | .g8 => 8

/-- The gain an integer names, if it is supported (R43, R103). -/
def gainOfInt (z : Int) : Option Gain :=
  if z = 1 then some .g1 else if z = 2 then some .g2 else if z = 4 then some .g4
  else if z = 8 then some .g8 else none

/-- GAIN_CODE (R93). -/
def gainCodeOf : Gain → BitVec 2
  | .g1 => 0
  | .g2 => 1
  | .g4 => 2
  | .g8 => 3

def rateNat : Rate → Nat
  | .r8 => 8
  | .r16 => 16
  | .r32 => 32
  | .r128 => 128

/-- NORM (spec/10_state.md R44). -/
def normOf : Rate → Nat
  | .r8 => 32768
  | .r16 => 16384
  | .r32 => 8192
  | .r128 => 2048

/-- RATE_CODE, a parameter (R94). -/
def rateCodeOf (rc : RateCodes) : Rate → BitVec 2
  | .r8 => rc.c8
  | .r16 => rc.c16
  | .r32 => rc.c32
  | .r128 => rc.c128

/-- The inverse of RATE_CODE, where it has one (R92, disassembly). -/
def rateOfCode (rc : RateCodes) (c : BitVec 2) : Option Rate :=
  if c = rc.c8 then some .r8 else if c = rc.c16 then some .r16
  else if c = rc.c32 then some .r32 else if c = rc.c128 then some .r128 else none

/-- RATE_CODE is injective, which R94 requires of it. -/
def rateCodesInjective (rc : RateCodes) : Bool :=
  rc.c8 != rc.c16 && rc.c8 != rc.c32 && rc.c8 != rc.c128 && rc.c16 != rc.c32 && rc.c16 != rc.c128
    && rc.c32 != rc.c128

/-- The address byte: `((ADDR7 << 1) | RW)[7:0]` (R91). -/
def addrByte (a : BitVec 7) (rw : Bit) : Byte :=
  (a.setWidth 8 <<< 1) ||| (if rw then 1 else 0)

/-- The configuration byte: `((RATE_CODE << 2) | GAIN_CODE)[7:0]` (R92, R179). -/
def cfgByte (rc : RateCodes) (r : Rate) (g : Gain) : Byte :=
  ((rateCodeOf rc r).setWidth 8 <<< 2) ||| (gainCodeOf g).setWidth 8

/-- The sample word: `sext_16(response[0] ++ response[1])` (R95, spec/43_engine_tick.md R202). -/
def rawSample (b0 b1 : Byte) : Int := (b0 ++ b1 : BitVec 16).toInt

/-- A received byte from its sampled bits, first sampled bit most significant (R105). -/
def byteOfBits (bits : List Bit) : Byte :=
  bits.foldl (fun acc b => (acc <<< 1) ||| (if b then 1 else 0)) 0

/-! ### Rate selection -/

/-- SelectRate (spec/42_engine_lifecycle.md R174): "below" is strict. -/
def selectRate (sampleTime : F64) : Rate :=
  let requested := fdiv (floatOfInt 1) sampleTime
  if flt requested (floatOfInt 12) then .r8
  else if flt requested (floatOfInt 24) then .r16
  else if flt requested (floatOfInt 80) then .r32
  else .r128

/-- The recomputed `SAMPLE_TIME`: `fdiv(1.0, float(rate))` (spec/42_engine_lifecycle.md R173). -/
def periodOf (r : Rate) : F64 := fdiv (floatOfInt 1) (floatOfInt (rateNat r))

/-! ### Operand domains (R103, decisions D22 and D39) -/

def addr7Of (n : Nat) : Option (BitVec 7) := if n ≤ 127 then some (BitVec.ofNat 7 n) else none

def byteOf (n : Nat) : Option Byte := if n ≤ 255 then some (BitVec.ofNat 8 n) else none

def bytesOf : List Nat → Option (List Byte)
  | [] => some []
  | n :: ns =>
    match byteOf n, bytesOf ns with
    | some b, some bs => some (b :: bs)
    | _, _ => none

/-- The window EWIN writes, if its operands are legal (spec/42_engine_lifecycle.md R171). -/
def windowOf (t : F64) (n : Int) (lo hi : F64) (rcc : Int) : Option Window :=
  if t.isPosFinite ∧ 1 ≤ n ∧ 0 ≤ rcc ∧ lo.isNaN = false ∧ hi.isNaN = false then
    some { sampleTime := t, sampleCount := n.toNat, minValue := lo, maxValue := hi, rangeCheckCount := rcc.toNat }
  else none

end Sys2Proof.Machine
end

