-- ==== Sys2Proof/Machine/Map.lean ====
section
/-! DEFINITION. Finite partial maps as lists of key and value pairs in one canonical form, keys strictly rising, so that
equal maps are equal lists. They stand for REG, RX and the records by name (spec/10_state.md R23, R31). -/

namespace Sys2Proof.Machine

/-- The value at a key. -/
def mget {κ α : Type} [DecidableEq κ] (k : κ) : List (κ × α) → Option α
  | [] => none
  | (k', v) :: m => if k = k' then some v else mget k m

/-- Write a key, keeping the keys rising. -/
def mset {κ α : Type} [DecidableEq κ] (lt : κ → κ → Bool) (k : κ) (v : α) : List (κ × α) → List (κ × α)
  | [] => [(k, v)]
  | (k', v') :: m =>
    if k = k' then (k, v) :: m
    else if lt k k' then (k, v) :: (k', v') :: m
    else (k', v') :: mset lt k v m

/-- The canonical form: every key below all keys after it. -/
def mwf {κ α : Type} (lt : κ → κ → Bool) : List (κ × α) → Bool
  | [] => true
  | (k, _) :: m => m.all (fun p => lt k p.1) && mwf lt m

end Sys2Proof.Machine
end

