-- ==== Sys2Proof/Machine/Ops.lean ====
section
/-! DEFINITION. The named operations over the registers and maps of State, the draws from outside the block, and the entry
of its two exceptions (spec/60_exceptions.md). -/

namespace Sys2Proof.Machine

/-! ### Writing -/

def State.putLine (c : LineId) (l : ClockLine) (s : State) : State :=
  { s with lines := mset LineId.lt c l s.lines }

def State.putBus (i : Nat) (b : Bus) (s : State) : State :=
  { s with buses := mset natLt i b s.buses }

def State.putEngine (e : Nat) (g : Engine) (s : State) : State :=
  { s with engines := mset natLt e g s.engines }

/-- What the operation returns to its caller. -/
def State.give (r : Result) (s : State) : State := { s with result := r }

def State.logDiag (d : DiagEvent) (s : State) : State := { s with diag := s.diag ++ [d] }

/-- One more draw taken. -/
def State.nextDraw (s : State) : State := { s with env := { s.env with draws := s.env.draws + 1 } }

/-! ### Reading -/

/-- `REG[c]` (spec/10_state.md R23). -/
def ownerOf (c : LineId) (s : State) : Option Nat := (mget c s.lines).map ClockLine.owner

/-- A bus together with the state of its clock line `SCL_ID[i]`. -/
def busLine (i : Nat) (s : State) : Option (Bus × ClockLine) :=
  match mget i s.buses with
  | none => none
  | some b =>
    match mget b.scl s.lines with
    | none => none
    | some l => some (b, l)

/-- `W_SDA[i]`; a line nobody drives is released. No run asks for a bus that is not there. log 20. -/
def wireSda (i : Nat) (s : State) : Bit :=
  match mget i s.buses with
  | none => true
  | some b => b.wSda

/-- `W_SDA[i] <- v`. -/
def setWireSda (i : Nat) (v : Bit) (s : State) : State :=
  match mget i s.buses with
  | none => s
  | some b => s.putBus i { b with wSda := v }

/-! ### Draws from outside the block (spec/10_state.md R53) -/

/-- The slave's level at the next sample on clock line `c` (spec/20_memory.md R78). log 10. -/
def drawSlave (c : LineId) (s : State) : Bit × State :=
  match (mget c s.env.slave).getD [] with
  | [] => (Config.slaveBit s.env.draws, s.nextDraw)
  | b :: bs => (b, { s with env := { s.env with slave := mset LineId.lt c bs s.env.slave } })

/-- The executors of other clock lines that run before the next entry a read waits for, in order (spec/20_memory.md R72,
decision D27). log 4. -/
def drawBeside (s : State) : List LineId × State :=
  match s.env.beside with
  | [] => (Config.beside s.env.draws, s.nextDraw)
  | ds :: rest => (ds, { s with env := { s.env with beside := rest } })

/-- The receive time of a read of software bus `i`, not before the last one (spec/20_memory.md R79). log 12. -/
def drawStamp (i : Nat) (s : State) : Timestamp × State :=
  let rt := (mget i s.env.swLast).getD 0 + Config.rxGap s.env.draws
  (rt, { s.nextDraw with env := { s.nextDraw.env with swLast := mset natLt i rt s.env.swLast } })

/-- The response of external bus `h` to a read of `n` bytes and its receive time (spec/20_memory.md R66, R79). A free
response keeps the contract's bound on its length. log 11. -/
def drawResponse (h n : Nat) (s : State) : List Byte × Timestamp × State :=
  let last := (mget h s.env.hwLast).getD 0
  match (mget h s.env.hw).getD [] with
  | [] =>
    let rt := last + Config.rxGap s.env.draws
    ((Config.hwResponse s.env.draws).take n, rt,
      { s.nextDraw with env := { s.nextDraw.env with hwLast := mset natLt h rt s.env.hwLast } })
  | r :: rs =>
    let rt := last + r.gap
    (r.bytes, rt,
      { s with env := { s.env with hw := mset natLt h rs s.env.hw, hwLast := mset natLt h rt s.env.hwLast } })

/-! ### Exceptions -/

/-- Take a ConfigurationError (spec/60_exceptions.md R231, R232, R239): no state is written but the record of the error,
after which nothing runs (Machine/Fetch.lean). There is no return from it. -/
def raiseConfig (err : ConfigError) (s : State) : Host.Outcome State Fault Refusal :=
  .next { s with aborted := some err }

/-- Call the shutdown hook (spec/60_exceptions.md R239, R248): it saves nothing, switches nothing, appends to SHUT_LOG and
returns to the tick. There is no return from the shutdown itself (R240). -/
def invokeShutdown (e : Nat) (s : State) : State :=
  { s with
    shutLog := s.shutLog ++ [{ engine := e, reason := .adcOutOfRange }]
    diag := s.diag ++ [.shutdownTriggered e] }

/-- The reason string of a shutdown (spec/60_exceptions.md R235). -/
def reasonText : ShutdownReason → String
  | .adcOutOfRange => "ADC out of range"

/-- The cause codes (spec/60_exceptions.md R230). -/
def causeCode : ErrorKind → Nat
  | .unsupportedGain => 1
  | .controllerMismatch => 2
  | .transientReadError => 3
  | .rangeViolation => 4
  | .fatalShutdown => 5

/-- The kind of a recorded ConfigurationError. -/
def ConfigError.kind : ConfigError → ErrorKind
  | .unsupportedGain _ _ => .unsupportedGain
  | .controllerMismatch _ _ _ => .controllerMismatch

/-- The kind a diagnostic record reports, if it reports an error (spec/60_exceptions.md R233, R235). -/
def DiagEvent.kind : DiagEvent → Option ErrorKind
  | .tickStarted _ => none
  | .retryOccurred _ _ => some .transientReadError
  | .shutdownTriggered _ => some .fatalShutdown

/-- Invoke the reporting callback (spec/43_engine_tick.md R207): a record of CB_LOG. The body is outside the block. -/
def invokeCallback (e : Nat) (t value : F64) (s : State) : State :=
  { s with cbLog := s.cbLog ++ [{ engine := e, time := t, value := value }] }

end Sys2Proof.Machine
end

