-- ==== Sys2Proof/Machine/Micro.lean ====
section
/-! DEFINITION. The bus micro-operations, format U (spec/40_bus_primitives.md R120 to R129). Each is a function on a
`Lane`, the three state elements emission writes, lifted to State once by `microOp`. -/

namespace Sys2Proof.Machine

/-- What emission by bus `i` on its clock line `c` reads and writes: `TQ[c]`, `SCL_LVL[c]`, `SDA_LVL[i]`. -/
structure Lane where
  tq : List Entry
  scl : Bit
  sda : Bit
deriving DecidableEq, Repr, Inhabited

/-! ### Emission on a lane -/

/-- SETL (R120): one entry appended, the level last emitted set. -/
def setl (i : Nat) (h : Hint) (line : WireLine) (v : Bit) (ln : Lane) : Lane :=
  match line with
  | .scl => { ln with tq := ln.tq ++ [.scl v h], scl := v }
  | .sda => { ln with tq := ln.tq ++ [.sda i v h], sda := v }

/-- A clock pulse, `C1 C0` (spec/00_scope.md R11). -/
def pulse (i : Nat) (h : Hint) (ln : Lane) : Lane := setl i h .scl false (setl i h .scl true ln)

/-- REL (R121). -/
def rel (i : Nat) (h : Hint) (ln : Lane) : Lane := setl i h .sda true ln

/-- START (R122). -/
def start (i : Nat) (h : Hint) (ln : Lane) : Lane := setl i h .scl false (setl i h .sda false ln)

/-- STOP (R123), with the parameter STOP_PRELOW. -/
def stop (p : Params) (i : Nat) (h : Hint) (ln : Lane) : Lane :=
  setl i h .sda true (setl i h .scl true (if p.stopPrelow then setl i h .sda false ln else ln))

/-- TXBIT (R124): a data entry only when the bit differs from the level last emitted. -/
def txbit (i : Nat) (h : Hint) (b : Bit) (ln : Lane) : Lane :=
  pulse i h (if b = ln.sda then ln else setl i h .sda b ln)

/-- The bits of a byte, bit 7 first (spec/20_memory.md R61). -/
def bitsOfByte (x : Byte) : List Bit :=
  [x.getLsbD 7, x.getLsbD 6, x.getLsbD 5, x.getLsbD 4, x.getLsbD 3, x.getLsbD 2, x.getLsbD 1, x.getLsbD 0]

def txbits (i : Nat) (h : Hint) : List Bit → Lane → Lane
  | [], ln => ln
  | b :: bs, ln => txbits i h bs (txbit i h b ln)

/-- TXBYTE (R125): eight bits and the acknowledge slot. -/
def txbyte (i : Nat) (h : Hint) (x : Byte) (ln : Lane) : Lane := pulse i h (txbits i h (bitsOfByte x) ln)

/-- RXBIT (R126): the lane after it and the queue position of the sample. -/
def rxbit (i : Nat) (h : Hint) (ln : Lane) : Lane × Nat :=
  let up := setl i h .scl true ln
  (setl i h .scl false { up with tq := up.tq ++ [.smp i h] }, up.tq.length)

/-- That many RXBITs, with their positions in sampling order. -/
def rxbits (i : Nat) (h : Hint) : Nat → Lane → Lane × List Nat
  | 0, ln => (ln, [])
  | k + 1, ln => ((rxbits i h k (rxbit i h ln).1).1, (rxbit i h ln).2 :: (rxbits i h k (rxbit i h ln).1).2)

/-- MACK (R128): `D0 C1 C0 D1`. -/
def mack (i : Nat) (h : Hint) (ln : Lane) : Lane :=
  setl i h .sda true (pulse i h (setl i h .sda false ln))

/-- MNACK (R129): `C1 C0`. -/
def mnack (i : Nat) (h : Hint) (ln : Lane) : Lane := pulse i h ln

/-- RXBYTE (R127): eight bits and the answer, with the eight positions. -/
def rxbyte (i : Nat) (h : Hint) (last : Bool) (ln : Lane) : Lane × List Nat :=
  let r := rxbits i h 8 ln
  (if last then mnack i h r.1 else mack i h r.1, r.2)

/-! ### On the state -/

/-- The lane of a bus and its clock line. -/
def laneOf (b : Bus) (l : ClockLine) : Lane := { tq := l.tq, scl := l.sclLvl, sda := b.sdaLvl }

/-- Write a lane back: to the queue and level of the clock line, which are the owner's, and the level of the bus. -/
def putLane (i : Nat) (b : Bus) (l : ClockLine) (ln : Lane) (s : State) : State :=
  (s.putLine b.scl { l with tq := ln.tq, sclLvl := ln.scl }).putBus i { b with sdaLvl := ln.sda }

/-- Run an emission on bus `i`, which must be configured (spec/40_bus_primitives.md, first paragraph). -/
def microOp (i : Nat) (f : Lane → Lane × Result) (s : State) : Host.Outcome State Fault Refusal :=
  match busLine i s with
  | none => .refused .notConfigured
  | some (b, l) =>
    if b.busCfg then .next ((putLane i b l (f (laneOf b l)).1 s).give (f (laneOf b l)).2)
    else .refused .notConfigured

/-! ### The meanings -/

/-- SETL (R120). -/
def execSetl (i : Nat) (line : WireLine) (v : Bit) (h : Hint) (s : State) : Host.Outcome State Fault Refusal :=
  microOp i (fun ln => (setl i h line v ln, .none)) s

/-- REL (R121). -/
def execRel (i : Nat) (h : Hint) (s : State) : Host.Outcome State Fault Refusal :=
  microOp i (fun ln => (rel i h ln, .none)) s

/-- START (R122). -/
def execStart (i : Nat) (h : Hint) (s : State) : Host.Outcome State Fault Refusal :=
  microOp i (fun ln => (start i h ln, .none)) s

/-- STOP (R123). -/
def execStop (i : Nat) (h : Hint) (s : State) : Host.Outcome State Fault Refusal :=
  microOp i (fun ln => (stop s.params i h ln, .none)) s

/-- TXBIT (R124). -/
def execTxbit (i : Nat) (b : Bit) (h : Hint) (s : State) : Host.Outcome State Fault Refusal :=
  microOp i (fun ln => (txbit i h b ln, .none)) s

/-- TXBYTE (R125). -/
def execTxbyte (i : Nat) (x : Byte) (h : Hint) (s : State) : Host.Outcome State Fault Refusal :=
  microOp i (fun ln => (txbyte i h x ln, .none)) s

/-- RXBIT (R126): returns the position of the sample. -/
def execRxbit (i : Nat) (h : Hint) (s : State) : Host.Outcome State Fault Refusal :=
  microOp i (fun ln => ((rxbit i h ln).1, .position (rxbit i h ln).2)) s

/-- RXBYTE (R127): returns the eight positions in sampling order. -/
def execRxbyte (i : Nat) (last : Bool) (h : Hint) (s : State) : Host.Outcome State Fault Refusal :=
  microOp i (fun ln => ((rxbyte i h last ln).1, .positions (rxbyte i h last ln).2)) s

/-- MACK (R128). -/
def execMack (i : Nat) (h : Hint) (s : State) : Host.Outcome State Fault Refusal :=
  microOp i (fun ln => (mack i h ln, .none)) s

/-- MNACK (R129). -/
def execMnack (i : Nat) (h : Hint) (s : State) : Host.Outcome State Fault Refusal :=
  microOp i (fun ln => (mnack i h ln, .none)) s

end Sys2Proof.Machine
end

