-- ==== Sys2Proof/Machine/Queue.lean ====
section
/-! DEFINITION. The queue executor, format Q (spec/40_bus_primitives.md R130, R131): only the entry at `QHEAD[c]` can
execute (spec/20_memory.md R70). -/

namespace Sys2Proof.Machine

/-- The clock line `c` and the entry at `TQ[c][QHEAD[c]]`, when there is one. -/
def headEntry (c : LineId) (s : State) : Option (ClockLine × Entry) :=
  match mget c s.lines with
  | none => none
  | some l =>
    match l.tq[l.qhead]? with
    | none => none
    | some e => some (l, e)

/-- `W_SCL[c] <- v`, and the head moves on (R130). -/
def runScl (c : LineId) (l : ClockLine) (v : Bit) (s : State) : State :=
  s.putLine c { l with wScl := v, qhead := l.qhead + 1 }

/-- `W_SDA[i] <- v`, and the head moves on (R130). -/
def runSda (c : LineId) (l : ClockLine) (i : Nat) (v : Bit) (s : State) : State :=
  setWireSda i v (s.putLine c { l with qhead := l.qhead + 1 })

/-- `RX[c][QHEAD[c]] <- W_SDA[i] & slave`, and the head moves on (R131). -/
def runSmp (c : LineId) (l : ClockLine) (i : Nat) (slave : Bit) (s : State) : State :=
  s.putLine c { l with rx := mset natLt l.qhead (wireSda i s && slave) l.rx, qhead := l.qhead + 1 }

/-- QSET (R130). A clock line whose step is not enabled is no operand of it (log 7). -/
def execQset (c : LineId) (s : State) : Host.Outcome State Fault Refusal :=
  match headEntry c s with
  | some (l, .scl v _) => .next (runScl c l v s)
  | some (l, .sda i v _) => .next (runSda c l i v s)
  | some (_, .smp _ _) => .refused .badOperand
  | none => .refused .badOperand

/-- QSMP (R131); `slave` is the draw of spec/20_memory.md R78. A clock line whose step is not enabled is no operand of it
(log 7). -/
def execQsmp (c : LineId) (slave : Bit) (s : State) : Host.Outcome State Fault Refusal :=
  match headEntry c s with
  | some (l, .smp i _) => .next (runSmp c l i slave s)
  | some (_, .scl _ _) => .refused .badOperand
  | some (_, .sda _ _ _) => .refused .badOperand
  | none => .refused .badOperand

/-- The step the executor takes by itself: the enabled one of QSET and QSMP, a sample's level drawn. -/
def autoStep (c : LineId) (s : State) : State :=
  match headEntry c s with
  | none => s
  | some (l, .scl v _) => runScl c l v s
  | some (l, .sda i v _) => runSda c l i v s
  | some (l, .smp i _) => runSmp c l i (drawSlave c s).1 (drawSlave c s).2

/-- That many steps of the executor. -/
def autoSteps (c : LineId) : Nat → State → State
  | 0, s => s
  | k + 1, s => autoSteps c k (autoStep c s)

/-- How many entries of clock line `c` are pending. -/
def pending (c : LineId) (s : State) : Nat :=
  match mget c s.lines with
  | none => 0
  | some l => l.tq.length - l.qhead

/-- Whether some clock line other than `c` has an entry to execute. -/
def othersPending (c : LineId) (s : State) : Bool :=
  s.lines.any (fun p => p.1 != c && decide (p.2.qhead < p.2.tq.length))

/-- The executors of these clock lines step in this order, that of `c` left out. -/
def runBeside (c : LineId) : List LineId → State → State
  | [], s => s
  | d :: ds, s => runBeside c ds (if d = c then s else autoStep d s)

/-- Entries of other clock lines run between two entries of `c`, any number of them in any order (spec/20_memory.md R72);
where none is pending there is nothing to draw. log 4. -/
def letOthersRun (c : LineId) (s : State) : State :=
  if othersPending c s then runBeside c (drawBeside s).1 (drawBeside s).2 else s

/-- That many entries of `c` run, those of other clock lines in any interleaving with them (spec/20_memory.md R72). -/
def waitSteps (c : LineId) : Nat → State → State
  | 0, s => s
  | k + 1, s => waitSteps c k (autoStep c (letOthersRun c s))

/-- The wait of BRD: until `QHEAD[c] >= length(TQ[c])` (spec/41_bus_operations.md R153). log 4. -/
def drain (c : LineId) (s : State) : State := waitSteps c (pending c s) s

end Sys2Proof.Machine
end

