-- ==== Sys2Proof/Machine/BusOps.lean ====
section
/-! DEFINITION. The host-level bus operations, format B (spec/41_bus_operations.md R150 to R154), and the access primitives
MemWrite and MemRead (spec/20_memory.md R64 to R66). -/

namespace Sys2Proof.Machine

/-! ### Frames -/

def txbytes (i : Nat) (h : Hint) : List Byte → Lane → Lane
  | [], ln => ln
  | x :: xs, ln => txbytes i h xs (txbyte i h x ln)

/-- What BWR emits (R152). -/
def writeFrame (p : Params) (i : Nat) (h : Hint) (ab : Byte) (payload : List Byte) (ln : Lane) : Lane :=
  stop p i h (txbytes i h payload (txbyte i h ab (start i h ln)))

/-- `n` RXBYTEs, the last answered by MNACK, with the positions of each byte (R153). -/
def rxbytes (i : Nat) (h : Hint) : Nat → Lane → Lane × List (List Nat)
  | 0, ln => (ln, [])
  | k + 1, ln =>
    ((rxbytes i h k (rxbyte i h (k == 0) ln).1).1,
      (rxbyte i h (k == 0) ln).2 :: (rxbytes i h k (rxbyte i h (k == 0) ln).1).2)

/-- What BRD emits before its first receive cell (R153). -/
def readHead (p : Params) (i : Nat) (h : Hint) (ab : Byte) (ln : Lane) : Lane :=
  let sent := txbyte i h ab (start i h (rel i h ln))
  if p.rdAddrStop then stop p i h sent else sent

/-- What BRD emits (R153), with the positions of each byte's samples. -/
def readFrame (p : Params) (i : Nat) (h : Hint) (ab : Byte) (n : Nat) (ln : Lane) : Lane × List (List Nat) :=
  let r := rxbytes i h n (readHead p i h ab ln)
  (stop p i h (rel i h r.1), r.2)

/-! ### Reading back -/

/-- The bits sampled at these positions, if all have been. -/
def rxBitsAt (rx : List (Nat × Bit)) : List Nat → Option (List Bit)
  | [] => some []
  | p :: ps =>
    match mget p rx, rxBitsAt rx ps with
    | some b, some bs => some (b :: bs)
    | _, _ => none

/-- `value(P[j])` for every byte (spec/40_bus_primitives.md R127). -/
def rxBytesAt (rx : List (Nat × Bit)) : List (List Nat) → Option (List Byte)
  | [] => some []
  | ps :: pss =>
    match rxBitsAt rx ps, rxBytesAt rx pss with
    | some bits, some xs => some (byteOfBits bits :: xs)
    | _, _ => none

/-! ### The operations -/

/-- The body of BWR (R152): it only emits (spec/20_memory.md R73). -/
def busWrite (i : Nat) (ab : Byte) (payload : List Byte) (h : Hint) (s : State) : Except Refusal State :=
  match busLine i s with
  | none => .error .notConfigured
  | some (b, l) =>
    if busReady b l then .ok (putLane i b l (writeFrame s.params i h ab payload (laneOf b l)) s)
    else .error .notConfigured

/-- The body of BRD (R153): emit, wait until the executor has run every entry, assemble the bytes. A position that holds no
bit, which no run reaches, is log 7. -/
def busRead (i : Nat) (n : Nat) (h : Hint) (s : State) : Except Refusal (List Byte × Timestamp × State) :=
  match busLine i s with
  | none => .error .notConfigured
  | some (b, l) =>
    if busReady b l then
      let frame := readFrame s.params i h (addrByte b.addr7 true) n (laneOf b l)
      let done := drain b.scl (putLane i b l frame.1 s)
      match mget b.scl done.lines with
      | none => .error .notConfigured
      | some l' =>
        match rxBytesAt l'.rx frame.2 with
        | none => .error .notConfigured
        | some response => .ok (response, drawStamp i done)
    else .error .notConfigured

/-- MemWrite (spec/20_memory.md R64, R66): the address is the bus's own. -/
def memWrite (bus : BusRef) (v : List Byte) (h : Hint) (s : State) : Except Refusal State :=
  match bus with
  | .software i =>
    match mget i s.buses with
    | none => .error .notConfigured
    | some b => busWrite i (addrByte b.addr7 false) v h s
  | .hardware k => .ok { s with hwLog := s.hwLog ++ [{ bus := k, addr7 := Config.hwAddr7 k, bytes := v }] }

/-- MemRead (spec/20_memory.md R65, R66): an external response longer than requested is refused. -/
def memRead (bus : BusRef) (n : Nat) (h : Hint) (s : State) : Except Refusal (List Byte × Timestamp × State) :=
  match bus with
  | .software i => busRead i n h s
  | .hardware k =>
    let r := drawResponse k n s
    if r.1.length ≤ n then .ok r else .error .overlongResponse

/-! ### The meanings -/

/-- A line is in use as a data line by some bus, or (`clock`) as a clock line too. -/
def lineInUse (clock : Bool) (x : LineId) : List (Nat × Bus) → Bool
  | [] => false
  | (_, b) :: m => b.sda == x || (clock && b.scl == x) || lineInUse clock x m

/-- The clock line a new owner allocates (R150); its levels are unspecified before BCFG (log 9). -/
def newLine (i : Nat) (s : State) : ClockLine where
  owner := i
  tq := []
  qhead := 0
  rx := []
  sclLvl := Config.levelBeforeBcfg s.env.draws 0
  wScl := Config.levelBeforeBcfg s.env.draws 1
  clkCfg := false

/-- A new bus (R150); its levels are unspecified before BCFG (log 9). -/
def newBus (a : BitVec 7) (scl sda : LineId) (owner : Nat) (s : State) : Bus where
  addr7 := a
  scl := scl
  sda := sda
  ctrl := scl.ctrl
  owner := owner
  sdaLvl := Config.levelBeforeBcfg s.env.draws 2
  wSda := Config.levelBeforeBcfg s.env.draws 3
  busCfg := false

/-- BNEW after its checks: the first on a clock line becomes its owner (R150). -/
def addBus (i : Nat) (a : BitVec 7) (scl sda : LineId) (s : State) : State :=
  match mget scl s.lines with
  | none => ((s.putLine scl (newLine i s)).putBus i (newBus a scl sda i s)).nextDraw.give .none
  | some l => (s.putBus i (newBus a scl sda l.owner s)).nextDraw.give .none

/-- BNEW (R150). The order of the checks is log 8; the data line is exclusive (decision D28, log 28). -/
def execBnew (i addr7 : Nat) (scl sda : LineId) (s : State) : Host.Outcome State Fault Refusal :=
  match addr7Of addr7 with
  | none => .refused .badOperand
  | some a =>
    if sda.ctrl ≠ scl.ctrl then raiseConfig (.controllerMismatch i scl.ctrl sda.ctrl) s
    else if (mget i s.buses).isSome then .refused .nameInUse
    else if lineInUse true sda s.buses || lineInUse false scl s.buses then .refused .lineInUse
    else .next (addBus i a scl sda s)

/-- The clock line after its owner's BCFG (R151). -/
def idleLine (l : ClockLine) : ClockLine := { l with sclLvl := true, wScl := true, clkCfg := true }

/-- A bus after its own BCFG (R151). -/
def idleBus (b : Bus) : Bus := { b with sdaLvl := true, wSda := true, busCfg := true }

/-- BCFG (R151): the owner sets up the clock line, every bus its own data line. -/
def execBcfg (i : Nat) (s : State) : Host.Outcome State Fault Refusal :=
  match busLine i s with
  | none => .refused .notConfigured
  | some (b, l) =>
    if b.busCfg then .refused .alreadyConfigured
    else if b.owner = i then .next (((s.putLine b.scl (idleLine l)).putBus i (idleBus b)).give .none)
    else .next ((s.putBus i (idleBus b)).give .none)

/-- BWR (R152). A byte above 255 is refused before a missing configuration (log 8). -/
def execBwr (i ab : Nat) (payload : List Nat) (h : Hint) (s : State) : Host.Outcome State Fault Refusal :=
  match byteOf ab, bytesOf payload with
  | some x, some xs =>
    match busWrite i x xs h s with
    | .ok t => .next (t.give .none)
    | .error r => .refused r
  | _, _ => .refused .badOperand

/-- BRD (R153): returns the response and its receive time. -/
def execBrd (i n : Nat) (h : Hint) (s : State) : Host.Outcome State Fault Refusal :=
  match busRead i n h s with
  | .ok (response, rt, t) => .next (t.give (.read response rt))
  | .error r => .refused r

/-- BCTL (R154). -/
def execBctl (i : Nat) (s : State) : Host.Outcome State Fault Refusal :=
  match mget i s.buses with
  | none => .refused .notConfigured
  | some b => .next (s.give (.controller b.ctrl))

end Sys2Proof.Machine
end

