-- ==== Sys2Proof/Machine/Engine.lean ====
section
/-! DEFINITION. Engine construction, configuration, arming and queries, format E without ETICK
(spec/42_engine_lifecycle.md R170 to R177). -/

namespace Sys2Proof.Machine

/-- A new engine (R170): the registers it does not write are unwritten (spec/10_state.md R55). -/
def newEngine (bus : BusRef) (gain : Gain) (s : State) : Engine where
  st := .idle
  bus := bus
  gain := gain
  gainCode := gainCodeOf gain
  rate := none
  win := none
  partialSum := F64.zero
  samplesTaken := 0
  last := none
  errCount := 0
  cb := none
  lastCb := s.params.lastCbInit
  timer := none
  nextDeadline := none
  cfgReg := none

/-- ENEW (R170). The order of the checks is log 8; that a software bus need not have been built yet is
log 31, that two engines may hold one bus is log 32. -/
def execEnew (e : Nat) (bus : BusRef) (gain : Int) (s : State) : Host.Outcome State Fault Refusal :=
  match gainOfInt gain with
  | none => raiseConfig (.unsupportedGain e gain) s
  | some g =>
    if (mget e s.engines).isSome then .refused .nameInUse
    else .next ((s.putEngine e (newEngine bus g s)).give .none)

/-- EWIN (R171): all five window registers, in `Idle` only. -/
def execEwin (e : Nat) (sampleTime : F64) (sampleCount : Int) (lo hi : F64) (rcc : Int) (s : State) :
    Host.Outcome State Fault Refusal :=
  match mget e s.engines with
  | none => .refused .wrongEngineState
  | some g =>
    if g.st = .idle then
      match windowOf sampleTime sampleCount lo hi rcc with
      | none => .refused .badOperand
      | some w => .next ((s.putEngine e { g with win := some w }).give .none)
    else .refused .wrongEngineState

/-- ECB (R172): in any state; a second one replaces the first. The order of the checks is log 8. -/
def execEcb (e : Nat) (reportTime : F64) (cb : Nat) (s : State) : Host.Outcome State Fault Refusal :=
  match mget e s.engines with
  | none => .refused .wrongEngineState
  | some g =>
    if reportTime.isNaN then .refused .badOperand
    else .next ((s.putEngine e { g with cb := some { cb := cb, reportTime := reportTime } }).give .none)

/-- RATE, RATE_CODE and NORM of a rate (R173). -/
def rateRegsOf (rc : RateCodes) (r : Rate) : RateRegs := { rate := r, code := rateCodeOf rc r, norm := normOf r }

/-- An engine after ECFG with window `w` (R173). -/
def configured (rc : RateCodes) (w : Window) (g : Engine) : Engine :=
  { g with
    rate := some (rateRegsOf rc (selectRate w.sampleTime))
    win := some { w with sampleTime := periodOf (selectRate w.sampleTime) }
    st := .configuring }

/-- ECFG (R173). -/
def execEcfg (e : Nat) (s : State) : Host.Outcome State Fault Refusal :=
  match mget e s.engines with
  | none => .refused .wrongEngineState
  | some g =>
    if g.st = .idle then
      match g.win with
      | none => .refused .windowUnset
      | some w => .next ((s.putEngine e (configured s.params.rateCode w g)).give .none)
    else .refused .wrongEngineState

/-- An engine after EARM (R175). -/
def armed (p : Params) (cfg : Byte) (handle : Nat) (g : Engine) : Engine :=
  { g with
    cfgReg := some cfg
    timer := some handle
    nextDeadline := some p.firstDeadline
    st := .armed }

/-- EARM (R175): the configuration byte to the slave first, the timer second. The hint and the timer handle are free
(log 16). -/
def execEarm (e : Nat) (s : State) : Host.Outcome State Fault Refusal :=
  match mget e s.engines with
  | none => .refused .wrongEngineState
  | some g =>
    if g.st = .configuring then
      match g.rate with
      | none => .refused .wrongEngineState
      | some r =>
        let cfg := cfgByte s.params.rateCode r.rate g.gain
        match memWrite g.bus [cfg] (Config.engineHint s.env.draws) s.nextDraw with
        | .error x => .refused x
        | .ok t => .next ((t.putEngine e (armed s.params cfg (Config.timerHandle s.env.draws) g)).give .none)
    else .refused .wrongEngineState

/-- EGET (R176): before the first completed cycle, a free pair (log 13). -/
def execEget (e : Nat) (s : State) : Host.Outcome State Fault Refusal :=
  match mget e s.engines with
  | none => .refused .wrongEngineState
  | some g =>
    match g.last with
    | some r => .next (s.give (.last r.value r.ts))
    | none => .next (s.nextDraw.give (.last (Config.lastValue s.env.draws) (Config.lastStamp s.env.draws)))

/-- ESTAT (R177): the status line reports LAST_TS; its text is left open. -/
def execEstat (e : Nat) (s : State) : Host.Outcome State Fault Refusal :=
  match mget e s.engines with
  | none => .refused .wrongEngineState
  | some g =>
    match g.last with
    | some r => .next (s.give (.status r.ts))
    | none => .next (s.nextDraw.give (.status (Config.lastStamp s.env.draws)))

end Sys2Proof.Machine
end

