-- ==== Sys2Proof/Machine/Tick.lean ====
section
/-! DEFINITION. ETICK (spec/43_engine_tick.md R200 to R208). A short response leaves the tick inside its retry loop
(`State.busy`): the next step of the machine is the next attempt, and nothing else of the loop runs before (log 5). -/

namespace Sys2Proof.Machine

/-- Step 2b (R203). -/
def accumulate (raw : Int) (g : Engine) : Engine :=
  { g with partialSum := fadd g.partialSum (floatOfInt raw), samplesTaken := g.samplesTaken + 1 }

/-- The calibrated value of step 4 (R205): two divisions, left to right. -/
def calibrated (sum : F64) (count norm : Nat) : F64 :=
  fdiv (fdiv sum (floatOfInt count)) (floatOfInt norm)

/-- Step 4 (R205): record the pair, reset the accumulator. -/
def recordCycle (cal : F64) (rt : Timestamp) (g : Engine) : Engine :=
  { g with last := some { value := cal, ts := rt }, partialSum := F64.zero, samplesTaken := 0 }

/-- Step 5 (R206): the error count. -/
def supervise (w : Window) (cal : F64) (g : Engine) : Engine :=
  { g with errCount := errCountAfter w cal g.errCount }

/-- Step 6 (R207): the last-callback time. -/
def gateCallback (now : F64) (g : Engine) : Engine :=
  if callbackDue g now then { g with lastCb := now } else g

/-- Steps 3 and 7 (R204, R208): the next deadline, stored and returned; the tick is over. -/
def reschedule (e : Nat) (now : F64) (w : Window) (g : Engine) (s : State) : State :=
  let t := fadd now w.sampleTime
  { (s.putEngine e { g with nextDeadline := some t }).give (.deadline t) with busy := none }

/-- The engine's registers after a completed cycle, before step 7. -/
def cycleEngine (now : F64) (w : Window) (cal : F64) (rt : Timestamp) (g : Engine) : Engine :=
  gateCallback now (supervise w cal (recordCycle cal rt g))

/-- The records of a completed cycle: the shutdown hook of step 5, then the callback of step 6. `g` is the engine before
step 4. -/
def cycleLogs (e : Nat) (now : F64) (w : Window) (cal : F64) (rt : Timestamp) (g : Engine) (s : State) : State :=
  let hooked := if trips w cal g.errCount then invokeShutdown e s else s
  if callbackDue g now then invokeCallback e (Config.estTime rt) cal hooked else hooked

/-- Steps 2 to 7, with the sample of a successful read. -/
def finishTick (e : Nat) (now : F64) (raw : Int) (rt : Timestamp) (g : Engine) (s : State) :
    Host.Outcome State Fault Refusal :=
  match g.win with
  | none => .refused .windowUnset
  | some w =>
    let g' := accumulate raw g
    if g'.samplesTaken < w.sampleCount then .next (reschedule e now w g' s)
    else
      match g'.rate with
      | none => .refused .wrongEngineState
      | some r =>
        let cal := calibrated g'.partialSum w.sampleCount r.norm
        .next (reschedule e now w (cycleEngine now w cal rt g') (cycleLogs e now w cal rt g' s))

/-- One attempt of step 1 (R201) and, if it succeeds, the rest of the tick. -/
def tickAttempt (e : Nat) (now : F64) (g : Engine) (s : State) : Host.Outcome State Fault Refusal :=
  match memRead g.bus 2 (Config.engineHint s.env.draws) s.nextDraw with
  | .error r => .refused r
  | .ok (response, rt, t) =>
    match response with
    | b0 :: b1 :: _ => finishTick e now (rawSample b0 b1) rt g t
    | [_] => .next { t.logDiag (.retryOccurred e 1) with busy := some { engine := e, now := now } }
    | [] => .next { t.logDiag (.retryOccurred e 0) with busy := some { engine := e, now := now } }

/-- A tick begins: `ENG_STATE[e] <- Sampling` (R200). -/
def sampling (g : Engine) : Engine := { g with st := .sampling }

/-- ETICK (R200). -/
def execEtick (e : Nat) (now : F64) (s : State) : Host.Outcome State Fault Refusal :=
  match mget e s.engines with
  | none => .refused .wrongEngineState
  | some g =>
    if g.st = .armed ∨ g.st = .sampling then
      tickAttempt e now (sampling g) ((s.putEngine e (sampling g)).logDiag (.tickStarted e))
    else .refused .wrongEngineState

/-- The next attempt of a tick inside its retry loop: the same `now`, the same read (R201). -/
def resumeTick (k : Tick) (s : State) : Host.Outcome State Fault Refusal :=
  match mget k.engine s.engines with
  | none => .refused .wrongEngineState
  | some g => tickAttempt k.engine k.now g s

end Sys2Proof.Machine
end

