-- ==== Sys2Proof/Machine/Dispatch.lean ====
section
/-! DEFINITION. One arm per constructor of Instr: the meaning of every operation of spec/30_encoding.md R101. -/

namespace Sys2Proof.Machine

def exec (i : Instr) (s : State) : Host.Outcome State Fault Refusal :=
  match i with
  | .bnew nm addr7 scl sda => Sys2Proof.Machine.execBnew nm addr7 scl sda s
  | .bcfg nm => Sys2Proof.Machine.execBcfg nm s
  | .bwr nm ab payload h => Sys2Proof.Machine.execBwr nm ab payload h s
  | .brd nm len h => Sys2Proof.Machine.execBrd nm len h s
  | .bctl nm => Sys2Proof.Machine.execBctl nm s
  | .enew e bus gain => Sys2Proof.Machine.execEnew e bus gain s
  | .ewin e sampleTime sampleCount lo hi rcc => Sys2Proof.Machine.execEwin e sampleTime sampleCount lo hi rcc s
  | .ecb e reportTime cb => Sys2Proof.Machine.execEcb e reportTime cb s
  | .ecfg e => Sys2Proof.Machine.execEcfg e s
  | .earm e => Sys2Proof.Machine.execEarm e s
  | .etick e now => Sys2Proof.Machine.execEtick e now s
  | .eget e => Sys2Proof.Machine.execEget e s
  | .estat e => Sys2Proof.Machine.execEstat e s
  | .setl nm line v h => Sys2Proof.Machine.execSetl nm line v h s
  | .rel nm h => Sys2Proof.Machine.execRel nm h s
  | .start nm h => Sys2Proof.Machine.execStart nm h s
  | .stop nm h => Sys2Proof.Machine.execStop nm h s
  | .txbit nm b h => Sys2Proof.Machine.execTxbit nm b h s
  | .txbyte nm byte h => Sys2Proof.Machine.execTxbyte nm byte h s
  | .rxbit nm h => Sys2Proof.Machine.execRxbit nm h s
  | .rxbyte nm last h => Sys2Proof.Machine.execRxbyte nm last h s
  | .mack nm h => Sys2Proof.Machine.execMack nm h s
  | .mnack nm h => Sys2Proof.Machine.execMnack nm h s
  | .qset c => Sys2Proof.Machine.execQset c s
  | .qsmp c v => Sys2Proof.Machine.execQsmp c v s

end Sys2Proof.Machine
end

