-- ==== Sys2Proof/WellFormed.lean ====
section
/-! DEFINITION. Well-formed operations: every operand in the domain the spec gives it (spec/30_encoding.md R103,
decisions D22 and D39). An unsupported gain is not ill-formed: the spec gives it an effect, an exception (R170). -/

namespace Sys2Proof

/-- Every operand lies in its domain. -/
def Instr.wf : Instr → Bool
  | .bnew _ addr7 _ _ => decide (addr7 ≤ 127)
  | .bcfg _ => true
  | .bwr _ ab payload _ => decide (ab ≤ 255) && payload.all (fun b => decide (b ≤ 255))
  | .brd _ _ _ => true
  | .bctl _ => true
  | .enew _ _ _ => true
  | .ewin _ t n lo hi rcc =>
      t.isPosFinite && decide (1 ≤ n) && decide (0 ≤ rcc) && !lo.isNaN && !hi.isNaN
  | .ecb _ t _ => !t.isNaN
  | .ecfg _ => true
  | .earm _ => true
  | .etick _ _ => true
  | .eget _ => true
  | .estat _ => true
  | .setl _ _ _ _ => true
  | .rel _ _ => true
  | .start _ _ => true
  | .stop _ _ => true
  | .txbit _ _ _ => true
  | .txbyte _ _ _ => true
  | .rxbit _ _ => true
  | .rxbyte _ _ _ => true
  | .mack _ _ => true
  | .mnack _ _ => true
  | .qset _ => true
  | .qsmp _ _ => true

/-- A well-formed operation. -/
abbrev WellFormed (i : Instr) : Prop := i.wf = true

end Sys2Proof
end

