-- ==== Sys2Proof/Decode.lean ====
section
/-! DEFINITION. The command format (spec/30_encoding.md R100, R101): an opcode byte and the operands as typed values.
The spec fixes no bit layout for operands; the layout below is the model's own (log 1): a natural number is a string
of 7-bit groups, least significant first, bit 7 of every byte but the last set, in its shortest form; an integer is
folded into a natural; a bit, a line and a bus variant are one byte; a float is the 8 bytes of its binary64 pattern, least
significant first; a list is its length and its elements. Decoding is total and rejects by name. -/

namespace Sys2Proof

abbrev Bytes := List Byte

/-- Why a byte string is no operation. -/
inductive DecodeError where
  | reservedOpcode   -- an opcode byte not in R101 (spec/30_encoding.md R102)
  | truncated        -- the string ends inside an operation
  | badOperand       -- an operand that is no value of its type in the layout of log 1
deriving DecidableEq, Repr, Inhabited

/-- The opcode byte (spec/30_encoding.md R101). -/
def Instr.opcode : Instr → Byte
  | .bnew _ _ _ _ => 0x01
  | .bcfg _ => 0x02
  | .bwr _ _ _ _ => 0x03
  | .brd _ _ _ => 0x04
  | .bctl _ => 0x05
  | .enew _ _ _ => 0x10
  | .ewin _ _ _ _ _ _ => 0x11
  | .ecb _ _ _ => 0x12
  | .ecfg _ => 0x13
  | .earm _ => 0x14
  | .etick _ _ => 0x15
  | .eget _ => 0x16
  | .estat _ => 0x17
  | .setl _ _ _ _ => 0x20
  | .rel _ _ => 0x21
  | .start _ _ => 0x22
  | .stop _ _ => 0x23
  | .txbit _ _ _ => 0x24
  | .txbyte _ _ _ => 0x25
  | .rxbit _ _ => 0x26
  | .rxbyte _ _ _ => 0x27
  | .mack _ _ => 0x28
  | .mnack _ _ => 0x29
  | .qset _ => 0x30
  | .qsmp _ _ => 0x31

/-- The format group of an operation (spec/30_encoding.md R101). -/
def Instr.format : Instr → Format
  | .bnew _ _ _ _ => .b
  | .bcfg _ => .b
  | .bwr _ _ _ _ => .b
  | .brd _ _ _ => .b
  | .bctl _ => .b
  | .enew _ _ _ => .e
  | .ewin _ _ _ _ _ _ => .e
  | .ecb _ _ _ => .e
  | .ecfg _ => .e
  | .earm _ => .e
  | .etick _ _ => .e
  | .eget _ => .e
  | .estat _ => .e
  | .setl _ _ _ _ => .u
  | .rel _ _ => .u
  | .start _ _ => .u
  | .stop _ _ => .u
  | .txbit _ _ _ => .u
  | .txbyte _ _ _ => .u
  | .rxbit _ _ => .u
  | .rxbyte _ _ _ => .u
  | .mack _ _ => .u
  | .mnack _ _ => .u
  | .qset _ => .q
  | .qsmp _ _ => .q

/-! ### The encoder -/

/-- A natural number in 7-bit groups; the first argument bounds the number of groups. -/
def putNatGroups : Nat → Nat → Bytes
  | 0, _ => [0]
  | fuel + 1, n =>
    if n < 128 then [BitVec.ofNat 8 n] else BitVec.ofNat 8 (128 + n % 128) :: putNatGroups fuel (n / 128)

def putNat (n : Nat) : Bytes := putNatGroups (n + 1) n

/-- An integer folded into a natural: 0, -1, 1, -2, ... become 0, 1, 2, 3, ... -/
def foldInt : Int → Nat
  | .ofNat n => 2 * n
  | .negSucc n => 2 * n + 1

def unfoldInt (n : Nat) : Int :=
  if n % 2 = 0 then .ofNat (n / 2) else .negSucc (n / 2)

def putInt (z : Int) : Bytes := putNat (foldInt z)

def putBit (b : Bit) : Bytes := [if b then 1 else 0]

def putWireLine : WireLine → Bytes
  | .scl => [0]
  | .sda => [1]

def putLineId (l : LineId) : Bytes := putNat l.ctrl ++ putNat l.pin

def putBusRef : BusRef → Bytes
  | .software i => 0 :: putNat i
  | .hardware h => 1 :: putNat h

/-- The binary64 pattern of a datum: sign, 11 exponent bits, 52 fraction bits. -/
def F64.toBits : F64 → BitVec 64
  | .nan => 0x7FF8000000000000
  | .inf neg => BitVec.ofBool neg ++ (0x7FF : BitVec 11) ++ (0 : BitVec 52)
  | .fin neg e f => BitVec.ofBool neg ++ BitVec.ofNat 11 e.val ++ f

/-- The datum of a binary64 pattern; every pattern of a not-a-number is `nan`. -/
def F64.ofBits (w : BitVec 64) : F64 :=
  let neg := w.getLsbD 63
  let f := w.extractLsb' 0 52
  let e := (w.extractLsb' 52 11).toNat
  if h : e < 2047 then .fin neg ⟨e, h⟩ f else if f = 0 then .inf neg else .nan

def putF64 (x : F64) : Bytes :=
  let w := x.toBits
  [w.extractLsb' 0 8, w.extractLsb' 8 8, w.extractLsb' 16 8, w.extractLsb' 24 8,
   w.extractLsb' 32 8, w.extractLsb' 40 8, w.extractLsb' 48 8, w.extractLsb' 56 8]

/-- The elements of a list of naturals. -/
def putNatSeq : List Nat → Bytes
  | [] => []
  | n :: ns => putNat n ++ putNatSeq ns

def putNats (ns : List Nat) : Bytes := putNat ns.length ++ putNatSeq ns

/-- The operands of an operation, in the order of spec/30_encoding.md R101. -/
def putOperands : Instr → Bytes
  | .bnew i a scl sda => putNat i ++ putNat a ++ putLineId scl ++ putLineId sda
  | .bcfg i => putNat i
  | .bwr i ab p h => putNat i ++ putNat ab ++ putNats p ++ putNat h
  | .brd i n h => putNat i ++ putNat n ++ putNat h
  | .bctl i => putNat i
  | .enew e b g => putNat e ++ putBusRef b ++ putInt g
  | .ewin e t n lo hi k => putNat e ++ putF64 t ++ putInt n ++ putF64 lo ++ putF64 hi ++ putInt k
  | .ecb e t f => putNat e ++ putF64 t ++ putNat f
  | .ecfg e => putNat e
  | .earm e => putNat e
  | .etick e now => putNat e ++ putF64 now
  | .eget e => putNat e
  | .estat e => putNat e
  | .setl i l v h => putNat i ++ putWireLine l ++ putBit v ++ putNat h
  | .rel i h => putNat i ++ putNat h
  | .start i h => putNat i ++ putNat h
  | .stop i h => putNat i ++ putNat h
  | .txbit i b h => putNat i ++ putBit b ++ putNat h
  | .txbyte i x h => putNat i ++ (x :: putNat h)
  | .rxbit i h => putNat i ++ putNat h
  | .rxbyte i l h => putNat i ++ putBit l ++ putNat h
  | .mack i h => putNat i ++ putNat h
  | .mnack i h => putNat i ++ putNat h
  | .qset c => putLineId c
  | .qsmp c s => putLineId c ++ putBit s

/-- The command of an operation. -/
def encode (i : Instr) : Bytes := i.opcode :: putOperands i

/-! ### The decoder -/

/-- What reading one typed value from the front of a byte string answers: the value and the rest. -/
abbrev Read (α : Type) := Except DecodeError (α × Bytes)

/-- Read a value, then go on with it and the rest. -/
def Read.andThen {α β : Type} (r : Read α) (k : α → Bytes → Read β) : Read β :=
  match r with
  | .ok (a, t) => k a t
  | .error e => .error e

/-- A natural number; a string with a superfluous zero group at its end is rejected. -/
def getNat : Bytes → Read Nat
  | [] => .error .truncated
  | b :: t =>
    if b.toNat < 128 then .ok (b.toNat, t)
    else
      match getNat t with
      | .ok (n, r) => if n = 0 then .error .badOperand else .ok (b.toNat - 128 + 128 * n, r)
      | .error e => .error e

def getInt (bs : Bytes) : Read Int :=
  (getNat bs).andThen fun n t => .ok (unfoldInt n, t)

def getByte : Bytes → Read Byte
  | [] => .error .truncated
  | b :: t => .ok (b, t)

def getBit (bs : Bytes) : Read Bit :=
  (getByte bs).andThen fun b t =>
    if b = 0 then .ok (false, t) else if b = 1 then .ok (true, t) else .error .badOperand

def getWireLine (bs : Bytes) : Read WireLine :=
  (getByte bs).andThen fun b t =>
    if b = 0 then .ok (.scl, t) else if b = 1 then .ok (.sda, t) else .error .badOperand

def getLineId (bs : Bytes) : Read LineId :=
  (getNat bs).andThen fun c t => (getNat t).andThen fun p t => .ok (⟨c, p⟩, t)

def getBusRef (bs : Bytes) : Read BusRef :=
  (getByte bs).andThen fun b t => (getNat t).andThen fun n t =>
    if b = 0 then .ok (.software n, t) else if b = 1 then .ok (.hardware n, t) else .error .badOperand

def getF64 : Bytes → Read F64
  | b0 :: b1 :: b2 :: b3 :: b4 :: b5 :: b6 :: b7 :: t =>
      .ok (F64.ofBits (b7 ++ b6 ++ b5 ++ b4 ++ b3 ++ b2 ++ b1 ++ b0), t)
  | _ => .error .truncated

/-- That many naturals. -/
def getNatSeq : Nat → Bytes → Read (List Nat)
  | 0, bs => .ok ([], bs)
  | k + 1, bs => (getNat bs).andThen fun n t => (getNatSeq k t).andThen fun ns t => .ok (n :: ns, t)

def getNats (bs : Bytes) : Read (List Nat) :=
  (getNat bs).andThen fun k t => getNatSeq k t

/-- An operation that has an instance name and a hint. -/
def getNameHint (mk : Nat → Hint → Instr) (t : Bytes) : Read Instr :=
  (getNat t).andThen fun i t => (getNat t).andThen fun h t => .ok (mk i h, t)

/-- An operation that has a name alone. -/
def getName (mk : Nat → Instr) (t : Bytes) : Read Instr :=
  (getNat t).andThen fun i t => .ok (mk i, t)

/-- The operands that belong to an opcode byte (spec/30_encoding.md R101); any other opcode is reserved (R102). -/
def getOperands (op : Byte) (t : Bytes) : Read Instr :=
  match op.toNat with
  | 0x01 => (getNat t).andThen fun i t => (getNat t).andThen fun a t => (getLineId t).andThen fun scl t =>
      (getLineId t).andThen fun sda t => .ok (.bnew i a scl sda, t)
  | 0x02 => getName .bcfg t
  | 0x03 => (getNat t).andThen fun i t => (getNat t).andThen fun ab t => (getNats t).andThen fun p t =>
      (getNat t).andThen fun h t => .ok (.bwr i ab p h, t)
  | 0x04 => (getNat t).andThen fun i t => (getNat t).andThen fun n t => (getNat t).andThen fun h t => .ok (.brd i n h, t)
  | 0x05 => getName .bctl t
  | 0x10 => (getNat t).andThen fun e t => (getBusRef t).andThen fun b t => (getInt t).andThen fun g t =>
      .ok (.enew e b g, t)
  | 0x11 => (getNat t).andThen fun e t => (getF64 t).andThen fun x t => (getInt t).andThen fun n t =>
      (getF64 t).andThen fun lo t => (getF64 t).andThen fun hi t => (getInt t).andThen fun k t =>
      .ok (.ewin e x n lo hi k, t)
  | 0x12 => (getNat t).andThen fun e t => (getF64 t).andThen fun x t => (getNat t).andThen fun f t =>
      .ok (.ecb e x f, t)
  | 0x13 => getName .ecfg t
  | 0x14 => getName .earm t
  | 0x15 => (getNat t).andThen fun e t => (getF64 t).andThen fun now t => .ok (.etick e now, t)
  | 0x16 => getName .eget t
  | 0x17 => getName .estat t
  | 0x20 => (getNat t).andThen fun i t => (getWireLine t).andThen fun l t => (getBit t).andThen fun v t =>
      (getNat t).andThen fun h t => .ok (.setl i l v h, t)
  | 0x21 => getNameHint .rel t
  | 0x22 => getNameHint .start t
  | 0x23 => getNameHint .stop t
  | 0x24 => (getNat t).andThen fun i t => (getBit t).andThen fun b t => (getNat t).andThen fun h t =>
      .ok (.txbit i b h, t)
  | 0x25 => (getNat t).andThen fun i t => (getByte t).andThen fun x t => (getNat t).andThen fun h t =>
      .ok (.txbyte i x h, t)
  | 0x26 => getNameHint .rxbit t
  | 0x27 => (getNat t).andThen fun i t => (getBit t).andThen fun l t => (getNat t).andThen fun h t =>
      .ok (.rxbyte i l h, t)
  | 0x28 => getNameHint .mack t
  | 0x29 => getNameHint .mnack t
  | 0x30 => (getLineId t).andThen fun c t => .ok (.qset c, t)
  | 0x31 => (getLineId t).andThen fun c t => (getBit t).andThen fun s t => .ok (.qsmp c s, t)
  | _ => .error .reservedOpcode

/-- Read one operation from the front of a byte string. -/
def decode : Bytes → Read Instr
  | [] => .error .truncated
  | op :: t => getOperands op t

/-! ### Words of the opcode table -/

/-- The first `k` bytes of a word, least significant byte first: bit 0 of the table is bit 0 of the first byte. -/
def bytesOfWord : Nat → Nat → Bytes
  | 0, _ => []
  | k + 1, w => BitVec.ofNat 8 w :: bytesOfWord k (w / 256)

/-- The bytes of a table word, with every operand byte after them zero. The longest operation whose operand bytes are
all zero, EWIN, has 28 bytes. -/
def tableBytes (nbits w : Nat) : Bytes := bytesOfWord (nbits / 8) w ++ List.replicate 32 0

/-- The operation the decoder reads from a word of the opcode table, its operand bytes zero. -/
def decodeTableWord (nbits w : Nat) : Option Instr :=
  match decode (tableBytes nbits w) with
  | .ok (i, _) => some i
  | .error _ => none

/-- Exactly the bytes `decode` consumes of a table word; all of them where it rejects. -/
def tableCommand (nbits w : Nat) : Bytes :=
  match decode (tableBytes nbits w) with
  | .ok (_, rest) => (tableBytes nbits w).take ((tableBytes nbits w).length - rest.length)
  | .error _ => tableBytes nbits w

end Sys2Proof
end

