-- ==== Sys2Proof/Machine/Fetch.lean ====
section
/-! DEFINITION. How an operation reaches the machine: the commands waiting at the port (log 2). The block has no program
counter and no fetch of its own (spec/10_state.md R33). -/

namespace Sys2Proof.Machine

/-- The format group of an opcode byte: its upper half (spec/30_encoding.md R100). -/
def groupOf (op : Byte) : Option Format :=
  match op.toNat / 16 with
  | 0 => some .b
  | 1 => some .e
  | 2 => some .u
  | 3 => some .q
  | _ => none

/-- Which agent may send which format (spec/30_encoding.md R100, R102; the agent column of spec/opcode_table.json).
log 3. -/
def permits (a : Agent) (f : Format) : Bool :=
  match a, f with
  | .host, .b => true
  | .host, .e => true
  | .event, .e => true
  | .internal, .u => true
  | .executor, .q => true
  | _, _ => false

/-- Whether an agent may send a command with this opcode byte. -/
def mayOpen (a : Agent) (op : Byte) : Bool :=
  match groupOf op with
  | none => false
  | some f => permits a f

/-- The port after a command of the first message has been taken: the rest of that message, unless it is used up. -/
def portAfter (a : Agent) (rest : List Byte) (ms : List Message) : List Message :=
  if rest.isEmpty then ms else { agent := a, bytes := rest } :: ms

/-- Take the first command of a message: an opcode byte its agent may not send is refused before anything else. -/
def takeCommand (m : Message) (ms : List Message) (s : State) : Except Refusal (Option (Instr × State)) :=
  match m.bytes with
  | [] => .error .badOperand
  | op :: _ =>
    if mayOpen m.agent op then
      match decode m.bytes with
      | .ok (i, rest) => .ok (some (i, { s with env := { s.env with port := portAfter m.agent rest ms } }))
      | .error .reservedOpcode => .error .reservedOpcode
      | .error .truncated => .error .badOperand
      | .error .badOperand => .error .badOperand
    else .error .reservedOpcode

/-- The command the machine takes next, and the state once it is off the port; nothing when none is waiting, or when a
tick is inside its retry loop and the waiting command is not the executor's (spec/70_reset_and_hazards.md R283: "no other tick,
query or callback runs"). -/
def fetch (s : State) : Except Refusal (Option (Instr × State)) :=
  match s.env.port with
  | [] => .ok none
  | m :: ms => if s.busy.isSome && m.agent != .executor then .ok none else takeCommand m ms s

/-- The agent that sends a command of the opcode table: its group decides. -/
def agentOfOpcode (op : Byte) : Agent :=
  match groupOf op with
  | some .u => .internal
  | some .q => .executor
  | some .b => .host
  | some .e => .host
  | none => .host

/-- The message of a command of the opcode table. -/
def tableMessage (nbits w : Nat) : Message :=
  { agent := agentOfOpcode (BitVec.ofNat 8 w), bytes := tableCommand nbits w }

end Sys2Proof.Machine
end

