-- ==== Sys2Proof/Machine/Step.lean ====
section
/-! DEFINITION. One step of the machine: the waiting command, or the next attempt of a tick inside its retry loop, or
nothing when nothing is waiting (spec/60_exceptions.md R252). -/

namespace Sys2Proof.Machine

/-- One step. After a ConfigurationError nothing runs (spec/60_exceptions.md R239, log 6). -/
def step (s : State) : Host.Outcome State Fault Refusal :=
  match s.aborted with
  | some _ => .fault .processAborted
  | none =>
    match fetch s with
    | .error r => .refused r
    | .ok (some (i, t)) => exec i t
    | .ok none =>
      match s.busy with
      | some k => resumeTick k s
      | none => .next s

/-- The state with one command of the opcode table put first at the port, sent by the agent that may send it. -/
def State.withFetchWord (s : State) (nbits w : Nat) : State :=
  { s with env := { s.env with port := tableMessage nbits w :: s.env.port } }

end Sys2Proof.Machine
end

