-- ==== Sys2Proof/Machine/Wave.lean ====
section
/-! DEFINITION. Traces and waveforms, the vocabulary claims about framing are stated in: the byte cells and frames of
spec/30_encoding.md R96 to R98 as lists of entries, and the wire conditions of spec/40_bus_primitives.md R132 over an executed
trace. Nothing here is called by an operation. -/

namespace Sys2Proof.Machine

/-! ### Cells and frames (spec/30_encoding.md R96 to R98) -/

/-- `C1 C0`. -/
def pulseEntries (h : Hint) : List Entry := [.scl true h, .scl false h]

/-- The transmitted bits of a cell: an optional data entry, present exactly when the bit differs from the level before it,
then `C1 C0`. -/
def bitEntries (i : Nat) (h : Hint) : Bit → List Bit → List Entry
  | _, [] => []
  | lvl, b :: bs => (if b = lvl then [] else [.sda i b h]) ++ pulseEntries h ++ bitEntries i h b bs

/-- A transmit cell entered at data level `lvl`. -/
def cellEntries (i : Nat) (h : Hint) (lvl : Bit) (x : Byte) : List Entry :=
  bitEntries i h lvl (bitsOfByte x) ++ pulseEntries h

/-- Consecutive transmit cells: each is entered at bit 0 of the byte before it. -/
def cellsEntries (i : Nat) (h : Hint) : Bit → List Byte → List Entry
  | _, [] => []
  | lvl, x :: xs => cellEntries i h lvl x ++ cellsEntries i h (x.getLsbD 0) xs

/-- `D0 C0`. -/
def startEntries (i : Nat) (h : Hint) : List Entry := [.sda i false h, .scl false h]

/-- `C1 D1`, or `D0 C1 D1` with STOP_PRELOW. -/
def stopEntries (prelow : Bool) (i : Nat) (h : Hint) : List Entry :=
  (if prelow then [.sda i false h] else []) ++ [.scl true h, .sda i true h]

/-- The write frame of an address byte and a payload (R96). -/
def writeEntries (prelow : Bool) (i : Nat) (h : Hint) (ab : Byte) (payload : List Byte) : List Entry :=
  startEntries i h ++ cellsEntries i h false (ab :: payload) ++ stopEntries prelow i h

/-- The sampled bits of a receive cell, `C1 S C0` each. -/
def sampleEntries (i : Nat) (h : Hint) : Nat → List Entry
  | 0 => []
  | k + 1 => [.scl true h, .smp i h, .scl false h] ++ sampleEntries i h k

/-- A receive cell: eight samples, then `C1 C0` for the last byte and `D0 C1 C0 D1` for any other (R98). -/
def rxCellEntries (i : Nat) (h : Hint) (last : Bool) : List Entry :=
  sampleEntries i h 8 ++
    (if last then pulseEntries h else [.sda i false h] ++ pulseEntries h ++ [.sda i true h])

/-- The `n` receive cells of a read. -/
def rxCellsEntries (i : Nat) (h : Hint) : Nat → List Entry
  | 0 => []
  | k + 1 => rxCellEntries i h (k == 0) ++ rxCellsEntries i h k

/-- The read frame of `n` bytes with address byte `ab` (R97). -/
def readEntries (p : Params) (i : Nat) (h : Hint) (ab : Byte) (n : Nat) : List Entry :=
  [.sda i true h] ++ startEntries i h ++ cellEntries i h false ab
    ++ (if p.rdAddrStop then stopEntries p.stopPrelow i h else [])
    ++ rxCellsEntries i h n ++ [.sda i true h] ++ stopEntries p.stopPrelow i h

/-- `d(byte, l)` of spec/41_bus_operations.md R155: the positions where a bit differs from its predecessor. -/
def changes : Bit → List Bit → Nat
  | _, [] => 0
  | lvl, b :: bs => (if b = lvl then 0 else 1) + changes b bs

/-- The sum of `d` over consecutive bytes. -/
def changesOver : Bit → List Byte → Nat
  | _, [] => 0
  | lvl, x :: xs => changes lvl (bitsOfByte x) + changesOver (x.getLsbD 0) xs

/-! ### Wire conditions (spec/40_bus_primitives.md R132) -/

/-- The levels of the clock entries of a trace, in order. -/
def clockLevels : List Entry → List Bit
  | [] => []
  | .scl v _ :: es => v :: clockLevels es
  | .sda _ _ _ :: es => clockLevels es
  | .smp _ _ :: es => clockLevels es

/-- Level 1 followed by level 0, counted. -/
def fallCount : List Bit → Nat
  | [] => 0
  | [_] => 0
  | a :: b :: r => (if a && !b then 1 else 0) + fallCount (b :: r)

/-- R132 (c): the clock pulses of a trace, a `C1` followed, as the next clock entry, by a `C0`. -/
def clockPulses (es : List Entry) : Nat := fallCount (clockLevels es)

def sampleCount : List Entry → Nat
  | [] => 0
  | .scl _ _ :: es => sampleCount es
  | .sda _ _ _ :: es => sampleCount es
  | .smp _ _ :: es => 1 + sampleCount es

def dataCount : List Entry → Nat
  | [] => 0
  | .scl _ _ :: es => dataCount es
  | .sda _ _ _ :: es => 1 + dataCount es
  | .smp _ _ :: es => dataCount es

/-- R132 (a): how often a `D0` of bus `i` executes while the clock wire is at 1 and the data wire of `i` was at 1, starting
from the given master levels. The data wire is `W_SDA[i] & s` (spec/10_state.md R29); `slave p` is the slave's contribution
`s` when entry `p` of the trace is about to execute. -/
def startsSeen (i : Nat) : (Nat → Bit) → Bit → Bit → List Entry → Nat
  | _, _, _, [] => 0
  | slave, _, sda, .scl v _ :: es => startsSeen i (fun p => slave (p + 1)) v sda es
  | slave, scl, sda, .sda j v _ :: es =>
    if j = i then
      (if scl && (sda && slave 0) && !v then 1 else 0) + startsSeen i (fun p => slave (p + 1)) scl v es
    else startsSeen i (fun p => slave (p + 1)) scl sda es
  | slave, scl, sda, .smp _ _ :: es => startsSeen i (fun p => slave (p + 1)) scl sda es

/-- R132 (b): how often a `D1` of bus `i` executes while the clock wire is at 1 and `W_SDA[i]`, the master's level, is 0,
starting from the given master levels. -/
def stopsSeen (i : Nat) : Bit → Bit → List Entry → Nat
  | _, _, [] => 0
  | _, sda, .scl v _ :: es => stopsSeen i v sda es
  | scl, sda, .sda j v _ :: es =>
    if j = i then (if scl && !sda && v then 1 else 0) + stopsSeen i scl v es else stopsSeen i scl sda es
  | scl, sda, .smp _ _ :: es => stopsSeen i scl sda es

/-! ### Wire levels (spec/10_state.md R29) -/

/-- The level of the clock wire after these entries have executed, from level `lvl`. -/
def lastScl : Bit → List Entry → Bit
  | lvl, [] => lvl
  | _, .scl v _ :: es => lastScl v es
  | lvl, .sda _ _ _ :: es => lastScl lvl es
  | lvl, .smp _ _ :: es => lastScl lvl es

/-- The level of the data wire of bus `i` after these entries have executed, from level `lvl`. -/
def lastSda (i : Nat) : Bit → List Entry → Bit
  | lvl, [] => lvl
  | lvl, .scl _ _ :: es => lastSda i lvl es
  | lvl, .sda j v _ :: es => lastSda i (if j = i then v else lvl) es
  | lvl, .smp _ _ :: es => lastSda i lvl es

/-- How many data entries of a trace execute while the clock wire is at 1, starting from that level
(spec/40_bus_primitives.md R132 (d)). -/
def dataWhileHigh : Bit → List Entry → Nat
  | _, [] => 0
  | _, .scl v _ :: es => dataWhileHigh v es
  | scl, .sda _ _ _ :: es => (if scl then 1 else 0) + dataWhileHigh scl es
  | scl, .smp _ _ :: es => dataWhileHigh scl es

end Sys2Proof.Machine
end

