-- ==== Sys2Proof/Safety.lean ====
section
/-! DEFINITION. The terms claims are stated in: the invariants of spec/10_state.md R56 and the rules around it, a refused
run and a safe run, and what emission leaves behind. -/

namespace Sys2Proof.Machine

/-! ### Runs -/

/-- `k` steps from `s`, ended by the first refusal or fault. -/
def steps : Nat → State → Host.Outcome State Fault Refusal
  | 0, s => .next s
  | k + 1, s =>
    match step s with
    | .next t => steps k t
    | .fault r => .fault r
    | .refused r => .refused r

/-- A safe run: `k` steps from `s`, none refused and none a fault (spec/60_exceptions.md R256 marks a refused run for
good). -/
def SafeRun (k : Nat) (s : State) : Prop := ∃ t, steps k s = .next t

/-! ### Invariants -/

/-- Every map of the state is in canonical form. -/
def MapsOk (s : State) : Prop :=
  mwf LineId.lt s.lines = true ∧ mwf natLt s.buses = true ∧ mwf natLt s.engines = true ∧
  (∀ c l, mget c s.lines = some l → mwf natLt l.rx = true) ∧
  mwf LineId.lt s.env.slave = true ∧ mwf natLt s.env.hw = true ∧
  mwf natLt s.env.swLast = true ∧ mwf natLt s.env.hwLast = true

/-- A queue and what its executor has done (spec/10_state.md R28, R31): the head lies in the queue, and RX holds a bit for
exactly the samples executed. -/
def QueueOk (l : ClockLine) : Prop :=
  l.qhead ≤ l.tq.length ∧
  ∀ p, (mget p l.rx).isSome = true ↔ p < l.qhead ∧ ∃ i h, l.tq[p]? = some (.smp i h)

/-- A data entry waits on the clock line of the bus it names (spec/10_state.md R27; spec/41_bus_operations.md R156: "data
entries name their own instance"). -/
def EntriesOk (s : State) : Prop :=
  ∀ c l, mget c s.lines = some l → ∀ j v h, .sda j v h ∈ l.tq → ∃ b, mget j s.buses = some b ∧ b.scl = c

/-- Every queue is in order, and so are its entries. -/
def QueuesOk (s : State) : Prop := (∀ c l, mget c s.lines = some l → QueueOk l) ∧ EntriesOk s

/-- Ownership and controllers (spec/10_state.md R22, R24, R56 (e)), and the exclusive data line (spec/20_memory.md R71,
spec/70_reset_and_hazards.md R286). -/
def BusesOk (s : State) : Prop :=
  (∀ i b, mget i s.buses = some b →
    b.ctrl = b.scl.ctrl ∧ b.sda.ctrl = b.scl.ctrl ∧ ∃ l, mget b.scl s.lines = some l ∧ b.owner = l.owner) ∧
  (∀ c l, mget c s.lines = some l →
    ∃ o, mget l.owner s.buses = some o ∧ o.scl = c ∧ o.busCfg = l.clkCfg) ∧
  (∀ i j a b, mget i s.buses = some a → mget j s.buses = some b → i ≠ j → a.sda ≠ b.sda ∧ a.sda ≠ b.scl)

/-- The registers of one engine (spec/10_state.md R41 to R51, R56 (a), (b), (c)). -/
def EngineOk (rc : RateCodes) (g : Engine) : Prop :=
  g.gainCode = gainCodeOf g.gain ∧
  (g.st = .idle ↔ g.rate = none) ∧
  (∀ r, g.rate = some r → r.code = rateCodeOf rc r.rate ∧ r.norm = normOf r.rate ∧
    ∃ w, g.win = some w ∧ w.sampleTime = periodOf r.rate) ∧
  (∀ w, g.win = some w → g.samplesTaken < w.sampleCount) ∧
  (g.st = .idle → g.samplesTaken = 0) ∧
  ((g.st = .armed ∨ g.st = .sampling) ↔ g.timer.isSome = true) ∧
  g.nextDeadline.isSome = g.timer.isSome ∧
  (∀ x, g.cfgReg = some x → ∃ r, g.rate = some r ∧ x = cfgByte rc r.rate g.gain) ∧
  g.cfgReg.isSome = g.timer.isSome

/-- Every engine's registers, and a tick inside its retry loop is that of a sampling engine. -/
def EnginesOk (s : State) : Prop :=
  (∀ e g, mget e s.engines = some g → EngineOk s.params.rateCode g) ∧
  (∀ k, s.busy = some k → ∃ g, mget k.engine s.engines = some g ∧ g.st = .sampling)

/-- The idle invariant (spec/40_bus_primitives.md R133): the data line of every configured bus, and every configured clock
line, is at emission level 1. -/
def IdleOk (s : State) : Prop :=
  (∀ i b, mget i s.buses = some b → b.busCfg = true → b.sdaLvl = true) ∧
  (∀ c l, mget c s.lines = some l → l.clkCfg = true → l.sclLvl = true)

/-- Wires and queues agree (spec/10_state.md R27, R29): before its configuration a clock line has an empty queue, a data
entry names a configured bus of its clock line, and when the pending entries have executed every wire is at the level
last emitted. -/
def LevelsOk (s : State) : Prop :=
  (∀ c l, mget c s.lines = some l → (l.clkCfg = false → l.tq = []) ∧
    (l.clkCfg = true → lastScl l.wScl (l.tq.drop l.qhead) = l.sclLvl) ∧
    ∀ j v h, .sda j v h ∈ l.tq → ∃ b, mget j s.buses = some b ∧ b.scl = c ∧ b.busCfg = true) ∧
  (∀ i b l, mget i s.buses = some b → mget b.scl s.lines = some l → b.busCfg = true →
    lastSda i b.wSda (l.tq.drop l.qhead) = b.sdaLvl)

/-- What the executor's past and the block's logs never lose: each clock line is still there with its owner, its trace only
grows, its head only advances, the bits it has received stay, and every log only grows (spec/10_state.md R23, R27, R32, R52;
spec/20_memory.md R70). -/
def HistoryKept (s t : State) : Prop :=
  (∀ c l, mget c s.lines = some l → ∃ l', mget c t.lines = some l' ∧ l'.owner = l.owner ∧ l.tq <+: l'.tq ∧
    l.qhead ≤ l'.qhead ∧ ∀ p b, p < l.qhead → mget p l.rx = some b → mget p l'.rx = some b) ∧
  s.shutLog <+: t.shutLog ∧ s.cbLog <+: t.cbLog ∧ s.hwLog <+: t.hwLog ∧ s.diag <+: t.diag

/-- What is fixed once written: the parameters, and of a bus its address, lines, controller and owner; of an engine its bus,
gain and gain code (spec/10_state.md R21, R22, R24, R42, R43; spec/00_scope.md R7). -/
def FixedKept (s t : State) : Prop :=
  t.params = s.params ∧
  (∀ i b, mget i s.buses = some b → ∃ b', mget i t.buses = some b' ∧ b'.addr7 = b.addr7 ∧ b'.scl = b.scl ∧
    b'.sda = b.sda ∧ b'.ctrl = b.ctrl ∧ b'.owner = b.owner ∧ (b.busCfg = true → b'.busCfg = true)) ∧
  (∀ e g, mget e s.engines = some g → ∃ g', mget e t.engines = some g' ∧ g'.bus = g.bus ∧ g'.gain = g.gain ∧
    g'.gainCode = g.gainCode)

/-! ### What emission leaves behind -/

/-- The state after bus `b` (name `i`) on clock line `l` has emitted `es`, ending at emission levels `scl` and `sda`, and
returned `r`: nothing else differs from `s`. -/
def afterEmit (i : Nat) (b : Bus) (l : ClockLine) (es : List Entry) (scl sda : Bit) (r : Result) (s : State) : State :=
  { s with
    lines := mset LineId.lt b.scl { l with tq := l.tq ++ es, sclLvl := scl } s.lines
    buses := mset natLt i { b with sdaLvl := sda } s.buses
    result := r }

/-- Nothing but the state of the clock lines and of the buses, the draws and the returned value differs. -/
def OnlyBuses (s t : State) : Prop :=
  t.params = s.params ∧ t.engines = s.engines ∧ t.shutLog = s.shutLog ∧ t.cbLog = s.cbLog ∧ t.hwLog = s.hwLog ∧
  t.diag = s.diag ∧ t.aborted = s.aborted ∧ t.busy = s.busy ∧ t.env.port = s.env.port ∧ t.env.hw = s.env.hw ∧
  t.env.hwLast = s.env.hwLast

/-- Of the clock lines, `c` alone differs, and its slave's levels. -/
def OnlyLine (c : LineId) (s t : State) : Prop :=
  OnlyBuses s t ∧ (∀ d, d ≠ c → mget d t.lines = mget d s.lines) ∧
  (∀ d, d ≠ c → mget d t.env.slave = mget d s.env.slave)

/-- The clock line after its executor has run the next `m` entries: the wire follows them, the head has moved by `m`, what was
received before stays. -/
def LineRan (m : Nat) (l l' : ClockLine) : Prop :=
  l.qhead + m ≤ l.tq.length ∧
  ∃ rx, l' = { l with wScl := lastScl l.wScl ((l.tq.drop l.qhead).take m), qhead := l.qhead + m, rx := rx } ∧
    ∀ p, p < l.qhead → mget p rx = mget p l.rx

/-- The entries of clock line `c` that ran between `s` and `t`: those of its trace between the two queue heads. -/
def executed (c : LineId) (s t : State) : List Entry :=
  match mget c s.lines, mget c t.lines with
  | some l, some l' => (l'.tq.drop l.qhead).take (l'.qhead - l.qhead)
  | some _, none => []
  | none, _ => []

/-- The levels the slave will give the next samples on clock line `c`. -/
def scriptOf (c : LineId) (s : State) : List Bit := (mget c s.env.slave).getD []

/-- The responses external bus `h` will give. -/
def responsesOf (h : Nat) (s : State) : List HwResponse := (mget h s.env.hw).getD []

/-- The last receive time of a software bus, or 0. -/
def swStamp (i : Nat) (s : State) : Timestamp := (mget i s.env.swLast).getD 0

/-- The last receive time of an external bus, or 0. -/
def hwStamp (h : Nat) (s : State) : Timestamp := (mget h s.env.hwLast).getD 0

/-- What a complete read of `n` bytes by bus `b` (name `i`) on clock line `l` leaves in `t`, besides the returned value:
the whole frame emitted, the queue drained, all four levels at 1, the time stamp taken. Every other clock line has run any
number of its pending entries meanwhile (spec/20_memory.md R72), and of every other bus at most the data wire differs, by the
entries that ran (spec/41_bus_operations.md R153, spec/20_memory.md R74). -/
def ReadDone (i n : Nat) (h : Hint) (b : Bus) (l : ClockLine) (rt : Timestamp) (s t : State) : Prop :=
  OnlyBuses s t ∧
  (∃ rx, mget b.scl t.lines = some { l with
      tq := l.tq ++ readEntries s.params i h (addrByte b.addr7 true) n
      qhead := (l.tq ++ readEntries s.params i h (addrByte b.addr7 true) n).length
      sclLvl := true
      wScl := true
      rx := rx } ∧ ∀ p, p < l.qhead → mget p rx = mget p l.rx) ∧
  mget i t.buses = some { b with sdaLvl := true, wSda := true } ∧
  (∀ d, d ≠ b.scl → (mget d s.lines = none → mget d t.lines = none) ∧
    ∀ k, mget d s.lines = some k → ∃ m k', mget d t.lines = some k' ∧ LineRan m k k') ∧
  (∀ j, j ≠ i → mget j t.buses = (mget j s.buses).map
    (fun x => { x with wSda := lastSda j x.wSda (executed x.scl s t) })) ∧
  executed b.scl s t = l.tq.drop l.qhead ++ readEntries s.params i h (addrByte b.addr7 true) n ∧
  scriptOf b.scl t = (scriptOf b.scl s).drop (sampleCount (l.tq.drop l.qhead) + 8 * n) ∧
  swStamp i s ≤ rt ∧ t.env.swLast = mset natLt i rt s.env.swLast

/-- The queue positions of the eight samples of a receive cell that begins at position `p`. -/
def samplePositions (p : Nat) : List Nat := [p + 1, p + 4, p + 7, p + 10, p + 13, p + 16, p + 19, p + 22]

/-! ### Who is touched -/

/-- The engine an operation names. -/
def engineOf : Instr → Option Nat
  | .enew e _ _ => some e
  | .ewin e _ _ _ _ _ => some e
  | .ecb e _ _ => some e
  | .ecfg e => some e
  | .earm e => some e
  | .etick e _ => some e
  | .eget e => some e
  | .estat e => some e
  | .bnew _ _ _ _ => none
  | .bcfg _ => none
  | .bwr _ _ _ _ => none
  | .brd _ _ _ => none
  | .bctl _ => none
  | .setl _ _ _ _ => none
  | .rel _ _ => none
  | .start _ _ => none
  | .stop _ _ => none
  | .txbit _ _ _ => none
  | .txbyte _ _ _ => none
  | .rxbit _ _ => none
  | .rxbyte _ _ _ => none
  | .mack _ _ => none
  | .mnack _ _ => none
  | .qset _ => none
  | .qsmp _ _ => none

/-- The software bus of an engine, if it holds one. -/
def softwareBusOf (e : Nat) (s : State) : Option Nat :=
  match mget e s.engines with
  | none => none
  | some g =>
    match g.bus with
    | .software i => some i
    | .hardware _ => none

/-- The bus whose operations an operation runs: the one it names, or the software bus of the engine that arms or ticks. -/
def busOf (s : State) : Instr → Option Nat
  | .bnew i _ _ _ => some i
  | .bcfg i => some i
  | .bwr i _ _ _ => some i
  | .brd i _ _ => some i
  | .bctl i => some i
  | .setl i _ _ _ => some i
  | .rel i _ => some i
  | .start i _ => some i
  | .stop i _ => some i
  | .txbit i _ _ => some i
  | .txbyte i _ _ => some i
  | .rxbit i _ => some i
  | .rxbyte i _ _ => some i
  | .mack i _ => some i
  | .mnack i _ => some i
  | .earm e => softwareBusOf e s
  | .etick e _ => softwareBusOf e s
  | .enew _ _ _ => none
  | .ewin _ _ _ _ _ _ => none
  | .ecb _ _ _ => none
  | .ecfg _ => none
  | .eget _ => none
  | .estat _ => none
  | .qset _ => none
  | .qsmp _ _ => none

/-- Whether an operation runs entries of a queue: a step of the executor, or one that waits for a read on a software bus
(spec/20_memory.md R73, R74). `bus` is the bus it runs on. -/
def runsEntries (bus : Option Nat) : Instr → Bool
  | .brd _ _ _ => true
  | .etick _ _ => bus.isSome
  | .qset _ => true
  | .qsmp _ _ => true
  | .bnew _ _ _ _ => false
  | .bcfg _ => false
  | .bwr _ _ _ _ => false
  | .bctl _ => false
  | .enew _ _ _ => false
  | .ewin _ _ _ _ _ _ => false
  | .ecb _ _ _ => false
  | .ecfg _ => false
  | .earm _ => false
  | .eget _ => false
  | .estat _ => false
  | .setl _ _ _ _ => false
  | .rel _ _ => false
  | .start _ _ => false
  | .stop _ _ => false
  | .txbit _ _ _ => false
  | .txbyte _ _ _ => false
  | .rxbit _ _ => false
  | .rxbyte _ _ _ => false
  | .mack _ _ => false
  | .mnack _ _ => false

/-- The operation a step is about to run: the command it takes, or the open tick it goes on with. -/
def running (s : State) : Option Instr :=
  match fetch s with
  | .ok (some (i, _)) => some i
  | .ok none => s.busy.map (fun k => .etick k.engine k.now)
  | .error _ => none

/-- Where operation `i` (or none) has run from `s` to `t`: every engine it does not name is as it was, every bus it does not
use has at most another data wire level, the one its own entries that ran give it, and none ran unless `i` runs entries
(spec/60_exceptions.md R244; spec/41_bus_operations.md R156). -/
def PrivateKept (i : Option Instr) (s t : State) : Prop :=
  (∀ e g, i.bind engineOf ≠ some e → mget e s.engines = some g → mget e t.engines = some g) ∧
  (∀ j b, i.bind (busOf s) ≠ some j → mget j s.buses = some b →
    mget j t.buses = some { b with wSda := lastSda j b.wSda (executed b.scl s t) }) ∧
  ((∀ x, i = some x → runsEntries (busOf s x) x = false) → ∀ c, executed c s t = [])

/-- Where operation `i` (or none) has run from `s` to `t`: the results of an engine are those of its own tick, its window and
rate past `Idle` and the registers of arming change by no other operation than EARM, its callback by none but ECB
(spec/10_state.md R46 to R49; spec/20_memory.md R76). -/
def ResultsKept (i : Option Instr) (s t : State) : Prop :=
  ∀ e g, mget e s.engines = some g → ∃ g', mget e t.engines = some g' ∧
    ((∀ now, i ≠ some (.etick e now)) → g'.partialSum = g.partialSum ∧ g'.samplesTaken = g.samplesTaken ∧
      g'.last = g.last ∧ g'.errCount = g.errCount ∧ g'.lastCb = g.lastCb) ∧
    (g.st ≠ .idle → g'.win = g.win ∧ g'.rate = g.rate) ∧
    (i ≠ some (.earm e) → g'.cfgReg = g.cfgReg ∧ g'.timer = g.timer) ∧
    ((∀ x f, i ≠ some (.ecb e x f)) → g'.cb = g.cb)

/-- No command at the port is a micro-operation: none is the bus's own (spec/30_encoding.md R100). -/
def HostOnly (s : State) : Prop := ∀ m, m ∈ s.env.port → m.agent ≠ .internal

/-! ### Cycles of an engine -/

/-- The calibrated value of a cycle that ends with this sample (spec/43_engine_tick.md R203, R205). -/
def cycleValue (raw : Int) (w : Window) (norm : Nat) (g : Engine) : F64 :=
  fdiv (fdiv (fadd g.partialSum (floatOfInt raw)) (floatOfInt w.sampleCount)) (floatOfInt norm)

/-- Whether this sample ends a cycle (spec/43_engine_tick.md R204). -/
def endsCycle (w : Window) (g : Engine) : Bool := decide (w.sampleCount ≤ g.samplesTaken + 1)

/-- Whether this sample makes the tick call the shutdown hook (spec/43_engine_tick.md R206). -/
def tickTrips (raw : Int) (w : Window) (norm : Nat) (g : Engine) : Bool :=
  endsCycle w g && (flt (cycleValue raw w norm g) w.minValue || flt w.maxValue (cycleValue raw w norm g)) &&
    decide (0 < w.rangeCheckCount ∧ w.rangeCheckCount ≤ g.errCount + 1)

/-- Whether this tick fires the callback (spec/43_engine_tick.md R207). -/
def tickFires (now : F64) (w : Window) (g : Engine) : Bool :=
  endsCycle w g && (match g.cb with
    | none => false
    | some k => fge now (fadd g.lastCb k.reportTime))

/-- The registers of engine `g` after a tick at `now` with this sample and receive time (spec/43_engine_tick.md R203 to
R208). -/
def afterTick (now : F64) (raw : Int) (rt : Timestamp) (w : Window) (norm : Nat) (g : Engine) : Engine :=
  let cal := cycleValue raw w norm g
  let out := flt cal w.minValue || flt w.maxValue cal
  if endsCycle w g then
    { g with
      st := .sampling
      partialSum := F64.zero
      samplesTaken := 0
      last := some { value := cal, ts := rt }
      errCount := if out then g.errCount + 1 else 0
      lastCb := if tickFires now w g then now else g.lastCb
      nextDeadline := some (fadd now w.sampleTime) }
  else
    { g with
      st := .sampling
      partialSum := fadd g.partialSum (floatOfInt raw)
      samplesTaken := g.samplesTaken + 1
      nextDeadline := some (fadd now w.sampleTime) }

/-- How often the hook is called over completed cycles with these values, from error count `n` (spec/43_engine_tick.md
R206, R212). -/
def tripCount (w : Window) : Nat → List F64 → Nat
  | _, [] => 0
  | n, x :: xs => (if trips w x n then 1 else 0) + tripCount w (errCountAfter w x n) xs

/-- The times at which the callback fires over completed cycles at these times (spec/43_engine_tick.md R207). -/
def firings : Engine → List F64 → List F64
  | _, [] => []
  | g, t :: ts => (if callbackDue g t then [t] else []) ++ firings (gateCallback t g) ts

/-! ### Rounding -/

/-- The distance from `num / den` to a magnitude `M`, times `den`. -/
def gap (num den M : Nat) : Nat := (num - den * M) + (den * M - num)

/-! ### Encodings -/

/-- The float operands of an operation. -/
def floatsOf : Instr → List F64
  | .ewin _ t _ lo hi _ => [t, lo, hi]
  | .ecb _ t _ => [t]
  | .etick _ t => [t]
  | .bnew _ _ _ _ => []
  | .bcfg _ => []
  | .bwr _ _ _ _ => []
  | .brd _ _ _ => []
  | .bctl _ => []
  | .enew _ _ _ => []
  | .ecfg _ => []
  | .earm _ => []
  | .eget _ => []
  | .estat _ => []
  | .setl _ _ _ _ => []
  | .rel _ _ => []
  | .start _ _ => []
  | .stop _ _ => []
  | .txbit _ _ _ => []
  | .txbyte _ _ _ => []
  | .rxbit _ _ => []
  | .rxbyte _ _ _ => []
  | .mack _ _ => []
  | .mnack _ _ => []
  | .qset _ => []
  | .qsmp _ _ => []

end Sys2Proof.Machine
end

