-- ==== Sys2Proof/Certificates/Slice0/Obligations.lean ====
section
/-! DEFINITION. The statements for the provers, one `def Obligations.<Name> : Prop` each. -/

open Sys2Proof Sys2Proof.Machine

/-! ### Reset, decoding, and the step -/

/-- After process start the registry, the records and the logs are empty (spec/10_state.md R55; spec/70_reset_and_hazards.md
R270), the parameters STOP_PRELOW, RD_ADDR_STOP and LAST_CB_INIT have the spec's defaults (spec/00_scope.md R7), and this state
meets every invariant. That the parameters stand in the state, with those defaults at reset, is the model's choice (log 15, log
23), and so are the records that no error is pending (log 6) and no tick is open (log 5), and that no message at the port is the
bus's own (log 2). -/
def Obligations.ResetIsEmptyAndMeetsEveryInvariant : Prop :=
  State.reset.lines = [] ∧ State.reset.buses = [] ∧ State.reset.engines = [] ∧
  State.reset.shutLog = [] ∧ State.reset.cbLog = [] ∧ State.reset.hwLog = [] ∧ State.reset.diag = [] ∧
  State.reset.params.stopPrelow = false ∧ State.reset.params.rdAddrStop = false ∧
  State.reset.params.lastCbInit = F64.zero ∧ State.reset.aborted = none ∧ State.reset.busy = none ∧
  MapsOk State.reset ∧ QueuesOk State.reset ∧ BusesOk State.reset ∧ LevelsOk State.reset ∧ IdleOk State.reset ∧
  EnginesOk State.reset ∧ HostOnly State.reset

/-- A step takes the waiting command off the port and runs it, where its agent may send its format (spec/30_encoding.md
R100; the port and its agents are the model's, logs 2 and 3). With an open tick (log 5) it says so of an executor's command
only. -/
def Obligations.StepRunsTheWaitingCommand : Prop :=
  ∀ (s : State) (m : Message) (ms : List Message) (i : Instr) (rest : Bytes),
    s.aborted = none → s.env.port = m :: ms → (s.busy = none ∨ m.agent = .executor) →
    decode m.bytes = .ok (i, rest) → permits m.agent i.format = true →
    step s = exec i { s with env := { s.env with port := portAfter m.agent rest ms } }

/-- R102: a reserved opcode is refused, and so is a format-U or format-Q opcode from the host. -/
def Obligations.ReservedOpcodesAreRefused : Prop :=
  ∀ (s : State) (m : Message) (ms : List Message) (op : Byte) (operands : Bytes),
    s.aborted = none → s.busy = none → s.env.port = m :: ms → m.bytes = op :: operands →
    ((∀ i : Instr, i.opcode ≠ op) ∨
      (m.agent = .host ∧ ∃ i : Instr, i.opcode = op ∧ (i.format = .u ∨ i.format = .q))) →
    step s = .refused .reservedOpcode

/-- While a tick retries nothing but the executor runs beside it, and a transport that answers short for `n` attempts keeps it
there with no engine register, bus or error count changed: a hang, not a fault (R201, R283). That one attempt is one step, so
`n` attempts are `n` steps, is the model's choice (log 5), and so is the DIAG record of each attempt (log 21). -/
def Obligations.ShortResponsesKeepTheTickRetrying : Prop :=
  (∀ (s : State) (k : Tick) (m : Message) (ms : List Message),
    s.aborted = none → s.busy = some k → s.env.port = m :: ms → m.agent ≠ .executor → step s = resumeTick k s) ∧
  (∀ (n : Nat) (s : State) (k : Tick) (g : Engine) (h : Nat),
    s.aborted = none → s.busy = some k → s.env.port = [] → mget k.engine s.engines = some g → g.bus = .hardware h →
    n ≤ (responsesOf h s).length → (∀ r, r ∈ (responsesOf h s).take n → r.bytes.length < 2) →
    ∃ t, steps n s = .next t ∧ t.busy = some k ∧ t.engines = s.engines ∧ t.lines = s.lines ∧ t.buses = s.buses ∧
      t.shutLog = s.shutLog ∧ t.cbLog = s.cbLog ∧ t.hwLog = s.hwLog ∧ t.diag.length = s.diag.length + n)

/-- Decoding a command gives back the operation, whatever follows it (the operand layout is the model's, log 1). -/
def Obligations.DecodeGivesBackEveryOperation : Prop :=
  ∀ (i : Instr) (rest : Bytes), decode (encode i ++ rest) = .ok (i, rest)

/-- An operation none of whose float operands is not-a-number has one command: what decodes to it is its encoding. EWIN, ECB
and ETICK with such an operand are excepted, since every pattern of a not-a-number decodes to the one datum (log 18). The
operand layout is the model's (log 1). -/
def Obligations.OperationsWithoutNaNHaveOneCommand : Prop :=
  ∀ (bs : Bytes) (i : Instr) (rest : Bytes),
    decode bs = .ok (i, rest) → (∀ x, x ∈ floatsOf i → x ≠ .nan) → bs = encode i ++ rest

/-- The opcode byte of each of the 25 operations is that of R101, the upper half of every opcode byte is its format group
(R100), and commands of each group decode to their operations. The operand bytes are the model's (log 1). -/
def Obligations.OpcodeBytesNameTheirOperations : Prop :=
  (∀ i a x y, (Instr.bnew i a x y).opcode = 0x01) ∧ (∀ i, (Instr.bcfg i).opcode = 0x02) ∧
  (∀ i ab p h, (Instr.bwr i ab p h).opcode = 0x03) ∧ (∀ i n h, (Instr.brd i n h).opcode = 0x04) ∧
  (∀ i, (Instr.bctl i).opcode = 0x05) ∧
  (∀ e b g, (Instr.enew e b g).opcode = 0x10) ∧ (∀ e t n lo hi k, (Instr.ewin e t n lo hi k).opcode = 0x11) ∧
  (∀ e t f, (Instr.ecb e t f).opcode = 0x12) ∧ (∀ e, (Instr.ecfg e).opcode = 0x13) ∧
  (∀ e, (Instr.earm e).opcode = 0x14) ∧ (∀ e t, (Instr.etick e t).opcode = 0x15) ∧
  (∀ e, (Instr.eget e).opcode = 0x16) ∧ (∀ e, (Instr.estat e).opcode = 0x17) ∧
  (∀ i w v h, (Instr.setl i w v h).opcode = 0x20) ∧ (∀ i h, (Instr.rel i h).opcode = 0x21) ∧
  (∀ i h, (Instr.start i h).opcode = 0x22) ∧ (∀ i h, (Instr.stop i h).opcode = 0x23) ∧
  (∀ i v h, (Instr.txbit i v h).opcode = 0x24) ∧ (∀ i x h, (Instr.txbyte i x h).opcode = 0x25) ∧
  (∀ i h, (Instr.rxbit i h).opcode = 0x26) ∧ (∀ i last h, (Instr.rxbyte i last h).opcode = 0x27) ∧
  (∀ i h, (Instr.mack i h).opcode = 0x28) ∧ (∀ i h, (Instr.mnack i h).opcode = 0x29) ∧
  (∀ c, (Instr.qset c).opcode = 0x30) ∧ (∀ c v, (Instr.qsmp c v).opcode = 0x31) ∧
  decode [0x01, 0x00, 0x50, 0x00, 0x01, 0x00, 0x02] = .ok (.bnew 0 0x50 ⟨0, 1⟩ ⟨0, 2⟩, []) ∧
  decode [0x03, 0x00, 0xA0, 0x01, 0x01, 0x03, 0x00] = .ok (.bwr 0 0xA0 [0x03] 0, []) ∧
  decode [0x10, 0x02, 0x01, 0x07, 0x08] = .ok (.enew 2 (.hardware 7) 4, []) ∧
  decode [0x14, 0x02] = .ok (.earm 2, []) ∧
  decode [0x25, 0x01, 0xFE, 0x00] = .ok (.txbyte 1 0xFE 0, []) ∧
  decode [0x31, 0x00, 0x01, 0x01] = .ok (.qsmp ⟨0, 1⟩ true, []) ∧
  ∀ i : Instr, groupOf i.opcode = some i.format

/-! ### Bytes and codes -/

/-- The address byte's fields: bits 7 to 1 are the address, bit 0 is the read flag (R91, R209 (c)). -/
def Obligations.AddressByteFields : Prop :=
  ∀ (a : BitVec 7) (rw : Bit), (addrByte a rw).extractLsb' 1 7 = a ∧ (addrByte a rw).getLsbD 0 = rw ∧
    (addrByte a rw).toNat = 2 * a.toNat + (if rw then 1 else 0)

/-- R180: the configuration byte gives back rate and gain, and its upper half is 0, for every injective RATE_CODE. -/
def Obligations.ConfigByteRoundTrips : Prop :=
  ∀ (rc : RateCodes) (r : Rate) (g : Gain), rateCodesInjective rc = true →
    rateOfCode rc ((cfgByte rc r g).extractLsb' 2 2) = some r ∧
    1 <<< ((cfgByte rc r g).extractLsb' 0 2).toNat = gainNat g ∧
    (cfgByte rc r g).extractLsb' 4 4 = 0

/-- R95: the sample word is the big-endian two's complement value of the two bytes. -/
def Obligations.SampleWordIsBigEndian : Prop :=
  ∀ b0 b1 : Byte, rawSample b0 b1 =
      (if 32768 ≤ 256 * b0.toNat + b1.toNat then (256 * b0.toNat + b1.toNat : Int) - 65536
        else (256 * b0.toNat + b1.toNat : Int)) ∧
    -32768 ≤ rawSample b0 b1 ∧ rawSample b0 b1 ≤ 32767

/-- A received byte has its first sampled bit at the top and each later one a place lower (R61, R105), which is the order a
byte is transmitted in. -/
def Obligations.BytesTravelMostSignificantBitFirst : Prop :=
  (∀ b7 b6 b5 b4 b3 b2 b1 b0 : Bit, bitsOfByte (byteOfBits [b7, b6, b5, b4, b3, b2, b1, b0]) =
      [b7, b6, b5, b4, b3, b2, b1, b0] ∧
    (byteOfBits [b7, b6, b5, b4, b3, b2, b1, b0]).getLsbD 7 = b7 ∧
    (byteOfBits [b7, b6, b5, b4, b3, b2, b1, b0]).getLsbD 6 = b6 ∧
    (byteOfBits [b7, b6, b5, b4, b3, b2, b1, b0]).getLsbD 5 = b5 ∧
    (byteOfBits [b7, b6, b5, b4, b3, b2, b1, b0]).getLsbD 4 = b4 ∧
    (byteOfBits [b7, b6, b5, b4, b3, b2, b1, b0]).getLsbD 3 = b3 ∧
    (byteOfBits [b7, b6, b5, b4, b3, b2, b1, b0]).getLsbD 2 = b2 ∧
    (byteOfBits [b7, b6, b5, b4, b3, b2, b1, b0]).getLsbD 1 = b1 ∧
    (byteOfBits [b7, b6, b5, b4, b3, b2, b1, b0]).getLsbD 0 = b0) ∧
  ∀ x : Byte, byteOfBits (bitsOfByte x) = x

/-- R174: the rate is the one whose band the rounded quotient of 1 and the period falls into, a midpoint belonging to the
band above it. -/
def Obligations.RateBandsAreHalfOpen : Prop :=
  (∀ t : F64, t.isPosFinite = true →
    (units (fdiv (floatOfInt 1) t) < 12 * 2 ^ 1074 → selectRate t = .r8) ∧
    (12 * 2 ^ 1074 ≤ units (fdiv (floatOfInt 1) t) → units (fdiv (floatOfInt 1) t) < 24 * 2 ^ 1074 →
      selectRate t = .r16) ∧
    (24 * 2 ^ 1074 ≤ units (fdiv (floatOfInt 1) t) → units (fdiv (floatOfInt 1) t) < 80 * 2 ^ 1074 →
      selectRate t = .r32) ∧
    (80 * 2 ^ 1074 ≤ units (fdiv (floatOfInt 1) t) → selectRate t = .r128)) ∧
  selectRate (floatOfFrac 4 100) = .r32

/-! ### Floats -/

/-- The sum of two finite data is the datum nearest to the exact sum, the even one in a tie, and an infinity from half a step
above the greatest datum on; an exact zero has the negative sign only where both have it (R12, R210). That the format is
binary64 with one not-a-number, and the rule for zeros and infinities, are log 18. -/
def Obligations.AdditionIsCorrectlyRounded : Prop :=
  ∀ (a b : Bool) (ea eb : Fin 2047) (fa fb : BitVec 52) (z : Int),
    z = units (.fin a ea fa) + units (.fin b eb fb) →
    (z.natAbs < (2 ^ 54 - 1) * 2 ^ 2044 → ∃ n e f, fadd (.fin a ea fa) (.fin b eb fb) = .fin n e f ∧
      (∀ n' e' f', (z - units (.fin n e f)).natAbs ≤ (z - units (.fin n' e' f')).natAbs ∧
        ((z - units (.fin n e f)).natAbs = (z - units (.fin n' e' f')).natAbs →
          units (.fin n e f) ≠ units (.fin n' e' f') → f.getLsbD 0 = false)) ∧
      (z = 0 → n = (a && b)) ∧ (z ≠ 0 → n = decide (z < 0))) ∧
    ((2 ^ 54 - 1) * 2 ^ 2044 ≤ z.natAbs → fadd (.fin a ea fa) (.fin b eb fb) = .inf (decide (z < 0)))

/-- The quotient of two finite data, the second not zero, is the datum whose magnitude is nearest to the exact quotient of
the magnitudes, the even one in a tie, and an infinity from half a step above the greatest datum on; its sign is the
product's (R12, R210). That the format is binary64, and the rule for signs and infinities, are log 18. -/
def Obligations.DivisionIsCorrectlyRounded : Prop :=
  ∀ (a b : Bool) (ea eb : Fin 2047) (fa fb : BitVec 52), magUnits eb fb ≠ 0 →
    (magUnits ea fa * 2 ^ 1074 < (2 ^ 54 - 1) * (magUnits eb fb * 2 ^ 2044) →
      ∃ e f, fdiv (.fin a ea fa) (.fin b eb fb) = .fin (a != b) e f ∧
        ∀ e' f', gap (magUnits ea fa * 2 ^ 1074) (magUnits eb fb) (magUnits e f) ≤
            gap (magUnits ea fa * 2 ^ 1074) (magUnits eb fb) (magUnits e' f') ∧
          (gap (magUnits ea fa * 2 ^ 1074) (magUnits eb fb) (magUnits e f) =
              gap (magUnits ea fa * 2 ^ 1074) (magUnits eb fb) (magUnits e' f') →
            magUnits e f ≠ magUnits e' f' → f.getLsbD 0 = false)) ∧
    ((2 ^ 54 - 1) * (magUnits eb fb * 2 ^ 2044) ≤ magUnits ea fa * 2 ^ 1074 →
      fdiv (.fin a ea fa) (.fin b eb fb) = .inf (a != b))

/-- The running sum of up to 2^38 samples is finite and its value is the exact integer sum (R203, R210 (a), (b), R56 (f)). -/
def Obligations.SampleSumsAreExact : Prop :=
  ∀ rs : List Int, (∀ r, r ∈ rs → -32768 ≤ r ∧ r ≤ 32767) → rs.length ≤ 2 ^ 38 →
    rs.foldl (fun acc r => fadd acc (floatOfInt r)) F64.zero = floatOfInt rs.sum ∧
    (floatOfInt rs.sum).isFinite = true ∧ units (floatOfInt rs.sum) = rs.sum * 2 ^ 1074

/-- The division by NORM is exact: NORM times the calibrated value is the average (R205, R210 (d)). -/
def Obligations.NormalizationIsExact : Prop :=
  ∀ (sum : Int) (count : Nat) (r : Rate), 1 ≤ count → count ≤ 2 ^ 38 → sum.natAbs ≤ 32768 * count →
    (calibrated (floatOfInt sum) count (normOf r)).isFinite = true ∧
    units (calibrated (floatOfInt sum) count (normOf r)) * (normOf r : Int) =
      units (fdiv (floatOfInt sum) (floatOfInt count))

/-! ### Bus construction and configuration -/

/-- BNEW on a clock line without an owner (R150): the new instance owns it, with an empty queue; the four levels before BCFG
are free (log 9). -/
def Obligations.BnewElectsTheFirstOwner : Prop :=
  ∀ (i a : Nat) (scl sda : LineId) (s : State), a ≤ 127 → sda.ctrl = scl.ctrl → mget i s.buses = none →
    (∀ p, p ∈ s.buses → p.2.sda ≠ sda ∧ p.2.scl ≠ sda ∧ p.2.sda ≠ scl) → mget scl s.lines = none →
    ∃ v0 v1 v2 v3 : Bit, exec (.bnew i a scl sda) s = .next { s with
      lines := mset LineId.lt scl
        { owner := i, tq := [], qhead := 0, rx := [], sclLvl := v0, wScl := v1, clkCfg := false } s.lines
      buses := mset natLt i
        { addr7 := BitVec.ofNat 7 a, scl := scl, sda := sda, ctrl := scl.ctrl, owner := i
          sdaLvl := v2, wSda := v3, busCfg := false } s.buses
      env := { s.env with draws := s.env.draws + 1 }
      result := .none }

/-- BNEW on a clock line that has an owner (R150, R24): the new instance shares it, and the line is not touched. -/
def Obligations.BnewSharesTheOwnersLine : Prop :=
  ∀ (i a : Nat) (scl sda : LineId) (s : State) (l : ClockLine), a ≤ 127 → sda.ctrl = scl.ctrl →
    mget i s.buses = none → (∀ p, p ∈ s.buses → p.2.sda ≠ sda ∧ p.2.scl ≠ sda ∧ p.2.sda ≠ scl) →
    mget scl s.lines = some l →
    ∃ v2 v3 : Bit, exec (.bnew i a scl sda) s = .next { s with
      buses := mset natLt i
        { addr7 := BitVec.ofNat 7 a, scl := scl, sda := sda, ctrl := scl.ctrl, owner := l.owner
          sdaLvl := v2, wSda := v3, busCfg := false } s.buses
      env := { s.env with draws := s.env.draws + 1 }
      result := .none }

/-- R232: clock and data line on different controllers end process initialization; nothing is created, and no operation
runs afterwards (R239). How that ends a run is log 6. -/
def Obligations.ControllerMismatchAbortsInitialization : Prop :=
  ∀ (i a : Nat) (scl sda : LineId) (s : State), a ≤ 127 → sda.ctrl ≠ scl.ctrl →
    exec (.bnew i a scl sda) s = .next { s with aborted := some (.controllerMismatch i scl.ctrl sda.ctrl) } ∧
    step { s with aborted := some (.controllerMismatch i scl.ctrl sda.ctrl) } = .fault .processAborted

/-- What BNEW refuses (R150, R103; the order of the checks is log 8, the clock-line part of the last clause log 28). -/
def Obligations.BnewRefusals : Prop :=
  ∀ (i a : Nat) (scl sda : LineId) (s : State),
    (127 < a → exec (.bnew i a scl sda) s = .refused .badOperand) ∧
    (a ≤ 127 → sda.ctrl = scl.ctrl → (mget i s.buses).isSome = true →
      exec (.bnew i a scl sda) s = .refused .nameInUse) ∧
    (a ≤ 127 → sda.ctrl = scl.ctrl → mget i s.buses = none →
      (∃ p, p ∈ s.buses ∧ (p.2.sda = sda ∨ p.2.scl = sda ∨ p.2.sda = scl)) →
      exec (.bnew i a scl sda) s = .refused .lineInUse)

/-- R151: the owner establishes the clock line and every instance its own data line at idle-high, no entry is queued, and a
second BCFG is refused. -/
def Obligations.BcfgEstablishesIdleLines : Prop :=
  ∀ (i : Nat) (s : State) (b : Bus) (l : ClockLine), mget i s.buses = some b → mget b.scl s.lines = some l →
    (b.busCfg = false → b.owner = i → exec (.bcfg i) s = .next { s with
      lines := mset LineId.lt b.scl { l with sclLvl := true, wScl := true, clkCfg := true } s.lines
      buses := mset natLt i { b with sdaLvl := true, wSda := true, busCfg := true } s.buses
      result := .none }) ∧
    (b.busCfg = false → b.owner ≠ i → exec (.bcfg i) s = .next { s with
      buses := mset natLt i { b with sdaLvl := true, wSda := true, busCfg := true } s.buses
      result := .none }) ∧
    (b.busCfg = true → exec (.bcfg i) s = .refused .alreadyConfigured)

/-- R154: BCTL returns the controller and writes nothing. -/
def Obligations.BctlReturnsTheController : Prop :=
  ∀ (i : Nat) (s : State) (b : Bus), mget i s.buses = some b →
    exec (.bctl i) s = .next { s with result := .controller b.ctrl }

/-- Bus traffic needs a configured instance, and BWR and BRD a configured clock line too (R30, R242). That a bus which is not
there is refused for the same reason is the model's choice (log 7). -/
def Obligations.TrafficNeedsConfiguration : Prop :=
  ∀ (i : Nat) (s : State),
    ((∀ b l, mget i s.buses = some b → mget b.scl s.lines = some l → (b.busCfg && l.clkCfg) = false) →
      (∀ n h, exec (.brd i n h) s = .refused .notConfigured) ∧
      ∀ ab payload h, WellFormed (.bwr i ab payload h) → exec (.bwr i ab payload h) s = .refused .notConfigured) ∧
    ((∀ b l, mget i s.buses = some b → mget b.scl s.lines = some l → b.busCfg = false) →
      ∀ (line : WireLine) (v : Bit) (x : Byte) (h : Hint),
        exec (.setl i line v h) s = .refused .notConfigured ∧ exec (.rel i h) s = .refused .notConfigured ∧
        exec (.start i h) s = .refused .notConfigured ∧ exec (.stop i h) s = .refused .notConfigured ∧
        exec (.txbit i v h) s = .refused .notConfigured ∧ exec (.txbyte i x h) s = .refused .notConfigured ∧
        exec (.rxbit i h) s = .refused .notConfigured ∧ exec (.rxbyte i v h) s = .refused .notConfigured ∧
        exec (.mack i h) s = .refused .notConfigured ∧ exec (.mnack i h) s = .refused .notConfigured)

/-- BWR refuses an address or payload byte above 255 (R103, decision D39). That it does so before it looks at the
configuration is the model's choice (log 8). -/
def Obligations.BwrRefusesBytesAbove255 : Prop :=
  ∀ (i ab : Nat) (payload : List Nat) (h : Hint) (s : State), (255 < ab ∨ ∃ x, x ∈ payload ∧ 255 < x) →
    exec (.bwr i ab payload h) s = .refused .badOperand

/-! ### Frames -/

/-- R152, R96: BWR appends exactly the write frame to the owner's queue, leaves both levels at 1, and changes nothing
else. -/
def Obligations.BwrEmitsTheWriteFrame : Prop :=
  ∀ (i ab : Nat) (payload : List Nat) (h : Hint) (s : State) (b : Bus) (l : ClockLine),
    mget i s.buses = some b → mget b.scl s.lines = some l → b.busCfg = true → l.clkCfg = true →
    ab ≤ 255 → (∀ x, x ∈ payload → x ≤ 255) →
    exec (.bwr i ab payload h) s = .next (afterEmit i b l
      (writeEntries s.params.stopPrelow i h (BitVec.ofNat 8 ab) (payload.map (BitVec.ofNat 8))) true true .none s)

/-- BRD emits the read frame, waits until its clock line's queue is drained, and returns exactly `n` bytes and a receive time
not before the last one (R153, R79); `ReadDone` says what it leaves, that other clock lines may have run entries meanwhile
(R72), and that nothing else changes. That the read always returns, and within its one step, is the model's choice (log 4). -/
def Obligations.BrdRunsTheReadFrame : Prop :=
  ∀ (i n : Nat) (h : Hint) (s : State) (b : Bus) (l : ClockLine),
    mget i s.buses = some b → mget b.scl s.lines = some l → b.busCfg = true → l.clkCfg = true →
    QueuesOk s →
    ∃ response rt t, exec (.brd i n h) s = .next t ∧ t.result = .read response rt ∧ response.length = n ∧
      ReadDone i n h b l rt s t

/-- The bytes BRD returns are the ones the slave's levels spell, most significant bit first, after the earlier pending samples
of the line have taken theirs (R153, R127, R61, R78), whatever other clock lines run meanwhile (R72). The list of the slave's
levels is the model's (log 10), and so is that the wait ends within the step (log 4). -/
def Obligations.BrdReturnsTheSlavesBytes : Prop :=
  ∀ (i n : Nat) (h : Hint) (s : State) (b : Bus) (l : ClockLine) (before : List Bit) (xs : List Byte)
    (after : List Bit),
    mget i s.buses = some b → mget b.scl s.lines = some l → b.busCfg = true → l.clkCfg = true →
    QueuesOk s → before.length = sampleCount (l.tq.drop l.qhead) → xs.length = n →
    scriptOf b.scl s = before ++ xs.flatMap bitsOfByte ++ after →
    ∃ rt t, exec (.brd i n h) s = .next t ∧ t.result = .read xs rt

/-- R155: how many entries of each kind a frame has, with the default parameters. -/
def Obligations.FrameSizes : Prop :=
  (∀ (i : Nat) (h : Hint) (ab : Byte) (payload : List Byte),
    (writeEntries false i h ab payload).length =
      4 + 18 * (payload.length + 1) + changes false (bitsOfByte ab) + changesOver (ab.getLsbD 0) payload ∧
    (clockLevels (writeEntries false i h ab payload)).length = 2 + 18 * (payload.length + 1) ∧
    clockPulses (writeEntries false i h ab payload) = 9 * (payload.length + 1)) ∧
  (∀ (p : Params) (i : Nat) (h : Hint) (ab : Byte) (n : Nat), p.stopPrelow = false → p.rdAddrStop = false → 1 ≤ n →
    (readEntries p i h ab n).length = 22 + changes false (bitsOfByte ab) + 28 * n ∧
    (clockLevels (readEntries p i h ab n)).length = 2 + 18 * (n + 1) ∧
    sampleCount (readEntries p i h ab n) = 8 * n ∧
    dataCount (readEntries p i h ab n) = 4 + changes false (bitsOfByte ab) + 2 * (n - 1)) ∧
  (∀ (p : Params) (i : Nat) (h : Hint) (ab : Byte), p.stopPrelow = false → p.rdAddrStop = false →
    (readEntries p i h ab 0).length = 24 + changes false (bitsOfByte ab) ∧
    (clockLevels (readEntries p i h ab 0)).length = 20 ∧ sampleCount (readEntries p i h ab 0) = 0 ∧
    dataCount (readEntries p i h ab 0) = 4 + changes false (bitsOfByte ab))

/-- R132: from idle, a frame shows one start condition, at START, where the slave has the data line released there, and none
where it pulls the line low; between START and STOP no data entry runs while the clock is high; a write shows a stop condition
exactly when its last bit is 0, a read never (STOP_PRELOW and RD_ADDR_STOP false). `slave` says what the slave does at each
entry. -/
def Obligations.WireConditionsOfAFrame : Prop :=
  (∀ (i : Nat) (h : Hint) (ab : Byte) (payload : List Byte),
    (∀ slave : Nat → Bit, startsSeen i slave true true (writeEntries false i h ab payload) = (if slave 0 then 1 else 0)) ∧
    stopsSeen i true true (writeEntries false i h ab payload) =
      (if ((ab :: payload).getLast (by simp)).getLsbD 0 then 0 else 1) ∧
    writeEntries false i h ab payload =
      startEntries i h ++ cellsEntries i h false (ab :: payload) ++ stopEntries false i h ∧
    dataWhileHigh false (cellsEntries i h false (ab :: payload)) = 0) ∧
  (∀ (p : Params) (i : Nat) (h : Hint) (ab : Byte) (n : Nat), p.stopPrelow = false → p.rdAddrStop = false →
    (∀ slave : Nat → Bit, startsSeen i slave true true (readEntries p i h ab n) = (if slave 1 then 1 else 0)) ∧
    stopsSeen i true true (readEntries p i h ab n) = 0 ∧
    readEntries p i h ab n = [.sda i true h] ++ startEntries i h ++
      (cellEntries i h false ab ++ rxCellsEntries i h n ++ [.sda i true h]) ++ stopEntries false i h ∧
    dataWhileHigh false (cellEntries i h false ab ++ rxCellsEntries i h n ++ [.sda i true h]) = 0)

/-! ### Micro-operations -/

/-- R120 to R123, R128, R129: the entries each framing operation appends to the owner's queue, the levels it ends at, and that
nothing else changes. -/
def Obligations.FramingOperationsEmit : Prop :=
  ∀ (i : Nat) (v : Bit) (h : Hint) (s : State) (b : Bus) (l : ClockLine),
    mget i s.buses = some b → mget b.scl s.lines = some l → b.busCfg = true →
    exec (.setl i .scl v h) s = .next (afterEmit i b l [.scl v h] v b.sdaLvl .none s) ∧
    exec (.setl i .sda v h) s = .next (afterEmit i b l [.sda i v h] l.sclLvl v .none s) ∧
    exec (.rel i h) s = .next (afterEmit i b l [.sda i true h] l.sclLvl true .none s) ∧
    exec (.start i h) s = .next (afterEmit i b l [.sda i false h, .scl false h] false false .none s) ∧
    exec (.stop i h) s = .next (afterEmit i b l
      ((if s.params.stopPrelow then [.sda i false h] else []) ++ [.scl true h, .sda i true h]) true true .none s) ∧
    exec (.mack i h) s = .next (afterEmit i b l
      [.sda i false h, .scl true h, .scl false h, .sda i true h] false true .none s) ∧
    exec (.mnack i h) s = .next (afterEmit i b l [.scl true h, .scl false h] false b.sdaLvl .none s)

/-- R124, R125: a bit has a data entry exactly when it differs from the level last emitted, a byte is eight bits from bit 7
down and a ninth pulse; the number of data entries is that of the changes. -/
def Obligations.TransmitOperationsEmit : Prop :=
  ∀ (i : Nat) (v : Bit) (x : Byte) (h : Hint) (s : State) (b : Bus) (l : ClockLine),
    mget i s.buses = some b → mget b.scl s.lines = some l → b.busCfg = true →
    exec (.txbit i v h) s = .next (afterEmit i b l
      ((if v = b.sdaLvl then [] else [.sda i v h]) ++ [.scl true h, .scl false h]) false v .none s) ∧
    exec (.txbyte i x h) s =
      .next (afterEmit i b l (cellEntries i h b.sdaLvl x) false (x.getLsbD 0) .none s) ∧
    dataCount (cellEntries i h b.sdaLvl x) = changes b.sdaLvl (bitsOfByte x) ∧
    (clockLevels (cellEntries i h b.sdaLvl x)).length = 18 ∧ clockPulses (cellEntries i h b.sdaLvl x) = 9

/-- R126: RXBIT appends `C1 S C0`, returns the position of its sample, and leaves the data level alone. -/
def Obligations.RxbitPlacesOneSample : Prop :=
  ∀ (i : Nat) (h : Hint) (s : State) (b : Bus) (l : ClockLine),
    mget i s.buses = some b → mget b.scl s.lines = some l → b.busCfg = true →
    exec (.rxbit i h) s = .next (afterEmit i b l [.scl true h, .smp i h, .scl false h] false b.sdaLvl
      (.position (l.tq.length + 1)) s)

/-- RXBYTE appends a receive cell and returns its eight sample positions in order (R127); an answered byte ends with the data
line released, the last one leaves it as it was. -/
def Obligations.RxbyteEmitsAReceiveCell : Prop :=
  ∀ (i : Nat) (last : Bool) (h : Hint) (s : State) (b : Bus) (l : ClockLine),
    mget i s.buses = some b → mget b.scl s.lines = some l → b.busCfg = true →
    exec (.rxbyte i last h) s = .next (afterEmit i b l (rxCellEntries i h last) false (if last then b.sdaLvl else true)
      (.positions (samplePositions l.tq.length)) s) ∧
    (∀ p, p ∈ samplePositions l.tq.length →
      (l.tq ++ rxCellEntries i h last)[p]? = some (.smp i h)) ∧
    clockPulses (rxCellEntries i h last) = 9 ∧ sampleCount (rxCellEntries i h last) = 8

/-! ### The executor -/

/-- R130: QSET moves the one wire its entry names and the head, and nothing else; on a sample or an empty rest it is not
enabled (its refusal is the model's, log 7). -/
def Obligations.QsetExecutesALevelEntry : Prop :=
  ∀ (c : LineId) (s : State) (l : ClockLine), mget c s.lines = some l →
    (∀ v h, l.tq[l.qhead]? = some (.scl v h) → exec (.qset c) s =
      .next { s with lines := mset LineId.lt c { l with wScl := v, qhead := l.qhead + 1 } s.lines }) ∧
    (∀ i v h b, l.tq[l.qhead]? = some (.sda i v h) → mget i s.buses = some b → exec (.qset c) s =
      .next { s with
        lines := mset LineId.lt c { l with qhead := l.qhead + 1 } s.lines
        buses := mset natLt i { b with wSda := v } s.buses }) ∧
    ((l.tq[l.qhead]? = none ∨ ∃ i h, l.tq[l.qhead]? = some (.smp i h)) →
      exec (.qset c) s = .refused .badOperand)

/-- R131: QSMP records the wire level and the slave's draw, for every draw, and moves the head; on a level entry or an empty
rest it is not enabled (its refusal is the model's, log 7). -/
def Obligations.QsmpRecordsTheWire : Prop :=
  ∀ (c : LineId) (v : Bit) (s : State) (l : ClockLine), mget c s.lines = some l →
    (∀ i h b, l.tq[l.qhead]? = some (.smp i h) → mget i s.buses = some b → exec (.qsmp c v) s =
      .next { s with
        lines := mset LineId.lt c { l with rx := mset natLt l.qhead (b.wSda && v) l.rx, qhead := l.qhead + 1 } s.lines }) ∧
    ((l.tq[l.qhead]? = none ∨ (∃ w h, l.tq[l.qhead]? = some (.scl w h)) ∨ ∃ i w h, l.tq[l.qhead]? = some (.sda i w h)) →
      exec (.qsmp c v) s = .refused .badOperand)

/-- The executor runs the pending entries of a line in order, each once: after `k` of its steps the head has moved by `k` and
every wire has the level the first `k` pending entries give it (R70, R29). -/
def Obligations.ExecutorRunsInEmissionOrder : Prop :=
  ∀ (c : LineId) (k : Nat) (s : State) (l : ClockLine), mget c s.lines = some l → l.qhead + k ≤ l.tq.length →
    OnlyLine c s (autoSteps c k s) ∧
    (∃ rx, mget c (autoSteps c k s).lines = some { l with
        wScl := lastScl l.wScl ((l.tq.drop l.qhead).take k), qhead := l.qhead + k, rx := rx } ∧
      ∀ p, p < l.qhead → mget p rx = mget p l.rx) ∧
    ∀ i, mget i (autoSteps c k s).buses =
      (mget i s.buses).map (fun b => { b with wSda := lastSda i b.wSda ((l.tq.drop l.qhead).take k) })

/-! ### Engine lifecycle -/

/-- ENEW with a supported gain creates an idle engine with the registers of the reset table (R170, R55); a name that is taken
is refused (log 8). That it does so for every bus, also a software bus that is not built (log 31) and a bus another engine
holds (log 32), is the model's choice. -/
def Obligations.EnewConstructsAnIdleEngine : Prop :=
  ∀ (e : Nat) (bus : BusRef) (gain : Gain) (s : State),
    (mget e s.engines = none → exec (.enew e bus (gainNat gain)) s = .next { s with
      engines := mset natLt e
        { st := .idle, bus := bus, gain := gain, gainCode := gainCodeOf gain, rate := none
          win := none, partialSum := F64.zero, samplesTaken := 0, last := none, errCount := 0, cb := none
          lastCb := s.params.lastCbInit, timer := none, nextDeadline := none, cfgReg := none } s.engines
      result := .none }) ∧
    ((mget e s.engines).isSome = true → exec (.enew e bus (gainNat gain)) s = .refused .nameInUse)

/-- R231: an unsupported gain ends process initialization, naming the engine and the gain; no engine is created, and no
operation runs afterwards (R239). How that ends a run is log 6. -/
def Obligations.UnsupportedGainAbortsInitialization : Prop :=
  ∀ (e : Nat) (bus : BusRef) (gain : Int) (s : State), gain ≠ 1 → gain ≠ 2 → gain ≠ 4 → gain ≠ 8 →
    exec (.enew e bus gain) s = .next { s with aborted := some (.unsupportedGain e gain) } ∧
    step { s with aborted := some (.unsupportedGain e gain) } = .fault .processAborted

/-- R171: EWIN writes the five window registers, in `Idle` only and with legal operands only. -/
def Obligations.EwinSetsTheWindow : Prop :=
  ∀ (e : Nat) (t : F64) (n : Int) (lo hi : F64) (rcc : Int) (s : State) (g : Engine), mget e s.engines = some g →
    (g.st = .idle → t.isPosFinite = true → 1 ≤ n → 0 ≤ rcc → lo.isNaN = false → hi.isNaN = false →
      exec (.ewin e t n lo hi rcc) s = .next { s with
        engines := mset natLt e { g with
          win := some
            { sampleTime := t, sampleCount := n.toNat, minValue := lo
              maxValue := hi, rangeCheckCount := rcc.toNat } } s.engines
        result := .none }) ∧
    (g.st = .idle → (t.isPosFinite = false ∨ n < 1 ∨ rcc < 0 ∨ lo.isNaN = true ∨ hi.isNaN = true) →
      exec (.ewin e t n lo hi rcc) s = .refused .badOperand) ∧
    (g.st ≠ .idle → exec (.ewin e t n lo hi rcc) s = .refused .wrongEngineState)

/-- R172: ECB registers the callback in every engine state, the last one winning, and leaves LAST_CB_TIME alone. -/
def Obligations.EcbRegistersTheCallback : Prop :=
  ∀ (e : Nat) (t : F64) (cb : Nat) (s : State) (g : Engine), mget e s.engines = some g →
    (t.isNaN = false → exec (.ecb e t cb) s = .next { s with
      engines := mset natLt e { g with cb := some { cb := cb, reportTime := t } } s.engines
      result := .none }) ∧
    (t.isNaN = true → exec (.ecb e t cb) s = .refused .badOperand)

/-- R173: ECFG fixes rate, code and NORM together, replaces SAMPLE_TIME by the exact period of the rate, and enters
`Configuring`. -/
def Obligations.EcfgFixesRateAndPeriod : Prop :=
  (∀ (e : Nat) (s : State) (g : Engine) (w : Window), mget e s.engines = some g → g.st = .idle → g.win = some w →
    exec (.ecfg e) s = .next { s with
      engines := mset natLt e { g with
        rate := some
          { rate := selectRate w.sampleTime
            code := rateCodeOf s.params.rateCode (selectRate w.sampleTime)
            norm := normOf (selectRate w.sampleTime) }
        win := some { w with sampleTime := fdiv (floatOfInt 1) (floatOfInt (rateNat (selectRate w.sampleTime))) }
        st := .configuring } s.engines
      result := .none }) ∧
  (∀ r : Rate, units (fdiv (floatOfInt 1) (floatOfInt (rateNat r))) * (rateNat r : Int) = 2 ^ 1074 ∧
    rateNat r * normOf r = 262144) ∧
  (rateNat .r8 = 8 ∧ rateNat .r16 = 16 ∧ rateNat .r32 = 32 ∧ rateNat .r128 = 128 ∧
    normOf .r8 = 32768 ∧ normOf .r16 = 16384 ∧ normOf .r32 = 8192 ∧ normOf .r128 = 2048) ∧
  (∀ rc : RateCodes, rateCodeOf rc .r8 = rc.c8 ∧ rateCodeOf rc .r16 = rc.c16 ∧ rateCodeOf rc .r32 = rc.c32 ∧
    rateCodeOf rc .r128 = rc.c128) ∧
  (∀ (e : Nat) (s : State) (g : Engine), mget e s.engines = some g →
    (g.st = .idle → g.win = none → exec (.ecfg e) s = .refused .windowUnset) ∧
    (g.st ≠ .idle → exec (.ecfg e) s = .refused .wrongEngineState))

/-- EARM on a ready software bus (R175): the configuration byte is queued for the bus's slave first, then the timer is armed;
the hint and the timer handle are free (log 16). -/
def Obligations.EarmOnASoftwareBus : Prop :=
  ∀ (e i : Nat) (s : State) (g : Engine) (r : RateRegs) (b : Bus) (l : ClockLine),
    mget e s.engines = some g → g.st = .configuring → g.rate = some r → g.bus = .software i →
    mget i s.buses = some b → mget b.scl s.lines = some l → b.busCfg = true → l.clkCfg = true →
    ∃ hint handle, exec (.earm e) s = .next { s with
      lines := mset LineId.lt b.scl { l with
        tq := l.tq ++ writeEntries s.params.stopPrelow i hint (addrByte b.addr7 false)
          [cfgByte s.params.rateCode r.rate g.gain]
        sclLvl := true } s.lines
      buses := mset natLt i { b with sdaLvl := true } s.buses
      engines := mset natLt e { g with
        cfgReg := some (cfgByte s.params.rateCode r.rate g.gain)
        timer := some handle
        nextDeadline := some s.params.firstDeadline
        st := .armed } s.engines
      env := { s.env with draws := s.env.draws + 1 }
      result := .none }

/-- EARM on an external bus (R175, R66): the write is recorded in HW_LOG, then the timer is armed; the timer handle is free
(log 16), the address is the external bus's (log 17). -/
def Obligations.EarmOnAHardwareBus : Prop :=
  ∀ (e k : Nat) (s : State) (g : Engine) (r : RateRegs),
    mget e s.engines = some g → g.st = .configuring → g.rate = some r → g.bus = .hardware k →
    ∃ handle, exec (.earm e) s = .next { s with
      engines := mset natLt e { g with
        cfgReg := some (cfgByte s.params.rateCode r.rate g.gain)
        timer := some handle
        nextDeadline := some s.params.firstDeadline
        st := .armed } s.engines
      hwLog := s.hwLog ++ [{ bus := k, addr7 := Config.hwAddr7 k, bytes := [cfgByte s.params.rateCode r.rate g.gain] }]
      env := { s.env with draws := s.env.draws + 1 }
      result := .none }

/-- R176, R177: a query returns the last result, or its time stamp, in every engine state and changes nothing; before the first
cycle it returns a free value (log 13). -/
def Obligations.QueriesReturnTheLastResult : Prop :=
  ∀ (e : Nat) (s : State) (g : Engine), mget e s.engines = some g →
    (∀ v ts, g.last = some { value := v, ts := ts } →
      exec (.eget e) s = .next { s with result := .last v ts } ∧
      exec (.estat e) s = .next { s with result := .status ts }) ∧
    (g.last = none →
      (∃ v ts, exec (.eget e) s =
        .next { s with result := .last v ts, env := { s.env with draws := s.env.draws + 1 } }) ∧
      ∃ ts, exec (.estat e) s =
        .next { s with result := .status ts, env := { s.env with draws := s.env.draws + 1 } })

/-- R178: an operation changes an engine's state only along the table, and an engine operation outside its phase is
refused. -/
def Obligations.EngineStateMovesAlongTheTable : Prop :=
  (∀ (i : Instr) (s t : State) (e : Nat) (g : Engine), mget e s.engines = some g → exec i s = .next t →
    ∃ g', mget e t.engines = some g' ∧
      (g'.st = g.st ∨ (g.st = .idle ∧ g'.st = .configuring ∧ i = .ecfg e) ∨
        (g.st = .configuring ∧ g'.st = .armed ∧ i = .earm e) ∨
        (g.st = .armed ∧ g'.st = .sampling ∧ ∃ now, i = .etick e now))) ∧
  (∀ (e : Nat) (s : State) (g : Engine), mget e s.engines = some g →
    (g.st ≠ .idle → exec (.ecfg e) s = .refused .wrongEngineState ∧
      ∀ x n lo hi k, exec (.ewin e x n lo hi k) s = .refused .wrongEngineState) ∧
    (g.st ≠ .configuring → exec (.earm e) s = .refused .wrongEngineState) ∧
    (g.st ≠ .armed → g.st ≠ .sampling → ∀ now, exec (.etick e now) s = .refused .wrongEngineState))

/-! ### The tick -/

/-- A tick on an external bus that answers two bytes (R200 to R208): the registers after it, the records of the shutdown hook
and of the callback, the deadline returned, and nothing else changed. The list of the bus's answers is the model's (log 11),
and so are the DIAG records (log 21). -/
def Obligations.EtickOnAHardwareBus : Prop :=
  ∀ (e k : Nat) (now : F64) (s : State) (g : Engine) (w : Window) (r : RateRegs) (b0 b1 : Byte) (gp : Nat)
    (more : List HwResponse),
    mget e s.engines = some g → (g.st = .armed ∨ g.st = .sampling) → g.bus = .hardware k → g.win = some w →
    g.rate = some r → responsesOf k s = { bytes := [b0, b1], gap := gp } :: more →
    exec (.etick e now) s = .next { s with
      engines := mset natLt e (afterTick now (rawSample b0 b1) (hwStamp k s + gp) w r.norm g) s.engines
      shutLog := s.shutLog ++
        (if tickTrips (rawSample b0 b1) w r.norm g then [{ engine := e, reason := .adcOutOfRange }] else [])
      cbLog := s.cbLog ++ (if tickFires now w g then
        [{ engine := e, time := Config.estTime (hwStamp k s + gp), value := cycleValue (rawSample b0 b1) w r.norm g }]
        else [])
      diag := s.diag ++ [.tickStarted e] ++
        (if tickTrips (rawSample b0 b1) w r.norm g then [.shutdownTriggered e] else [])
      result := .deadline (fadd now w.sampleTime)
      busy := none
      env := { s.env with
        hw := mset natLt k more s.env.hw
        hwLast := mset natLt k (hwStamp k s + gp) s.env.hwLast
        draws := s.env.draws + 1 } }

/-- A tick on an external bus whose answer nothing fixes (log 11): it is answered with at most two bytes, and either the tick
ends with that sample or it goes on retrying. That a retrying tick is an open one that the next step goes on with is the model's
choice (log 5), and so are the DIAG records (log 21). -/
def Obligations.EtickOnAnUnscriptedExternalBus : Prop :=
  ∀ (e k : Nat) (now : F64) (s : State) (g : Engine) (w : Window) (r : RateRegs),
    mget e s.engines = some g → (g.st = .armed ∨ g.st = .sampling) → g.bus = .hardware k → g.win = some w →
    g.rate = some r → responsesOf k s = [] →
    ∃ (bs : List Byte) (rt : Timestamp), hwStamp k s ≤ rt ∧ bs.length ≤ 2 ∧
      ((∃ b0 b1 t, bs = [b0, b1] ∧ exec (.etick e now) s = .next t ∧ t.busy = none ∧
          t.engines = mset natLt e (afterTick now (rawSample b0 b1) rt w r.norm g) s.engines ∧
          t.result = .deadline (fadd now w.sampleTime)) ∨
        (bs.length < 2 ∧ exec (.etick e now) s = .next { s with
          engines := mset natLt e { g with st := .sampling } s.engines
          diag := s.diag ++ [.tickStarted e, .retryOccurred e bs.length]
          busy := some { engine := e, now := now }
          env := { s.env with hwLast := mset natLt k rt s.env.hwLast, draws := s.env.draws + 2 } }))

/-- A tick on a ready software bus (R200 to R208 with R153): one complete read frame, whose two bytes are the sample, and then
the same registers and records as on an external bus. The bytes are the slave's levels, after the earlier pending samples of
the line have taken theirs. The hint of the read is free (log 16); that the read returns within the step is the model's choice
(log 4), and so are the list of the slave's levels (log 10) and the DIAG records (log 21). -/
def Obligations.EtickOnASoftwareBus : Prop :=
  ∀ (e i : Nat) (now : F64) (s : State) (g : Engine) (w : Window) (r : RateRegs) (b : Bus) (l : ClockLine),
    mget e s.engines = some g → (g.st = .armed ∨ g.st = .sampling) → g.bus = .software i → g.win = some w →
    g.rate = some r → mget i s.buses = some b → mget b.scl s.lines = some l → b.busCfg = true → l.clkCfg = true →
    QueuesOk s →
    ∃ hint b0 b1 rt t u, exec (.etick e now) s = .next t ∧ ReadDone i 2 hint b l rt s u ∧ t = { u with
      engines := mset natLt e (afterTick now (rawSample b0 b1) rt w r.norm g) s.engines
      shutLog := s.shutLog ++
        (if tickTrips (rawSample b0 b1) w r.norm g then [{ engine := e, reason := .adcOutOfRange }] else [])
      cbLog := s.cbLog ++ (if tickFires now w g then
        [{ engine := e, time := Config.estTime rt, value := cycleValue (rawSample b0 b1) w r.norm g }] else [])
      diag := s.diag ++ [.tickStarted e] ++
        (if tickTrips (rawSample b0 b1) w r.norm g then [.shutdownTriggered e] else [])
      result := .deadline (fadd now w.sampleTime)
      busy := none } ∧
      ∀ (before : List Bit) (x0 x1 : Byte) (after : List Bit), before.length = sampleCount (l.tq.drop l.qhead) →
        scriptOf b.scl s = before ++ bitsOfByte x0 ++ bitsOfByte x1 ++ after → b0 = x0 ∧ b1 = x1

/-- A short response of an external bus changes no engine register but the state and is recorded only as a diagnostic (R201,
R233; the record is the model's, log 21); that it leaves the tick open, for the next step to go on with, is the model's choice
(log 5). A response longer than requested is refused (R66). -/
def Obligations.ShortResponseIsDiscarded : Prop :=
  ∀ (e k : Nat) (now : F64) (s : State) (g : Engine) (r : HwResponse) (more : List HwResponse),
    mget e s.engines = some g → (g.st = .armed ∨ g.st = .sampling) → g.bus = .hardware k →
    responsesOf k s = r :: more →
    (r.bytes.length < 2 → exec (.etick e now) s = .next { s with
      engines := mset natLt e { g with st := .sampling } s.engines
      diag := s.diag ++ [.tickStarted e, .retryOccurred e r.bytes.length]
      busy := some { engine := e, now := now }
      env := { s.env with
        hw := mset natLt k more s.env.hw
        hwLast := mset natLt k (hwStamp k s + r.gap) s.env.hwLast
        draws := s.env.draws + 1 } }) ∧
    (2 < r.bytes.length → exec (.etick e now) s = .refused .overlongResponse)

/-- The source's example of R201: a 1-byte response and then a 2-byte response give exactly one sample, from the second
response's bytes and receive time, at the tick's own `now`. That the first attempt is the operation and the second the next step
is the model's choice (log 5). -/
def Obligations.RetriedTickUsesTheSecondResponse : Prop :=
  ∀ (e k : Nat) (now : F64) (s : State) (g : Engine) (w : Window) (r : RateRegs) (x b0 b1 : Byte) (g1 g2 : Nat)
    (more : List HwResponse),
    s.aborted = none → s.env.port = [] → mget e s.engines = some g → (g.st = .armed ∨ g.st = .sampling) →
    g.bus = .hardware k → g.win = some w → g.rate = some r →
    responsesOf k s = { bytes := [x], gap := g1 } :: { bytes := [b0, b1], gap := g2 } :: more →
    ∃ u t, exec (.etick e now) s = .next u ∧ step u = .next t ∧
      t.engines = mset natLt e (afterTick now (rawSample b0 b1) (hwStamp k s + g1 + g2) w r.norm g) s.engines ∧
      t.result = .deadline (fadd now w.sampleTime) ∧ t.busy = none ∧
      t.lines = s.lines ∧ t.buses = s.buses ∧ t.hwLog = s.hwLog

/-- R212: K consecutive out-of-range cycles give one call of the hook, K + m give m + 1, fewer than K none; with threshold 0
there is none, and an in-range cycle starts the count again (R206). -/
def Obligations.RepeatedTripsCallTheHookAgain : Prop :=
  ∀ (w : Window) (xs : List F64) (m : Nat),
    (0 < w.rangeCheckCount → (∀ x, x ∈ xs → outOfRange w x = true) →
      (xs.length = w.rangeCheckCount + m → tripCount w 0 xs = m + 1) ∧
      (xs.length < w.rangeCheckCount → tripCount w 0 xs = 0)) ∧
    (w.rangeCheckCount = 0 → ∀ n, tripCount w n xs = 0) ∧
    (∀ x n, outOfRange w x = false → tripCount w n (x :: xs) = tripCount w 0 xs)

/-- A callback fires at most once per REPORT_TIME of tick time: every firing is at least that far after the last one (R207,
decision D17). -/
def Obligations.CallbackKeepsItsInterval : Prop :=
  ∀ (g : Engine) (k : Callback) (ts : List F64), g.cb = some k →
    List.IsChain (fun a b => fge b (fadd a k.reportTime) = true) (g.lastCb :: firings g ts)

/-! ### Rules of the whole machine -/

/-- The accumulator, the last result, the error count and the last-callback time of an engine are written by its own tick
alone (R46, R47, R48, R49), and the window, rate and registers of arming of an engine past `Idle` never change but by EARM
(R76, R284); in particular EGET and ESTAT write none of them (R69). `ResultsKept` says so of every operation, and of every step
with the operation the step runs: the command it takes, or the open tick it goes on with (log 5). -/
def Obligations.OnlyTicksWriteResults : Prop :=
  (∀ (i : Instr) (s t : State), exec i s = .next t → ResultsKept (some i) s t) ∧
  ∀ s t : State, step s = .next t → ResultsKept (running s) s t

/-- Engines share no state, and neither do the buses of one clock line their private state (R244, R156): an operation leaves
every engine it does not name and the record of every bus it does not use as it was, but for the level of a data wire, which is
the one the bus's own entries that ran give it; no entry runs but by the executor's operations and a read's wait. `PrivateKept`
says so of every operation, and of every step with the operation the step runs (log 5). -/
def Obligations.InstancesKeepTheirPrivateState : Prop :=
  (∀ (i : Instr) (s t : State), QueuesOk s → BusesOk s → exec i s = .next t → PrivateKept (some i) s t) ∧
  ∀ s t : State, QueuesOk s → BusesOk s → step s = .next t → PrivateKept (running s) s t

/-- Every step keeps every map of the state in canonical form. -/
def Obligations.StepKeepsMapsCanonical : Prop :=
  ∀ s t : State, MapsOk s → step s = .next t → MapsOk t

/-- Every step keeps `0 ≤ QHEAD ≤ length(TQ)` (R28), that a bit has been received for exactly the samples executed (R31), and
that a data entry waits on the clock line of the bus it names (R27, R156). -/
def Obligations.StepKeepsQueuesAndSamples : Prop :=
  ∀ s t : State, QueuesOk s → step s = .next t → QueuesOk t

/-- Every step keeps the ownership of clock lines (R24, R56 (e)), both lines of a bus on one controller (R22) and every data line
exclusive (R286). -/
def Obligations.StepKeepsOwnership : Prop :=
  ∀ s t : State, BusesOk s → step s = .next t → BusesOk t

/-- Every step keeps the registers of every engine consistent (R56 (a), (b), (c); R41 to R51), and a tick inside its retry loop
is that of a sampling engine. -/
def Obligations.StepKeepsEnginesConsistent : Prop :=
  ∀ s t : State, EnginesOk s → step s = .next t → EnginesOk t

/-- Every step only appends to traces and logs, only advances queue heads, keeps received bits (R27, R28, R52, R70), and changes
nothing that is fixed at construction (R21, R22, R23, R24, R42, R43). -/
def Obligations.StepKeepsHistory : Prop :=
  ∀ s t : State, step s = .next t → HistoryKept s t ∧ FixedKept s t

/-- Every step of a machine whose port holds no micro-operation of the bus itself keeps every configured line idle at emission
level (R133, R56 (d)), and the wires at the levels the pending entries lead to (R29). -/
def Obligations.StepKeepsConfiguredLinesIdle : Prop :=
  ∀ s t : State, HostOnly s → QueuesOk s → BusesOk s → LevelsOk s → IdleOk s → step s = .next t →
    HostOnly t ∧ LevelsOk t ∧ IdleOk t
end

