-- ==== Sys2Proof/Laws/Map.lean ====
section
/-! SUPPORT. The laws of finite maps: read after write, and that writing keeps the canonical form. -/

namespace Sys2Proof.Machine

variable {κ α : Type} [DecidableEq κ]

@[simp] theorem mget_nil (k : κ) : mget k ([] : List (κ × α)) = none := rfl

/-- A read of the key just written gives the value written. -/
@[simp] theorem mget_mset_same (lt : κ → κ → Bool) (k : κ) (v : α) (m : List (κ × α)) :
    mget k (mset lt k v m) = some v := by
  induction m with
  | nil => simp [mset, mget]
  | cons p m ih =>
    obtain ⟨k', v'⟩ := p
    by_cases h : k = k'
    · simp [mset, mget, h]
    · cases hl : lt k k' <;> simp [mset, mget, h, hl, ih]

/-- A write leaves every other key alone. -/
theorem mget_mset_other (lt : κ → κ → Bool) {k j : κ} (hj : j ≠ k) (v : α) (m : List (κ × α)) :
    mget j (mset lt k v m) = mget j m := by
  induction m with
  | nil => simp [mset, mget, hj]
  | cons p m ih =>
    obtain ⟨k', v'⟩ := p
    by_cases h : k = k'
    · subst h
      simp [mset, mget, hj]
    · cases hl : lt k k'
      · simp [mset, mget, h, hl, ih]
      · simp [mset, mget, h, hl, hj]

theorem mget_mset (lt : κ → κ → Bool) (k j : κ) (v : α) (m : List (κ × α)) :
    mget j (mset lt k v m) = if j = k then some v else mget j m := by
  split
  · next h => subst h; simp
  · next h => exact mget_mset_other lt h v m

/-- What a key order must be for the canonical form to be kept. -/
structure KeyOrder (lt : κ → κ → Bool) : Prop where
  trans : ∀ a b c, lt a b = true → lt b c = true → lt a c = true
  total : ∀ a b, a ≠ b → lt a b = false → lt b a = true
  irrefl : ∀ a, lt a a = false

theorem mset_keys_above {lt : κ → κ → Bool} {k x : κ} {v : α} {m : List (κ × α)}
    (hx : lt x k = true) (hm : m.all (fun p => lt x p.1) = true) :
    (mset lt k v m).all (fun p => lt x p.1) = true := by
  induction m with
  | nil => simp [mset, hx]
  | cons p m ih =>
    obtain ⟨k', v'⟩ := p
    simp only [List.all_cons, Bool.and_eq_true] at hm
    by_cases h : k = k'
    · simp [mset, h, List.all_cons, hm]
    · cases hl : lt k k'
      · simp only [mset, h, hl, if_false, List.all_cons, Bool.and_eq_true, Bool.false_eq_true]
        exact ⟨hm.1, ih hm.2⟩
      · simp only [mset, h, hl, if_false, if_true, List.all_cons, Bool.and_eq_true]
        exact ⟨hx, hm.1, hm.2⟩

/-- A write keeps the canonical form. -/
theorem mwf_mset {lt : κ → κ → Bool} (ho : KeyOrder lt) (k : κ) (v : α) {m : List (κ × α)}
    (hm : mwf lt m = true) : mwf lt (mset lt k v m) = true := by
  induction m with
  | nil => simp [mset, mwf]
  | cons p m ih =>
    obtain ⟨k', v'⟩ := p
    simp only [mwf, Bool.and_eq_true] at hm
    by_cases h : k = k'
    · simp [mset, h, mwf, hm]
    · cases hl : lt k k'
      · simp only [mset, h, hl, if_false, mwf, Bool.and_eq_true, Bool.false_eq_true]
        exact ⟨mset_keys_above (ho.total k k' h hl) hm.1, ih hm.2⟩
      · simp only [mset, h, hl, if_false, if_true, mwf, Bool.and_eq_true, List.all_cons]
        refine ⟨⟨trivial, ?_⟩, hm.1, hm.2⟩
        simp only [List.all_eq_true] at hm ⊢
        exact fun q hq => ho.trans _ _ _ hl (hm.1 q hq)

theorem natLt_keyOrder : KeyOrder natLt where
  trans a b c := by simp only [natLt, decide_eq_true_eq]; omega
  total a b := by simp only [natLt, decide_eq_true_eq, decide_eq_false_iff_not]; omega
  irrefl a := by simp [natLt]

theorem lineLt_keyOrder : KeyOrder LineId.lt where
  trans a b c := by
    simp only [LineId.lt, Bool.or_eq_true, Bool.and_eq_true, decide_eq_true_eq, beq_iff_eq]; omega
  total a b h := by
    cases a; cases b
    simp only [LineId.lt, Bool.or_eq_true, Bool.and_eq_true, Bool.or_eq_false_iff, Bool.and_eq_false_iff,
      decide_eq_true_eq, decide_eq_false_iff_not, beq_iff_eq, beq_eq_false_iff_ne, ne_eq, LineId.mk.injEq] at h ⊢
    omega
  irrefl a := by simp [LineId.lt]

/-- In a canonical map a listed pair is the one a read finds. -/
theorem mget_of_mem {lt : κ → κ → Bool} (ho : KeyOrder lt) {m : List (κ × α)} (hm : mwf lt m = true)
    {k : κ} {v : α} (h : (k, v) ∈ m) : mget k m = some v := by
  induction m with
  | nil => cases h
  | cons p m ih =>
    obtain ⟨k', v'⟩ := p
    simp only [mwf, Bool.and_eq_true, List.all_eq_true] at hm
    rcases List.mem_cons.mp h with heq | hmem
    · cases heq; simp [mget]
    · have hne : k ≠ k' := by
        rintro rfl
        have := hm.1 _ hmem
        simp [ho.irrefl] at this
      simp [mget, hne, ih hm.2 hmem]

theorem mem_of_mget {m : List (κ × α)} {k : κ} {v : α} (h : mget k m = some v) : (k, v) ∈ m := by
  induction m with
  | nil => simp at h
  | cons p m ih =>
    obtain ⟨k', v'⟩ := p
    by_cases hk : k = k'
    · simp only [mget, hk, if_true, Option.some.injEq] at h
      simp [hk, h]
    · simp only [mget, hk, if_false] at h
      exact List.mem_cons_of_mem _ (ih h)

theorem mset_of_mget {lt : κ → κ → Bool} (ho : KeyOrder lt) {m : List (κ × α)} (hm : mwf lt m = true)
    {k : κ} {v : α} (h : mget k m = some v) : mset lt k v m = m := by
  induction m with
  | nil => simp at h
  | cons p m ih =>
    obtain ⟨k', v'⟩ := p
    by_cases hk : k = k'
    · simp only [mget, hk, if_true, Option.some.injEq] at h
      simp [mset, hk, h]
    · simp only [mget, hk, if_false] at h
      simp only [mwf, Bool.and_eq_true, List.all_eq_true] at hm
      have hlt : lt k k' = false := by
        by_contra hc
        simp only [Bool.not_eq_false] at hc
        have h2 := hm.1 _ (mem_of_mget h)
        have := ho.trans _ _ _ hc h2
        simp [ho.irrefl] at this
      simp [mset, hk, hlt, ih hm.2 h]

end Sys2Proof.Machine
end

