-- ==== Sys2Proof/Laws/State.lean ====
section
/-! SUPPORT. One lemma per field per update of State, each true by rfl. -/

namespace Sys2Proof.Machine

/-! ### putLine -/

@[simp] theorem putLine_params (c : LineId) (l : ClockLine) (s : State) : (s.putLine c l).params = s.params := rfl
@[simp] theorem putLine_lines (c : LineId) (l : ClockLine) (s : State) : (s.putLine c l).lines = mset LineId.lt c l s.lines := rfl
@[simp] theorem putLine_buses (c : LineId) (l : ClockLine) (s : State) : (s.putLine c l).buses = s.buses := rfl
@[simp] theorem putLine_engines (c : LineId) (l : ClockLine) (s : State) : (s.putLine c l).engines = s.engines := rfl
@[simp] theorem putLine_shutLog (c : LineId) (l : ClockLine) (s : State) : (s.putLine c l).shutLog = s.shutLog := rfl
@[simp] theorem putLine_cbLog (c : LineId) (l : ClockLine) (s : State) : (s.putLine c l).cbLog = s.cbLog := rfl
@[simp] theorem putLine_hwLog (c : LineId) (l : ClockLine) (s : State) : (s.putLine c l).hwLog = s.hwLog := rfl
@[simp] theorem putLine_diag (c : LineId) (l : ClockLine) (s : State) : (s.putLine c l).diag = s.diag := rfl
@[simp] theorem putLine_result (c : LineId) (l : ClockLine) (s : State) : (s.putLine c l).result = s.result := rfl
@[simp] theorem putLine_aborted (c : LineId) (l : ClockLine) (s : State) : (s.putLine c l).aborted = s.aborted := rfl
@[simp] theorem putLine_busy (c : LineId) (l : ClockLine) (s : State) : (s.putLine c l).busy = s.busy := rfl
@[simp] theorem putLine_env (c : LineId) (l : ClockLine) (s : State) : (s.putLine c l).env = s.env := rfl

/-! ### putBus -/

@[simp] theorem putBus_params (i : Nat) (b : Bus) (s : State) : (s.putBus i b).params = s.params := rfl
@[simp] theorem putBus_lines (i : Nat) (b : Bus) (s : State) : (s.putBus i b).lines = s.lines := rfl
@[simp] theorem putBus_buses (i : Nat) (b : Bus) (s : State) : (s.putBus i b).buses = mset natLt i b s.buses := rfl
@[simp] theorem putBus_engines (i : Nat) (b : Bus) (s : State) : (s.putBus i b).engines = s.engines := rfl
@[simp] theorem putBus_shutLog (i : Nat) (b : Bus) (s : State) : (s.putBus i b).shutLog = s.shutLog := rfl
@[simp] theorem putBus_cbLog (i : Nat) (b : Bus) (s : State) : (s.putBus i b).cbLog = s.cbLog := rfl
@[simp] theorem putBus_hwLog (i : Nat) (b : Bus) (s : State) : (s.putBus i b).hwLog = s.hwLog := rfl
@[simp] theorem putBus_diag (i : Nat) (b : Bus) (s : State) : (s.putBus i b).diag = s.diag := rfl
@[simp] theorem putBus_result (i : Nat) (b : Bus) (s : State) : (s.putBus i b).result = s.result := rfl
@[simp] theorem putBus_aborted (i : Nat) (b : Bus) (s : State) : (s.putBus i b).aborted = s.aborted := rfl
@[simp] theorem putBus_busy (i : Nat) (b : Bus) (s : State) : (s.putBus i b).busy = s.busy := rfl
@[simp] theorem putBus_env (i : Nat) (b : Bus) (s : State) : (s.putBus i b).env = s.env := rfl

/-! ### putEngine -/

@[simp] theorem putEngine_params (e : Nat) (g : Engine) (s : State) : (s.putEngine e g).params = s.params := rfl
@[simp] theorem putEngine_lines (e : Nat) (g : Engine) (s : State) : (s.putEngine e g).lines = s.lines := rfl
@[simp] theorem putEngine_buses (e : Nat) (g : Engine) (s : State) : (s.putEngine e g).buses = s.buses := rfl
@[simp] theorem putEngine_engines (e : Nat) (g : Engine) (s : State) : (s.putEngine e g).engines = mset natLt e g s.engines := rfl
@[simp] theorem putEngine_shutLog (e : Nat) (g : Engine) (s : State) : (s.putEngine e g).shutLog = s.shutLog := rfl
@[simp] theorem putEngine_cbLog (e : Nat) (g : Engine) (s : State) : (s.putEngine e g).cbLog = s.cbLog := rfl
@[simp] theorem putEngine_hwLog (e : Nat) (g : Engine) (s : State) : (s.putEngine e g).hwLog = s.hwLog := rfl
@[simp] theorem putEngine_diag (e : Nat) (g : Engine) (s : State) : (s.putEngine e g).diag = s.diag := rfl
@[simp] theorem putEngine_result (e : Nat) (g : Engine) (s : State) : (s.putEngine e g).result = s.result := rfl
@[simp] theorem putEngine_aborted (e : Nat) (g : Engine) (s : State) : (s.putEngine e g).aborted = s.aborted := rfl
@[simp] theorem putEngine_busy (e : Nat) (g : Engine) (s : State) : (s.putEngine e g).busy = s.busy := rfl
@[simp] theorem putEngine_env (e : Nat) (g : Engine) (s : State) : (s.putEngine e g).env = s.env := rfl

/-! ### give -/

@[simp] theorem give_params (r : Result) (s : State) : (s.give r).params = s.params := rfl
@[simp] theorem give_lines (r : Result) (s : State) : (s.give r).lines = s.lines := rfl
@[simp] theorem give_buses (r : Result) (s : State) : (s.give r).buses = s.buses := rfl
@[simp] theorem give_engines (r : Result) (s : State) : (s.give r).engines = s.engines := rfl
@[simp] theorem give_shutLog (r : Result) (s : State) : (s.give r).shutLog = s.shutLog := rfl
@[simp] theorem give_cbLog (r : Result) (s : State) : (s.give r).cbLog = s.cbLog := rfl
@[simp] theorem give_hwLog (r : Result) (s : State) : (s.give r).hwLog = s.hwLog := rfl
@[simp] theorem give_diag (r : Result) (s : State) : (s.give r).diag = s.diag := rfl
@[simp] theorem give_result (r : Result) (s : State) : (s.give r).result = r := rfl
@[simp] theorem give_aborted (r : Result) (s : State) : (s.give r).aborted = s.aborted := rfl
@[simp] theorem give_busy (r : Result) (s : State) : (s.give r).busy = s.busy := rfl
@[simp] theorem give_env (r : Result) (s : State) : (s.give r).env = s.env := rfl

/-! ### logDiag -/

@[simp] theorem logDiag_params (d : DiagEvent) (s : State) : (s.logDiag d).params = s.params := rfl
@[simp] theorem logDiag_lines (d : DiagEvent) (s : State) : (s.logDiag d).lines = s.lines := rfl
@[simp] theorem logDiag_buses (d : DiagEvent) (s : State) : (s.logDiag d).buses = s.buses := rfl
@[simp] theorem logDiag_engines (d : DiagEvent) (s : State) : (s.logDiag d).engines = s.engines := rfl
@[simp] theorem logDiag_shutLog (d : DiagEvent) (s : State) : (s.logDiag d).shutLog = s.shutLog := rfl
@[simp] theorem logDiag_cbLog (d : DiagEvent) (s : State) : (s.logDiag d).cbLog = s.cbLog := rfl
@[simp] theorem logDiag_hwLog (d : DiagEvent) (s : State) : (s.logDiag d).hwLog = s.hwLog := rfl
@[simp] theorem logDiag_diag (d : DiagEvent) (s : State) : (s.logDiag d).diag = s.diag ++ [d] := rfl
@[simp] theorem logDiag_result (d : DiagEvent) (s : State) : (s.logDiag d).result = s.result := rfl
@[simp] theorem logDiag_aborted (d : DiagEvent) (s : State) : (s.logDiag d).aborted = s.aborted := rfl
@[simp] theorem logDiag_busy (d : DiagEvent) (s : State) : (s.logDiag d).busy = s.busy := rfl
@[simp] theorem logDiag_env (d : DiagEvent) (s : State) : (s.logDiag d).env = s.env := rfl

/-! ### nextDraw -/

@[simp] theorem nextDraw_params (s : State) : (s.nextDraw).params = s.params := rfl
@[simp] theorem nextDraw_lines (s : State) : (s.nextDraw).lines = s.lines := rfl
@[simp] theorem nextDraw_buses (s : State) : (s.nextDraw).buses = s.buses := rfl
@[simp] theorem nextDraw_engines (s : State) : (s.nextDraw).engines = s.engines := rfl
@[simp] theorem nextDraw_shutLog (s : State) : (s.nextDraw).shutLog = s.shutLog := rfl
@[simp] theorem nextDraw_cbLog (s : State) : (s.nextDraw).cbLog = s.cbLog := rfl
@[simp] theorem nextDraw_hwLog (s : State) : (s.nextDraw).hwLog = s.hwLog := rfl
@[simp] theorem nextDraw_diag (s : State) : (s.nextDraw).diag = s.diag := rfl
@[simp] theorem nextDraw_result (s : State) : (s.nextDraw).result = s.result := rfl
@[simp] theorem nextDraw_aborted (s : State) : (s.nextDraw).aborted = s.aborted := rfl
@[simp] theorem nextDraw_busy (s : State) : (s.nextDraw).busy = s.busy := rfl
@[simp] theorem nextDraw_env (s : State) : (s.nextDraw).env = { s.env with draws := s.env.draws + 1 } := rfl

/-! ### The shutdown hook and the callback -/

@[simp] theorem invokeShutdown_params (e : Nat) (s : State) : (invokeShutdown e s).params = s.params := rfl
@[simp] theorem invokeShutdown_lines (e : Nat) (s : State) : (invokeShutdown e s).lines = s.lines := rfl
@[simp] theorem invokeShutdown_buses (e : Nat) (s : State) : (invokeShutdown e s).buses = s.buses := rfl
@[simp] theorem invokeShutdown_engines (e : Nat) (s : State) : (invokeShutdown e s).engines = s.engines := rfl
@[simp] theorem invokeShutdown_shutLog (e : Nat) (s : State) : (invokeShutdown e s).shutLog = s.shutLog ++ [{ engine := e, reason := .adcOutOfRange }] := rfl
@[simp] theorem invokeShutdown_cbLog (e : Nat) (s : State) : (invokeShutdown e s).cbLog = s.cbLog := rfl
@[simp] theorem invokeShutdown_hwLog (e : Nat) (s : State) : (invokeShutdown e s).hwLog = s.hwLog := rfl
@[simp] theorem invokeShutdown_diag (e : Nat) (s : State) : (invokeShutdown e s).diag = s.diag ++ [.shutdownTriggered e] := rfl
@[simp] theorem invokeShutdown_result (e : Nat) (s : State) : (invokeShutdown e s).result = s.result := rfl
@[simp] theorem invokeShutdown_aborted (e : Nat) (s : State) : (invokeShutdown e s).aborted = s.aborted := rfl
@[simp] theorem invokeShutdown_busy (e : Nat) (s : State) : (invokeShutdown e s).busy = s.busy := rfl
@[simp] theorem invokeShutdown_env (e : Nat) (s : State) : (invokeShutdown e s).env = s.env := rfl
@[simp] theorem invokeCallback_params (e : Nat) (t v : F64) (s : State) : (invokeCallback e t v s).params = s.params := rfl
@[simp] theorem invokeCallback_lines (e : Nat) (t v : F64) (s : State) : (invokeCallback e t v s).lines = s.lines := rfl
@[simp] theorem invokeCallback_buses (e : Nat) (t v : F64) (s : State) : (invokeCallback e t v s).buses = s.buses := rfl
@[simp] theorem invokeCallback_engines (e : Nat) (t v : F64) (s : State) : (invokeCallback e t v s).engines = s.engines := rfl
@[simp] theorem invokeCallback_shutLog (e : Nat) (t v : F64) (s : State) : (invokeCallback e t v s).shutLog = s.shutLog := rfl
@[simp] theorem invokeCallback_cbLog (e : Nat) (t v : F64) (s : State) : (invokeCallback e t v s).cbLog = s.cbLog ++ [{ engine := e, time := t, value := v }] := rfl
@[simp] theorem invokeCallback_hwLog (e : Nat) (t v : F64) (s : State) : (invokeCallback e t v s).hwLog = s.hwLog := rfl
@[simp] theorem invokeCallback_diag (e : Nat) (t v : F64) (s : State) : (invokeCallback e t v s).diag = s.diag := rfl
@[simp] theorem invokeCallback_result (e : Nat) (t v : F64) (s : State) : (invokeCallback e t v s).result = s.result := rfl
@[simp] theorem invokeCallback_aborted (e : Nat) (t v : F64) (s : State) : (invokeCallback e t v s).aborted = s.aborted := rfl
@[simp] theorem invokeCallback_busy (e : Nat) (t v : F64) (s : State) : (invokeCallback e t v s).busy = s.busy := rfl
@[simp] theorem invokeCallback_env (e : Nat) (t v : F64) (s : State) : (invokeCallback e t v s).env = s.env := rfl

end Sys2Proof.Machine
end

