-- ==== Sys2Proof/Laws/Micro.lean ====
section
/-! SUPPORT. One lemma per emission function: which entries it appends and at which levels it ends. -/

namespace Sys2Proof.Machine

/-- A lane after `es`, at these levels. -/
def Lane.app (ln : Lane) (es : List Entry) (scl sda : Bit) : Lane := { tq := ln.tq ++ es, scl := scl, sda := sda }

@[simp] theorem Lane.app_tq (ln : Lane) (es : List Entry) (a b : Bit) : (ln.app es a b).tq = ln.tq ++ es := rfl
@[simp] theorem Lane.app_scl (ln : Lane) (es : List Entry) (a b : Bit) : (ln.app es a b).scl = a := rfl
@[simp] theorem Lane.app_sda (ln : Lane) (es : List Entry) (a b : Bit) : (ln.app es a b).sda = b := rfl

@[simp] theorem Lane.app_app (ln : Lane) (es fs : List Entry) (a b c d : Bit) :
    (ln.app es a b).app fs c d = ln.app (es ++ fs) c d := by
  simp [Lane.app]

theorem Lane.eq_app (ln : Lane) : ln = ln.app [] ln.scl ln.sda := by
  simp [Lane.app]

theorem setl_scl_app (i : Nat) (h : Hint) (v : Bit) (ln : Lane) :
    setl i h .scl v ln = ln.app [.scl v h] v ln.sda := rfl

theorem setl_sda_app (i : Nat) (h : Hint) (v : Bit) (ln : Lane) :
    setl i h .sda v ln = ln.app [.sda i v h] ln.scl v := rfl

theorem pulse_app (i : Nat) (h : Hint) (ln : Lane) : pulse i h ln = ln.app (pulseEntries h) false ln.sda := by
  simp [pulse, setl_scl_app, pulseEntries]

theorem start_app (i : Nat) (h : Hint) (ln : Lane) : start i h ln = ln.app (startEntries i h) false false := by
  simp [start, setl_scl_app, setl_sda_app, startEntries]

theorem stop_app (p : Params) (i : Nat) (h : Hint) (ln : Lane) :
    stop p i h ln = ln.app (stopEntries p.stopPrelow i h) true true := by
  cases hp : p.stopPrelow <;> simp [stop, hp, setl_scl_app, setl_sda_app, stopEntries]

theorem mack_app (i : Nat) (h : Hint) (ln : Lane) :
    mack i h ln = ln.app ([.sda i false h] ++ pulseEntries h ++ [.sda i true h]) false true := by
  simp [mack, setl_sda_app, pulse_app]

theorem mnack_app (i : Nat) (h : Hint) (ln : Lane) : mnack i h ln = ln.app (pulseEntries h) false ln.sda :=
  pulse_app i h ln

theorem txbit_app (i : Nat) (h : Hint) (b : Bit) (ln : Lane) :
    txbit i h b ln = ln.app (bitEntries i h ln.sda [b]) false b := by
  by_cases hb : b = ln.sda
  · subst hb; simp [txbit, pulse_app, bitEntries]
  · simp [txbit, pulse_app, bitEntries, hb, setl_sda_app]

theorem bitEntries_append (i : Nat) (h : Hint) (lvl b : Bit) (bs : List Bit) :
    bitEntries i h lvl (b :: bs) = bitEntries i h lvl [b] ++ bitEntries i h b bs := by
  simp [bitEntries]

/-- The level after a list of bits has been transmitted from level `lvl`. -/
def lastLevel (lvl : Bit) (bs : List Bit) : Bit := bs.getLast?.getD lvl

@[simp] theorem lastLevel_nil (lvl : Bit) : lastLevel lvl [] = lvl := rfl

@[simp] theorem lastLevel_cons (lvl b : Bit) (bs : List Bit) : lastLevel lvl (b :: bs) = lastLevel b bs := by
  cases bs <;> simp [lastLevel, List.getLast?_cons]

theorem txbits_app (i : Nat) (h : Hint) (bs : List Bit) (ln : Lane) (hne : bs ≠ []) :
    txbits i h bs ln = ln.app (bitEntries i h ln.sda bs) false (lastLevel ln.sda bs) := by
  induction bs generalizing ln with
  | nil => exact absurd rfl hne
  | cons b bs ih =>
    cases bs with
    | nil => simp [txbits, txbit_app]
    | cons b' bs =>
      rw [txbits, ih _ (by simp), txbit_app, bitEntries_append i h ln.sda b (b' :: bs)]
      simp

theorem txbyte_app (i : Nat) (h : Hint) (x : Byte) (ln : Lane) :
    txbyte i h x ln = ln.app (cellEntries i h ln.sda x) false (x.getLsbD 0) := by
  rw [txbyte, txbits_app i h _ _ (by simp [bitsOfByte]), pulse_app]
  simp [cellEntries, bitsOfByte]

/-- The level after a list of bytes has been transmitted from level `lvl`. -/
def levelAfter (lvl : Bit) : List Byte → Bit
  | [] => lvl
  | x :: xs => levelAfter (x.getLsbD 0) xs

theorem txbytes_app (i : Nat) (h : Hint) (xs : List Byte) (ln : Lane) (hs : ln.scl = false) :
    txbytes i h xs ln = ln.app (cellsEntries i h ln.sda xs) false (levelAfter ln.sda xs) := by
  induction xs generalizing ln with
  | nil => rw [txbytes, cellsEntries, levelAfter, ← hs]; exact ln.eq_app
  | cons x xs ih =>
    rw [txbytes, txbyte_app, ih _ rfl]
    simp [cellsEntries, levelAfter]

/-- BWR emits the write frame and ends idle. -/
theorem writeFrame_app (p : Params) (i : Nat) (h : Hint) (ab : Byte) (xs : List Byte) (ln : Lane) :
    writeFrame p i h ab xs ln = ln.app (writeEntries p.stopPrelow i h ab xs) true true := by
  rw [writeFrame, start_app, txbyte_app, txbytes_app _ _ _ _ rfl, stop_app]
  simp [writeEntries, cellsEntries]

theorem rxbit_app (i : Nat) (h : Hint) (ln : Lane) :
    rxbit i h ln = (ln.app (sampleEntries i h 1) false ln.sda, ln.tq.length + 1) := by
  simp [rxbit, setl_scl_app, Lane.app, sampleEntries]

@[simp] theorem sampleEntries_length (i : Nat) (h : Hint) (k : Nat) : (sampleEntries i h k).length = 3 * k := by
  induction k with
  | zero => rfl
  | succ k ih => simp [sampleEntries, ih]; omega

theorem rxbits_app (i : Nat) (h : Hint) (k : Nat) (ln : Lane) :
    rxbits i h (k + 1) ln = (ln.app (sampleEntries i h (k + 1)) false ln.sda,
      (List.range (k + 1)).map (fun j => ln.tq.length + 3 * j + 1)) := by
  induction k generalizing ln with
  | zero => simp [rxbits, rxbit_app]
  | succ k ih =>
    rw [rxbits, rxbit_app, ih]
    simp only [Lane.app_app, Lane.app_tq, Lane.app_sda, List.length_append, sampleEntries_length]
    rw [List.range_succ_eq_map (n := k + 1)]
    simp only [sampleEntries, List.map_cons, List.map_map, List.append_nil, Prod.mk.injEq, List.cons.injEq]
    refine ⟨by simp, by simp, List.map_congr_left fun j _ => ?_⟩
    simp only [Function.comp_apply]; omega

theorem rxbyte_app (i : Nat) (h : Hint) (last : Bool) (ln : Lane) :
    rxbyte i h last ln =
      (ln.app (rxCellEntries i h last) false (last && ln.sda || !last), samplePositions ln.tq.length) := by
  rw [rxbyte, rxbits_app]
  cases last <;>
    simp [mack_app, mnack_app, rxCellEntries, samplePositions, List.range_succ_eq_map]

@[simp] theorem rxCellEntries_length (i : Nat) (h : Hint) (last : Bool) :
    (rxCellEntries i h last).length = if last then 26 else 28 := by
  cases last <;> simp [rxCellEntries, pulseEntries]

/-- The positions of the samples of `n` receive cells, the first beginning at position `p`. -/
def cellPositions : Nat → Nat → List (List Nat)
  | 0, _ => []
  | k + 1, p => samplePositions p :: cellPositions k (p + 28)

theorem rxbytes_app (i : Nat) (h : Hint) (n : Nat) (ln : Lane) (hd : ln.sda = true) :
    rxbytes i h n ln =
      (ln.app (rxCellsEntries i h n) (n == 0 && ln.scl) true, cellPositions n ln.tq.length) := by
  induction n generalizing ln with
  | zero => cases ln; simp_all [rxbytes, rxCellsEntries, cellPositions, Lane.app]
  | succ k ih =>
    rw [rxbytes, rxbyte_app]
    have hl : ((k == 0) && ln.sda || !(k == 0)) = true := by cases k <;> simp [hd]
    rw [hl, ih _ rfl]
    cases k <;> simp [rxCellsEntries, cellPositions]

@[simp] theorem addrByte_bit0 (a : BitVec 7) (rw : Bit) : (addrByte a rw)[0] = rw := by
  cases rw <;> simp [addrByte]

/-- The entries a read emits before its first receive cell. -/
def readHeadEntries (p : Params) (i : Nat) (h : Hint) (ab : Byte) : List Entry :=
  [.sda i true h] ++ startEntries i h ++ cellEntries i h false ab
    ++ (if p.rdAddrStop then stopEntries p.stopPrelow i h else [])

theorem readHead_app (p : Params) (i : Nat) (h : Hint) (a : BitVec 7) (ln : Lane) :
    readHead p i h (addrByte a true) ln = ln.app (readHeadEntries p i h (addrByte a true)) p.rdAddrStop true := by
  cases hp : p.rdAddrStop <;>
    simp [readHead, hp, rel, setl_sda_app, start_app, txbyte_app, stop_app, readHeadEntries]

/-- BRD emits the read frame and ends idle; its samples lie where the receive cells are. -/
theorem readFrame_app (p : Params) (i : Nat) (h : Hint) (a : BitVec 7) (n : Nat) (ln : Lane) :
    readFrame p i h (addrByte a true) n ln =
      (ln.app (readEntries p i h (addrByte a true) n) true true,
        cellPositions n (ln.tq.length + (readHeadEntries p i h (addrByte a true)).length)) := by
  rw [readFrame, readHead_app, rxbytes_app _ _ _ _ rfl]
  simp [rel, setl_sda_app, stop_app, readEntries, readHeadEntries]

/-! ### On the state -/

/-- A micro-operation on a configured bus emits and returns, and changes nothing else. -/
theorem microOp_emits {i : Nat} {f : Lane → Lane × Result} {s : State} {b : Bus} {l : ClockLine}
    {es : List Entry} {scl sda : Bit} {r : Result}
    (hb : mget i s.buses = some b) (hl : mget b.scl s.lines = some l) (hc : b.busCfg = true)
    (hf : f (laneOf b l) = ((laneOf b l).app es scl sda, r)) :
    microOp i f s = .next (afterEmit i b l es scl sda r s) := by
  have : microOp i f s = .next ((putLane i b l (f (laneOf b l)).1 s).give (f (laneOf b l)).2) := by
    simp [microOp, busLine, hb, hl, hc]
  rw [this, hf]; rfl

/-- A micro-operation answers next only on a configured bus. -/
theorem microOp_next {i : Nat} {f : Lane → Lane × Result} {s t : State} (h : microOp i f s = .next t) :
    ∃ b l, mget i s.buses = some b ∧ mget b.scl s.lines = some l ∧ b.busCfg = true ∧
      t = (putLane i b l (f (laneOf b l)).1 s).give (f (laneOf b l)).2 := by
  unfold microOp busLine at h
  cases hb : mget i s.buses with
  | none => simp [hb] at h
  | some b =>
    cases hl : mget b.scl s.lines with
    | none => simp [hb, hl] at h
    | some l =>
      cases hc : b.busCfg
      · simp [hb, hl, hc] at h
      · simp [hb, hl, hc] at h
        exact ⟨b, l, rfl, hl, hc, h.symm⟩

end Sys2Proof.Machine
end

