-- ==== Sys2Proof/Laws/Queue.lean ====
section
/-! SUPPORT. What the queue executor can do, said once: `Ran` describes a run over a list of entries, and `drain` is such a
run. -/

namespace Sys2Proof.Machine

/-! ### Runs over a list of entries -/

/-- The executor's step on entry `e` of clock line `c`. -/
def runEntry (c : LineId) (e : Entry) (s : State) : State :=
  match mget c s.lines with
  | none => s
  | some l =>
    match e with
    | .scl v _ => runScl c l v s
    | .sda i v _ => runSda c l i v s
    | .smp i _ => runSmp c l i (drawSlave c s).1 (drawSlave c s).2

def runEntries (c : LineId) : List Entry → State → State
  | [], s => s
  | e :: es, s => runEntries c es (runEntry c e s)

theorem runEntries_append (c : LineId) (es fs : List Entry) (s : State) :
    runEntries c (es ++ fs) s = runEntries c fs (runEntries c es s) := by
  induction es generalizing s with
  | nil => rfl
  | cons e es ih => simp [runEntries, ih]

/-- What the execution of `es` on clock line `c` changes, and that it changes nothing else, whoever gives the slave's
levels. -/
structure Moved (c : LineId) (es : List Entry) (s t : State) : Prop where
  only : OnlyLine c s t
  swLast : t.env.swLast = s.env.swLast
  result : t.result = s.result
  maps : MapsOk s → MapsOk t
  bus : ∀ i, mget i t.buses = (mget i s.buses).map (fun b => { b with wSda := lastSda i b.wSda es })
  line : ∀ l, mget c s.lines = some l → ∃ rx,
    mget c t.lines = some { l with wScl := lastScl l.wScl es, qhead := l.qhead + es.length, rx := rx } ∧
    (∀ p, p < l.qhead → mget p rx = mget p l.rx) ∧
    (∀ p, (mget p rx).isSome = true ↔
      (mget p l.rx).isSome = true ∨ ∃ k i h, p = l.qhead + k ∧ es[k]? = some (.smp i h))
  none : mget c s.lines = none → mget c t.lines = none

/-- A run of the executor over `es` on clock line `c`, the slave's levels drawn. -/
structure Ran (c : LineId) (es : List Entry) (s t : State) : Prop extends Moved c es s t where
  script : scriptOf c t = (scriptOf c s).drop (sampleCount es)

theorem OnlyBuses.refl (s : State) : OnlyBuses s s := by simp [OnlyBuses]

theorem OnlyBuses.trans {s t u : State} (h : OnlyBuses s t) (k : OnlyBuses t u) : OnlyBuses s u := by
  obtain ⟨h1, h2, h3, h4, h5, h6, h7, h8, h9, h10, h11⟩ := h
  obtain ⟨k1, k2, k3, k4, k5, k6, k7, k8, k9, k10, k11⟩ := k
  exact ⟨k1.trans h1, k2.trans h2, k3.trans h3, k4.trans h4, k5.trans h5, k6.trans h6, k7.trans h7, k8.trans h8,
    k9.trans h9, k10.trans h10, k11.trans h11⟩

theorem OnlyLine.refl (c : LineId) (s : State) : OnlyLine c s s := ⟨OnlyBuses.refl s, fun _ _ => rfl, fun _ _ => rfl⟩

theorem OnlyLine.trans {c : LineId} {s t u : State} (h : OnlyLine c s t) (k : OnlyLine c t u) : OnlyLine c s u :=
  ⟨h.1.trans k.1, fun d hd => (k.2.1 d hd).trans (h.2.1 d hd), fun d hd => (k.2.2 d hd).trans (h.2.2 d hd)⟩

theorem sampleCount_append (es fs : List Entry) : sampleCount (es ++ fs) = sampleCount es + sampleCount fs := by
  induction es with
  | nil => simp [sampleCount]
  | cons e es ih => cases e <;> simp [sampleCount, ih]; omega

theorem lastScl_append (v : Bit) (es fs : List Entry) : lastScl v (es ++ fs) = lastScl (lastScl v es) fs := by
  induction es generalizing v with
  | nil => rfl
  | cons e es ih => cases e <;> simp [lastScl, ih]

theorem lastSda_append (i : Nat) (v : Bit) (es fs : List Entry) :
    lastSda i v (es ++ fs) = lastSda i (lastSda i v es) fs := by
  induction es generalizing v with
  | nil => rfl
  | cons e es ih => cases e <;> simp [lastSda, ih]

theorem Moved.nil (c : LineId) (s : State) : Moved c [] s s where
  only := OnlyLine.refl c s
  swLast := rfl
  result := rfl
  maps := id
  bus i := by cases mget i s.buses <;> simp [lastSda]
  line l hl := ⟨l.rx, by simpa [lastScl] using hl, fun _ _ => rfl, by simp⟩
  none := id

theorem Moved.append {c : LineId} {es fs : List Entry} {s t u : State} (h : Moved c es s t) (k : Moved c fs t u) :
    Moved c (es ++ fs) s u where
  only := h.only.trans k.only
  swLast := k.swLast.trans h.swLast
  result := k.result.trans h.result
  maps := fun hm => k.maps (h.maps hm)
  bus i := by rw [k.bus, h.bus]; cases mget i s.buses <;> simp [lastSda_append]
  line l hl := by
    obtain ⟨rx, h1, h2, h3⟩ := h.line l hl
    obtain ⟨rx', k1, k2, k3⟩ := k.line _ h1
    refine ⟨rx', ?_, fun p hp => ?_, fun p => ?_⟩
    · rw [k1]; simp [lastScl_append, Nat.add_assoc]
    · rw [k2 p (by simp only []; omega), h2 p hp]
    · rw [k3 p, h3 p, or_assoc]
      refine or_congr Iff.rfl ⟨?_, ?_⟩
      · rintro (⟨k, i, h, rfl, hk⟩ | ⟨k, i, h, rfl, hk⟩)
        · refine ⟨k, i, h, rfl, ?_⟩
          obtain ⟨hlt, -⟩ := List.getElem?_eq_some_iff.mp hk
          rw [List.getElem?_append_left hlt, hk]
        · refine ⟨es.length + k, i, h, by simp only []; omega, ?_⟩
          rw [List.getElem?_append_right (by omega), ← hk]; congr 1; omega
      · rintro ⟨k, i, h, rfl, hk⟩
        rcases Nat.lt_or_ge k es.length with hlt | hge
        · exact Or.inl ⟨k, i, h, rfl, by rw [← hk, List.getElem?_append_left hlt]⟩
        · refine Or.inr ⟨k - es.length, i, h, by simp only []; omega, ?_⟩
          rw [← hk, List.getElem?_append_right hge]
  none hn := k.none (h.none hn)

theorem Ran.nil (c : LineId) (s : State) : Ran c [] s s := ⟨Moved.nil c s, by simp [sampleCount]⟩

theorem Ran.append {c : LineId} {es fs : List Entry} {s t u : State} (h : Ran c es s t) (k : Ran c fs t u) :
    Ran c (es ++ fs) s u :=
  ⟨h.toMoved.append k.toMoved, by rw [k.script, h.script, sampleCount_append, List.drop_drop]⟩

theorem setWireSda_bus (i j : Nat) (v : Bit) (s : State) :
    mget j (setWireSda i v s).buses =
      (mget j s.buses).map (fun b => { b with wSda := if i = j then v else b.wSda }) := by
  unfold setWireSda
  cases hi : mget i s.buses with
  | none =>
    cases hj : mget j s.buses with
    | none => rfl
    | some b => have : i ≠ j := by rintro rfl; simp [hi] at hj
                simp [this]
  | some b =>
    simp only [putBus_buses, mget_mset]
    by_cases hij : j = i
    · subst hij; simp [hi]
    · cases hj : mget j s.buses <;> simp [hij, Ne.symm hij]

/-- Setting a data wire changes only the buses. -/
theorem setWireSda_frame (i : Nat) (v : Bit) (s : State) :
    ∃ bs, setWireSda i v s = { s with buses := bs } := by
  unfold setWireSda
  cases mget i s.buses with
  | none => exact ⟨s.buses, rfl⟩
  | some b => exact ⟨_, rfl⟩

theorem drawSlave_spec (c : LineId) (s : State) :
    ∃ env, (drawSlave c s).2 = { s with env := env } ∧ env.port = s.env.port ∧ env.hw = s.env.hw ∧
      env.swLast = s.env.swLast ∧ env.hwLast = s.env.hwLast ∧
      (∀ d, d ≠ c → mget d env.slave = mget d s.env.slave) ∧
      (mget c env.slave).getD [] = (scriptOf c s).drop 1 ∧
      (∀ b bs, scriptOf c s = b :: bs → (drawSlave c s).1 = b) ∧
      (mwf LineId.lt s.env.slave = true → mwf LineId.lt env.slave = true) := by
  unfold drawSlave scriptOf
  cases hs : (mget c s.env.slave).getD [] with
  | nil => refine ⟨{ s.env with draws := s.env.draws + 1 }, rfl, rfl, rfl, rfl, rfl, fun _ _ => rfl, ?_, by simp, id⟩
           simp [hs]
  | cons b bs =>
    refine ⟨{ s.env with slave := mset LineId.lt c bs s.env.slave }, rfl, rfl, rfl, rfl, rfl,
      fun d hd => mget_mset_other _ hd _ _, by simp, ?_, mwf_mset lineLt_keyOrder c bs⟩
    intro b' bs' h; simpa using (List.cons.inj h).1

theorem mem_lines_rx {s : State} (hm : MapsOk s) {c : LineId} {l : ClockLine} (hl : mget c s.lines = some l) :
    mwf natLt l.rx = true := hm.2.2.2.1 c l hl

/-- Writing a clock line whose received bits are in canonical form keeps every map in canonical form. -/
theorem MapsOk.putLine {s : State} (hm : MapsOk s) (c : LineId) {l : ClockLine} (hl : mwf natLt l.rx = true) :
    MapsOk (s.putLine c l) := by
  obtain ⟨h1, h2, h3, h4, h5, h6, h7, h8⟩ := hm
  refine ⟨mwf_mset lineLt_keyOrder c l h1, h2, h3, fun d k hd => ?_, h5, h6, h7, h8⟩
  simp only [putLine_lines, mget_mset] at hd
  split at hd
  · cases hd; exact hl
  · exact h4 d k hd

theorem MapsOk.putBus {s : State} (hm : MapsOk s) (i : Nat) (b : Bus) : MapsOk (s.putBus i b) := by
  obtain ⟨h1, h2, h3, h4, h5, h6, h7, h8⟩ := hm
  exact ⟨h1, mwf_mset natLt_keyOrder i b h2, h3, h4, h5, h6, h7, h8⟩

theorem MapsOk.putEngine {s : State} (hm : MapsOk s) (e : Nat) (g : Engine) : MapsOk (s.putEngine e g) := by
  obtain ⟨h1, h2, h3, h4, h5, h6, h7, h8⟩ := hm
  exact ⟨h1, h2, mwf_mset natLt_keyOrder e g h3, h4, h5, h6, h7, h8⟩

theorem MapsOk.setWireSda {s : State} (hm : MapsOk s) (i : Nat) (v : Bit) : MapsOk (setWireSda i v s) := by
  unfold Machine.setWireSda
  cases mget i s.buses with
  | none => exact hm
  | some b => exact hm.putBus i _

theorem runScl_moved {c : LineId} {l : ClockLine} {v : Bit} {h : Hint} {s : State} (hl : mget c s.lines = some l) :
    Moved c [.scl v h] s (runScl c l v s) := by
  constructor
  · refine ⟨⟨rfl, rfl, rfl, rfl, rfl, rfl, rfl, rfl, rfl, rfl, rfl⟩, fun d hd => ?_, fun _ _ => rfl⟩
    simp [runScl, mget_mset_other _ hd]
  · rfl
  · rfl
  · exact fun hm => MapsOk.putLine (l := { l with wScl := v, qhead := l.qhead + 1 }) hm c (mem_lines_rx (l := l) hm hl)
  · intro i; cases h : mget i s.buses <;> simp [runScl, h, lastSda]
  · intro l' hl'
    rw [hl] at hl'; cases hl'
    refine ⟨l.rx, by simp [runScl, lastScl], fun _ _ => rfl, fun p => ?_⟩
    constructor
    · exact Or.inl
    · rintro (h | ⟨k, i, h, -, hk⟩)
      · exact h
      · cases k <;> simp at hk
  · intro hn; rw [hl] at hn; cases hn

theorem runSda_moved {c : LineId} {l : ClockLine} {i : Nat} {v : Bit} {h : Hint} {s : State}
    (hl : mget c s.lines = some l) : Moved c [.sda i v h] s (runSda c l i v s) := by
  obtain ⟨bs, hbs⟩ := setWireSda_frame i v (s.putLine c { l with qhead := l.qhead + 1 })
  have hb := fun j => setWireSda_bus i j v (s.putLine c { l with qhead := l.qhead + 1 })
  have hmaps : MapsOk s → MapsOk (runSda c l i v s) := fun hm =>
    MapsOk.setWireSda (MapsOk.putLine (l := { l with qhead := l.qhead + 1 }) hm c (mem_lines_rx (l := l) hm hl)) i v
  unfold runSda at hmaps ⊢
  rw [hbs] at hb hmaps ⊢
  constructor
  · refine ⟨⟨rfl, rfl, rfl, rfl, rfl, rfl, rfl, rfl, rfl, rfl, rfl⟩, fun d hd => ?_, fun _ _ => rfl⟩
    simp [mget_mset_other _ hd]
  · rfl
  · rfl
  · exact hmaps
  · intro j; rw [hb, putLine_buses]; cases mget j s.buses <;> simp [lastSda]
  · intro l' hl'
    rw [hl] at hl'; cases hl'
    refine ⟨l.rx, by simp [lastScl], fun _ _ => rfl, fun p => ?_⟩
    constructor
    · exact Or.inl
    · rintro (h | ⟨k, i, h, -, hk⟩)
      · exact h
      · cases k <;> simp at hk
  · intro hn; rw [hl] at hn; cases hn

theorem runSmp_moved {c : LineId} {l : ClockLine} {i : Nat} {v : Bit} {h : Hint} {s : State}
    (hl : mget c s.lines = some l) : Moved c [.smp i h] s (runSmp c l i v s) := by
  constructor
  · refine ⟨⟨rfl, rfl, rfl, rfl, rfl, rfl, rfl, rfl, rfl, rfl, rfl⟩, fun d hd => ?_, fun _ _ => rfl⟩
    simp [runSmp, mget_mset_other _ hd]
  · rfl
  · rfl
  · exact fun hm => MapsOk.putLine hm c (mwf_mset natLt_keyOrder _ _ (mem_lines_rx (l := l) hm hl))
  · intro j; cases hj : mget j s.buses <;> simp [runSmp, hj, lastSda]
  · intro l' hl'
    rw [hl] at hl'; cases hl'
    refine ⟨_, by simp only [runSmp, putLine_lines, mget_mset_same, lastScl]; rfl,
      fun p hp => mget_mset_other _ (by omega) _ _, fun p => ?_⟩
    rw [mget_mset]
    split
    · next hp => subst hp; simp only [Option.isSome_some, true_iff]; exact Or.inr ⟨0, i, h, by simp⟩
    · next hp =>
      constructor
      · exact Or.inl
      · rintro (h | ⟨k, i', h', rfl, hk⟩)
        · exact h
        · cases k with
          | zero => exact absurd rfl hp
          | succ k => simp at hk
  · intro hn; rw [hl] at hn; cases hn

/-- A change of the draws alone. -/
theorem drawSlave_moved (c : LineId) (s : State) : Moved c [] s (drawSlave c s).2 := by
  obtain ⟨env, h1, h2, h3, h4, h5, h6, h7, -, h9⟩ := drawSlave_spec c s
  rw [h1]
  constructor
  · exact ⟨⟨rfl, rfl, rfl, rfl, rfl, rfl, rfl, rfl, h2, h3, h5⟩, fun _ _ => rfl, h6⟩
  · exact h4
  · rfl
  · rintro ⟨m1, m2, m3, m4, m5, m6, m7, m8⟩
    refine ⟨m1, m2, m3, m4, h9 m5, ?_, ?_, ?_⟩
    · simp only [h3]; exact m6
    · simp only [h4]; exact m7
    · simp only [h5]; exact m8
  · intro i; cases mget i s.buses <;> simp [lastSda]
  · intro l hl; exact ⟨l.rx, by simpa [lastScl] using hl, fun _ _ => rfl, by simp⟩
  · exact id

theorem runEntry_ran (c : LineId) (e : Entry) (s : State) (hl : (mget c s.lines).isSome = true) :
    Ran c [e] s (runEntry c e s) := by
  obtain ⟨l, hl⟩ := Option.isSome_iff_exists.mp hl
  cases e with
  | scl v h =>
    have ht : runEntry c (.scl v h) s = runScl c l v s := by simp only [runEntry, hl]
    rw [ht]
    exact ⟨runScl_moved hl, by simp [runScl, sampleCount, scriptOf]⟩
  | sda i v h =>
    have ht : runEntry c (.sda i v h) s = runSda c l i v s := by simp only [runEntry, hl]
    rw [ht]
    refine ⟨runSda_moved hl, ?_⟩
    obtain ⟨bs, hbs⟩ := setWireSda_frame i v (s.putLine c { l with qhead := l.qhead + 1 })
    rw [runSda, hbs]
    simp [sampleCount, scriptOf]
  | smp i h =>
    have ht : runEntry c (.smp i h) s = runSmp c l i (drawSlave c s).1 (drawSlave c s).2 := by simp only [runEntry, hl]
    obtain ⟨env, h1, h2, h3, h4, h5, h6, h7, -, -⟩ := drawSlave_spec c s
    have hl' : mget c (drawSlave c s).2.lines = some l := by rw [h1]; exact hl
    rw [ht]
    refine ⟨(drawSlave_moved c s).append (runSmp_moved (h := h) hl'), ?_⟩
    have : scriptOf c (runSmp c l i (drawSlave c s).1 (drawSlave c s).2) = (mget c env.slave).getD [] := by
      rw [h1]; rfl
    rw [this, h7]; simp [sampleCount]

theorem runEntries_ran (c : LineId) (es : List Entry) (s : State) (hl : (mget c s.lines).isSome = true) :
    Ran c es s (runEntries c es s) := by
  induction es generalizing s with
  | nil => exact Ran.nil c s
  | cons e es ih =>
    have h1 := runEntry_ran c e s hl
    have h2 : (mget c (runEntry c e s).lines).isSome = true := by
      obtain ⟨l, hl⟩ := Option.isSome_iff_exists.mp hl
      obtain ⟨rx, h, -⟩ := h1.line l hl
      simp [h]
    exact Ran.append h1 (ih _ h2)

/-! ### Steps of the executor -/

theorem autoStep_eq {c : LineId} {s : State} {l : ClockLine} {e : Entry} (hl : mget c s.lines = some l)
    (he : l.tq[l.qhead]? = some e) : autoStep c s = runEntry c e s := by
  simp only [autoStep, headEntry, hl, he, runEntry]
  cases e <;> rfl

theorem autoSteps_eq {c : LineId} {s : State} {l : ClockLine} (hl : mget c s.lines = some l) (es fs : List Entry)
    (hes : l.tq.drop l.qhead = es ++ fs) : autoSteps c es.length s = runEntries c es s := by
  induction es generalizing s l with
  | nil => rfl
  | cons e es ih =>
    have he : l.tq[l.qhead]? = some e := by
      have := congrArg (·[0]?) hes
      simpa using this
    obtain ⟨rx, h1, -⟩ := (runEntry_ran c e s (by simp [hl])).line l hl
    simp only [List.length_cons, autoSteps, runEntries, autoStep_eq hl he]
    refine ih h1 ?_
    have h2 := congrArg (List.drop 1) hes
    rw [List.drop_drop] at h2
    simpa [Nat.add_comm] using h2

/-! ### Waits: runs over several clock lines -/

/-- What a run of executors changes, `ran d` being the entries of clock line `d` that ran, and what their samples received:
nothing else changes. -/
structure Executes (ran : LineId → List Entry) (s t : State) : Prop where
  only : OnlyBuses s t
  swLast : t.env.swLast = s.env.swLast
  result : t.result = s.result
  none : ∀ d, mget d s.lines = none → mget d t.lines = none ∧ ran d = []
  line : ∀ d l, mget d s.lines = some l → ran d <+: l.tq.drop l.qhead ∧ ∃ rx,
    mget d t.lines = some { l with wScl := lastScl l.wScl (ran d), qhead := l.qhead + (ran d).length, rx := rx } ∧
    (∀ p, p < l.qhead → mget p rx = mget p l.rx) ∧
    ∀ i b k h, mget i s.buses = some b → b.scl = d → (ran d)[k]? = some (.smp i h) →
      ∃ v, mget (l.qhead + k) rx = some (lastSda i b.wSda ((ran d).take k) && v) ∧
        ∀ x, (scriptOf d s)[sampleCount ((ran d).take k)]? = some x → v = x
  bus : ∀ i, mget i t.buses = (mget i s.buses).map (fun b => { b with wSda := lastSda i b.wSda (ran b.scl) })
  script : ∀ d, scriptOf d t = (scriptOf d s).drop (sampleCount (ran d))

theorem Executes.refl (s : State) : Executes (fun _ => []) s s where
  only := OnlyBuses.refl s
  swLast := rfl
  result := rfl
  none d h := ⟨h, rfl⟩
  line d l hl := ⟨List.nil_prefix, l.rx, hl, fun _ _ => rfl, fun _ _ _ _ _ _ hk => by simp at hk⟩
  bus i := by cases mget i s.buses <;> simp [lastSda]
  script d := by simp [sampleCount]

theorem Executes.trans {r q : LineId → List Entry} {s t u : State} (h : Executes r s t) (k : Executes q t u) :
    Executes (fun d => r d ++ q d) s u where
  only := h.only.trans k.only
  swLast := k.swLast.trans h.swLast
  result := k.result.trans h.result
  none d hd := by
    obtain ⟨h1, h2⟩ := h.none d hd
    obtain ⟨k1, k2⟩ := k.none d h1
    exact ⟨k1, by simp [h2, k2]⟩
  line d l hl := by
    obtain ⟨⟨w, hw⟩, rx, h2, h3, h4⟩ := h.line d l hl
    obtain ⟨⟨z, hz⟩, rx', k2, k3, k4⟩ := k.line d _ h2
    refine ⟨⟨z, ?_⟩, rx', ?_, fun p hp => ?_, fun i b n x hb hd hn => ?_⟩
    · have : w = q d ++ z := by
        have hz : q d ++ z = l.tq.drop (l.qhead + (r d).length) := hz
        rw [hz, ← List.drop_drop, ← hw, List.drop_left]
      rw [← hw, this, List.append_assoc]
    · rw [k2]; simp [lastScl_append, Nat.add_assoc]
    · rw [k3 p (by simp only []; omega), h3 p hp]
    · rcases Nat.lt_or_ge n (r d).length with hlt | hge
      · rw [List.getElem?_append_left hlt] at hn
        obtain ⟨v, v1, v2⟩ := h4 i b n x hb hd hn
        rw [List.take_append_of_le_length (Nat.le_of_lt hlt)]
        exact ⟨v, by rw [k3 _ (by simp only []; omega)]; exact v1, v2⟩
      · rw [List.getElem?_append_right hge] at hn
        have hb' := h.bus i
        rw [hb] at hb'
        obtain ⟨v, v1, v2⟩ := k4 i _ _ x hb' hd hn
        have htake : (r d ++ q d).take n = r d ++ (q d).take (n - (r d).length) := by
          rw [List.take_append, List.take_of_length_le hge]
        refine ⟨v, ?_, fun y hy => v2 y ?_⟩
        · rw [htake, lastSda_append]
          have : l.qhead + (r d).length + (n - (r d).length) = l.qhead + n := by omega
          rw [← hd] at v1 ⊢
          rw [← hd] at this
          rw [← this]
          exact v1
        · rw [htake, sampleCount_append] at hy
          rw [h.script d, List.getElem?_drop]; exact hy
  bus i := by rw [k.bus, h.bus]; cases mget i s.buses <;> simp [lastSda_append]
  script d := by rw [k.script, h.script, sampleCount_append, List.drop_drop]

/-- Executors move no entry and no bus to another clock line. -/
theorem Executes.entriesOk {r : LineId → List Entry} {s t : State} (h : Executes r s t) (hs : EntriesOk s) :
    EntriesOk t := by
  intro c l' hl' j v x hm
  cases hl : mget c s.lines with
  | none => rw [(h.none c hl).1] at hl'; cases hl'
  | some l =>
    obtain ⟨-, rx, h2, -⟩ := h.line c l hl
    rw [h2] at hl'; cases hl'
    obtain ⟨b, hb, hc⟩ := hs c l hl j v x hm
    exact ⟨{ b with wSda := lastSda j b.wSda (r b.scl) }, by rw [h.bus j, hb]; rfl, hc⟩

/-- Entries that name no bus `j` leave its data wire alone. -/
theorem lastSda_unnamed {j : Nat} {es : List Entry} (h : ∀ k v x, .sda k v x ∈ es → k ≠ j) (v : Bit) :
    lastSda j v es = v := by
  induction es generalizing v with
  | nil => rfl
  | cons e es ih =>
    have ih := ih (fun k v x hm => h k v x (List.mem_cons_of_mem _ hm))
    cases e with
    | scl w x => exact ih v
    | sda k w x => simp [lastSda, h k w x List.mem_cons_self, ih]
    | smp k x => exact ih v

/-- One entry of clock line `c` has run. -/
theorem runEntry_executes {c : LineId} {e : Entry} {s : State} {l : ClockLine} (hs : EntriesOk s)
    (hl : mget c s.lines = some l) (he : l.tq[l.qhead]? = some e) :
    Executes (fun d => if d = c then [e] else []) s (runEntry c e s) := by
  have r := runEntry_ran c e s (by simp [hl])
  obtain ⟨hlt, hget⟩ := List.getElem?_eq_some_iff.mp he
  have hpre : [e] <+: l.tq.drop l.qhead := by rw [List.drop_eq_getElem_cons hlt, hget]; exact ⟨_, rfl⟩
  refine ⟨r.only.1, r.swLast, r.result, fun d hd => ?_, fun d k hk => ?_, fun i => ?_, fun d => ?_⟩
  · have hdc : d ≠ c := by rintro rfl; rw [hl] at hd; cases hd
    exact ⟨by rw [r.only.2.1 d hdc]; exact hd, by simp [hdc]⟩
  · by_cases hdc : d = c
    · subst hdc
      rw [hl] at hk; cases hk
      obtain ⟨rx, h1, h2, -⟩ := r.line l hl
      simp only [if_true]
      refine ⟨hpre, rx, h1, h2, fun i b n x hb hd hn => ?_⟩
      cases n with
      | succ n => simp at hn
      | zero =>
        simp only [List.getElem?_cons_zero, Option.some.injEq] at hn
        subst hn
        obtain ⟨env, e1, -, -, -, -, -, -, e8, -⟩ := drawSlave_spec d s
        refine ⟨(drawSlave d s).1, ?_, fun y hy => ?_⟩
        · have h0 : mget d (runEntry d (.smp i x) s).lines = some { l with
              qhead := l.qhead + 1, rx := mset natLt l.qhead (b.wSda && (drawSlave d s).1) l.rx } := by
            simp only [runEntry, hl, runSmp, e1, putLine_lines, mget_mset_same]
            simp [wireSda, hb]
          rw [h0] at h1
          have hrx := congrArg ClockLine.rx (Option.some.inj h1)
          simp only at hrx
          rw [← hrx]; simp [lastSda]
        · cases hsc : scriptOf d s with
          | nil => simp [hsc] at hy
          | cons z zs =>
            rw [e8 z zs hsc]
            simpa [hsc, sampleCount] using hy
    · simp only [if_neg hdc]
      exact ⟨List.nil_prefix, k.rx, by rw [r.only.2.1 d hdc]; exact hk, fun _ _ => rfl,
        fun _ _ _ _ _ _ hn => by simp at hn⟩
  · rw [r.bus i]
    cases hb : mget i s.buses with
    | none => rfl
    | some b =>
      by_cases hc : b.scl = c
      · simp [hc]
      · have hun : ∀ k v x, .sda k v x ∈ [e] → k ≠ i := by
          rintro k v x hm rfl
          obtain ⟨b', hb', hc'⟩ := hs c l hl k v x (List.drop_subset _ _ (hpre.subset hm))
          rw [hb] at hb'; cases hb'; exact hc hc'
        simp [hc, lastSda_unnamed hun, lastSda]
  · by_cases hdc : d = c
    · subst hdc; simpa using r.script
    · simp [hdc, scriptOf, r.only.2.2 d hdc, sampleCount]

/-- A step of one executor: its next entry runs, if there is one. -/
theorem autoStep_executes (c : LineId) {s : State} (hs : EntriesOk s) :
    ∃ ran, Executes ran s (autoStep c s) ∧ (∀ d, d ≠ c → ran d = []) ∧
      ∀ l, mget c s.lines = some l → l.qhead < l.tq.length → (ran c).length = 1 := by
  cases hl : mget c s.lines with
  | none =>
    have : autoStep c s = s := by simp [autoStep, headEntry, hl]
    rw [this]
    exact ⟨_, Executes.refl s, fun _ _ => rfl, fun _ h => by cases h⟩
  | some l =>
    cases he : l.tq[l.qhead]? with
    | none =>
      have : autoStep c s = s := by simp [autoStep, headEntry, hl, he]
      rw [this]
      refine ⟨_, Executes.refl s, fun _ _ => rfl, fun k hk hlt => ?_⟩
      cases hk
      rw [List.getElem?_eq_none_iff] at he; omega
    | some e =>
      rw [autoStep_eq hl he]
      exact ⟨_, runEntry_executes hs hl he, fun d hd => by simp [hd], fun _ _ _ => by simp⟩

theorem drawBeside_spec (s : State) :
    ∃ env, (drawBeside s).2 = { s with env := env } ∧ env.port = s.env.port ∧ env.slave = s.env.slave ∧
      env.hw = s.env.hw ∧ env.swLast = s.env.swLast ∧ env.hwLast = s.env.hwLast := by
  unfold drawBeside
  split
  · exact ⟨_, rfl, rfl, rfl, rfl, rfl, rfl⟩
  · exact ⟨_, rfl, rfl, rfl, rfl, rfl, rfl⟩

theorem runBeside_executes (c : LineId) (ds : List LineId) {s : State} (hs : EntriesOk s) :
    ∃ ran, Executes ran s (runBeside c ds s) ∧ ran c = [] := by
  induction ds generalizing s with
  | nil => exact ⟨_, Executes.refl s, rfl⟩
  | cons d ds ih =>
    simp only [runBeside]
    split
    · exact ih hs
    · next hdc =>
      obtain ⟨r, h1, h2, -⟩ := autoStep_executes d hs
      obtain ⟨q, k1, k2⟩ := ih (h1.entriesOk hs)
      exact ⟨_, h1.trans k1, by simp [h2 c (Ne.symm hdc), k2]⟩

/-- The other clock lines run some of their entries, `c` none. -/
theorem letOthersRun_executes (c : LineId) {s : State} (hs : EntriesOk s) :
    ∃ ran, Executes ran s (letOthersRun c s) ∧ ran c = [] := by
  unfold letOthersRun
  split
  · obtain ⟨env, e1, e2, e3, e4, e5, e6⟩ := drawBeside_spec s
    rw [e1]
    have h0 : Executes (fun _ => []) s { s with env := env } :=
      { Executes.refl s with
        only := ⟨rfl, rfl, rfl, rfl, rfl, rfl, rfl, rfl, e2, e4, e6⟩
        swLast := e5
        script := fun d => by simp [scriptOf, e3, sampleCount] }
    obtain ⟨q, k1, k2⟩ := runBeside_executes c (drawBeside s).1 (h0.entriesOk hs)
    exact ⟨_, h0.trans k1, by simp [k2]⟩
  · exact ⟨_, Executes.refl s, rfl⟩

theorem autoStep_only (c : LineId) (s : State) : OnlyBuses s (autoStep c s) := by
  cases hl : mget c s.lines with
  | none => simp [autoStep, headEntry, hl, OnlyBuses.refl]
  | some l =>
    cases he : l.tq[l.qhead]? with
    | none => simp [autoStep, headEntry, hl, he, OnlyBuses.refl]
    | some e => rw [autoStep_eq hl he]; exact (runEntry_ran c e s (by simp [hl])).only.1

theorem letOthersRun_only (c : LineId) (s : State) : OnlyBuses s (letOthersRun c s) := by
  have hrun : ∀ (ds : List LineId) (s : State), OnlyBuses s (runBeside c ds s) := by
    intro ds
    induction ds with
    | nil => exact OnlyBuses.refl
    | cons d ds ih =>
      intro s
      simp only [runBeside]
      split
      · exact ih s
      · exact (autoStep_only d s).trans (ih _)
  unfold letOthersRun
  split
  · obtain ⟨env, e1, e2, -, e4, -, e6⟩ := drawBeside_spec s
    refine OnlyBuses.trans ?_ (hrun _ _)
    rw [e1]; exact ⟨rfl, rfl, rfl, rfl, rfl, rfl, rfl, rfl, e2, e4, e6⟩
  · exact OnlyBuses.refl s

/-- In every state, a wait changes only clock lines, buses and draws. -/
theorem waitSteps_only (c : LineId) (k : Nat) (s : State) : OnlyBuses s (waitSteps c k s) := by
  induction k generalizing s with
  | zero => exact OnlyBuses.refl s
  | succ k ih => exact ((letOthersRun_only c s).trans (autoStep_only c _)).trans (ih _)

/-- A wait of `k` steps on `c` runs its next `k` entries, and any entries of the other clock lines meanwhile. -/
theorem waitSteps_executes (c : LineId) (k : Nat) {s : State} {l : ClockLine} (hs : EntriesOk s)
    (hl : mget c s.lines = some l) (hk : k ≤ l.tq.length - l.qhead) :
    ∃ ran, Executes ran s (waitSteps c k s) ∧ (ran c).length = k := by
  induction k generalizing s l with
  | zero => exact ⟨_, Executes.refl s, rfl⟩
  | succ k ih =>
    obtain ⟨r, h1, h2⟩ := letOthersRun_executes c hs
    obtain ⟨-, rx, hl1, -⟩ := h1.line c l hl
    have hs1 := h1.entriesOk hs
    obtain ⟨q, q1, -, q3⟩ := autoStep_executes c hs1
    have hq := q3 _ hl1 (by simp only [h2, List.length_nil]; omega)
    obtain ⟨-, rx', hl2, -⟩ := q1.line c _ hl1
    obtain ⟨w, w1, w2⟩ := ih (q1.entriesOk hs1) hl2 (by simp only [h2, hq, List.length_nil]; omega)
    exact ⟨_, (h1.trans q1).trans w1, by simp [h2, hq, w2]; omega⟩

/-- The wait of a read runs every pending entry of its clock line. -/
theorem drain_executes {c : LineId} {s : State} {l : ClockLine} (hs : EntriesOk s) (hl : mget c s.lines = some l) :
    ∃ ran, Executes ran s (drain c s) ∧ ran c = l.tq.drop l.qhead := by
  obtain ⟨ran, h1, h2⟩ := waitSteps_executes c (l.tq.length - l.qhead) hs hl (Nat.le_refl _)
  refine ⟨ran, by simpa [drain, pending, hl] using h1, ?_⟩
  obtain ⟨hp, -⟩ := h1.line c l hl
  exact hp.eq_of_length (by rw [h2, List.length_drop])

/-- The entries that ran are those between the two queue heads. -/
theorem Executes.executed {r : LineId → List Entry} {s t : State} (h : Executes r s t) (c : LineId) :
    executed c s t = r c := by
  unfold Machine.executed
  cases hl : mget c s.lines with
  | none => rw [(h.none c hl).2]
  | some l =>
    obtain ⟨⟨w, hw⟩, rx, h2, -⟩ := h.line c l hl
    simp only [h2, Nat.add_sub_cancel_left, ← hw]
    exact List.take_left

/-- What one clock line has done in a run of executors. -/
theorem Executes.lineRan {r : LineId → List Entry} {s t : State} (h : Executes r s t) {c : LineId} {l : ClockLine}
    (hl : mget c s.lines = some l) (hq : l.qhead ≤ l.tq.length) : ∃ m l', mget c t.lines = some l' ∧ LineRan m l l' := by
  obtain ⟨⟨w, hw⟩, rx, h2, h3, -⟩ := h.line c l hl
  refine ⟨(r c).length, _, h2, ?_, rx, ?_, h3⟩
  · have := congrArg List.length hw
    simp only [List.length_append, List.length_drop] at this
    omega
  · rw [← hw, List.take_left]

/-! ### What the samples of a read receive -/

/-- Reassembling the bits of a byte gives the byte. -/
theorem byteOfBits_bitsOfByte (x : Byte) : byteOfBits (bitsOfByte x) = x := by
  revert x; decide

theorem bitsOfByte_length (x : Byte) : (bitsOfByte x).length = 8 := rfl

/-- The samples of a receive cell: where they stand, the data wire released before each. -/
theorem rxCell_sample (i : Nat) (h : Hint) (last : Bool) (k : Nat) (hk : k < 8) :
    (rxCellEntries i h last)[3 * k + 1]? = some (.smp i h) ∧
    lastSda i true ((rxCellEntries i h last).take (3 * k + 1)) = true ∧
    sampleCount ((rxCellEntries i h last).take (3 * k + 1)) = k := by
  have : k = 0 ∨ k = 1 ∨ k = 2 ∨ k = 3 ∨ k = 4 ∨ k = 5 ∨ k = 6 ∨ k = 7 := by omega
  rcases this with rfl | rfl | rfl | rfl | rfl | rfl | rfl | rfl <;>
    simp [rxCellEntries, sampleEntries, lastSda, sampleCount]

theorem rxCell_whole (i : Nat) (h : Hint) (last : Bool) :
    (rxCellEntries i h last).length = (if last then 26 else 28) ∧
    lastSda i true (rxCellEntries i h last) = true ∧ sampleCount (rxCellEntries i h last) = 8 := by
  cases last <;> simp [rxCellEntries, sampleEntries, pulseEntries, lastSda, sampleCount]

/-- The samples of the receive cells of a read: sample `k` of byte `j`. -/
theorem rxCells_sample (i : Nat) (h : Hint) (n j k : Nat) (hj : j < n) (hk : k < 8) :
    (rxCellsEntries i h n)[28 * j + (3 * k + 1)]? = some (.smp i h) ∧
    lastSda i true ((rxCellsEntries i h n).take (28 * j + (3 * k + 1))) = true ∧
    sampleCount ((rxCellsEntries i h n).take (28 * j + (3 * k + 1))) = 8 * j + k := by
  induction n generalizing j with
  | zero => omega
  | succ n ih =>
    obtain ⟨w1, w2, w3⟩ := rxCell_whole i h (n == 0)
    have hlen : 26 ≤ (rxCellEntries i h (n == 0)).length := by rw [w1]; split <;> omega
    rw [rxCellsEntries]
    cases j with
    | zero =>
      obtain ⟨c1, c2, c3⟩ := rxCell_sample i h (n == 0) k hk
      simp only [Nat.mul_zero, Nat.zero_add]
      rw [List.getElem?_append_left (by omega), List.take_append_of_le_length (by omega)]
      exact ⟨c1, c2, c3⟩
    | succ j =>
      have hn : (n == 0) = false := by simp; omega
      rw [hn] at w1 w2 w3 ⊢
      simp only [Bool.false_eq_true, if_false] at w1
      obtain ⟨i1, i2, i3⟩ := ih j (by omega)
      have hpos : 28 * (j + 1) + (3 * k + 1) - (rxCellEntries i h false).length = 28 * j + (3 * k + 1) := by
        rw [w1]; omega
      rw [List.getElem?_append_right (by omega), List.take_append, List.take_of_length_le (by omega), hpos,
        lastSda_append, sampleCount_append, w2, w3]
      exact ⟨i1, i2, by rw [i3]; omega⟩

/-- Positions that hold bits give their bits. -/
theorem rxBitsAt_some {rx : List (Nat × Bit)} (p : Nat) (f : Nat → Bit)
    (h : ∀ k, k < 8 → mget (p + (3 * k + 1)) rx = some (f k)) :
    rxBitsAt rx (samplePositions p) = some [f 0, f 1, f 2, f 3, f 4, f 5, f 6, f 7] := by
  simp only [samplePositions, rxBitsAt, show mget (p + 1) rx = some (f 0) from h 0 (by omega),
    show mget (p + 4) rx = some (f 1) from h 1 (by omega), show mget (p + 7) rx = some (f 2) from h 2 (by omega),
    show mget (p + 10) rx = some (f 3) from h 3 (by omega), show mget (p + 13) rx = some (f 4) from h 4 (by omega),
    show mget (p + 16) rx = some (f 5) from h 5 (by omega), show mget (p + 19) rx = some (f 6) from h 6 (by omega),
    show mget (p + 22) rx = some (f 7) from h 7 (by omega)]

/-- The byte whose bits are `f 0` to `f 7`, first sampled first. -/
def byteFrom (f : Nat → Bit) : Byte := byteOfBits [f 0, f 1, f 2, f 3, f 4, f 5, f 6, f 7]

/-- The bytes read back from the samples of the receive cells of a read. -/
theorem rxBytesAt_some {rx : List (Nat × Bit)} (n p : Nat) (f : Nat → Nat → Bit)
    (h : ∀ j k, j < n → k < 8 → mget (p + (28 * j + (3 * k + 1))) rx = some (f j k)) :
    rxBytesAt rx (cellPositions n p) = some ((List.range n).map fun j => byteFrom (f j)) := by
  induction n generalizing p f with
  | zero => rfl
  | succ n ih =>
    have h1 := rxBitsAt_some (rx := rx) p (f 0) (fun k hk => by simpa using h 0 k (by omega) hk)
    have h2 := ih (p + 28) (fun j => f (j + 1)) (fun j k hj hk => by
      have := h (j + 1) k (by omega) hk
      rwa [show p + (28 * (j + 1) + (3 * k + 1)) = p + 28 + (28 * j + (3 * k + 1)) by omega] at this)
    simp only [cellPositions, rxBytesAt, h1, h2, List.range_succ_eq_map, List.map_cons, List.map_map]
    rfl

/-- A byte of a list of bytes, bit by bit. -/
theorem flatMap_bits (ys : List Byte) (rest : List Bit) (j k : Nat) (hj : j < ys.length) (hk : k < 8) :
    (ys.flatMap bitsOfByte ++ rest)[8 * j + k]? = (bitsOfByte ys[j])[k]? := by
  induction ys generalizing j with
  | nil => simp at hj
  | cons y ys ih =>
    simp only [List.flatMap_cons, List.append_assoc]
    cases j with
    | zero => rw [List.getElem?_append_left (by simp [bitsOfByte_length]; omega)]; simp
    | succ j =>
      rw [List.getElem?_append_right (by simp [bitsOfByte_length]; omega), bitsOfByte_length,
        show 8 * (j + 1) + k - 8 = 8 * j + k by omega, ih j (by simpa using hj)]
      simp

theorem byteFrom_bits (f : Nat → Bit) (y : Byte) (h : ∀ k, k < 8 → (bitsOfByte y)[k]? = some (f k)) :
    byteFrom f = y := by
  rw [← byteOfBits_bitsOfByte y, byteFrom]
  congr 1
  have e0 : y.getLsbD 7 = f 0 := Option.some.inj (h 0 (by omega))
  have e1 : y.getLsbD 6 = f 1 := Option.some.inj (h 1 (by omega))
  have e2 : y.getLsbD 5 = f 2 := Option.some.inj (h 2 (by omega))
  have e3 : y.getLsbD 4 = f 3 := Option.some.inj (h 3 (by omega))
  have e4 : y.getLsbD 3 = f 4 := Option.some.inj (h 4 (by omega))
  have e5 : y.getLsbD 2 = f 5 := Option.some.inj (h 5 (by omega))
  have e6 : y.getLsbD 1 = f 6 := Option.some.inj (h 6 (by omega))
  have e7 : y.getLsbD 0 = f 7 := Option.some.inj (h 7 (by omega))
  rw [← e0, ← e1, ← e2, ← e3, ← e4, ← e5, ← e6, ← e7]
  rfl

end Sys2Proof.Machine
end

