-- ==== Sys2Proof/Laws/BusOps.lean ====
section
/-! SUPPORT. One lemma for each of `busWrite`, `busRead` and `memRead`: what it does where it succeeds, and when it does. -/

namespace Sys2Proof.Machine

/-! ### Facts about the frames -/

theorem lastSda_samples (j i : Nat) (h : Hint) (k : Nat) (v : Bit) : lastSda j v (sampleEntries i h k) = v := by
  induction k generalizing v with
  | zero => rfl
  | succ k ih => simp [sampleEntries, lastSda, ih]

/-- A frame of bus `i` names no other bus. -/
theorem lastSda_bitEntries (j i : Nat) (h : Hint) (hij : i ≠ j) (bs : List Bit) (lvl v : Bit) :
    lastSda j v (bitEntries i h lvl bs) = v := by
  induction bs generalizing lvl v with
  | nil => rfl
  | cons b bs ih =>
    rw [bitEntries, lastSda_append, lastSda_append, ih]
    split <;> simp [pulseEntries, lastSda, hij]

theorem lastSda_cellEntries (j i : Nat) (h : Hint) (hij : i ≠ j) (lvl v : Bit) (x : Byte) :
    lastSda j v (cellEntries i h lvl x) = v := by
  simp [cellEntries, lastSda_append, lastSda_bitEntries j i h hij, pulseEntries, lastSda]

theorem lastSda_cellsEntries (j i : Nat) (h : Hint) (hij : i ≠ j) (xs : List Byte) (lvl v : Bit) :
    lastSda j v (cellsEntries i h lvl xs) = v := by
  induction xs generalizing lvl v with
  | nil => rfl
  | cons x xs ih => simp [cellsEntries, lastSda_append, lastSda_cellEntries j i h hij, ih]

theorem lastSda_rxCells (j i : Nat) (h : Hint) (hij : i ≠ j) (n : Nat) (v : Bit) :
    lastSda j v (rxCellsEntries i h n) = v := by
  induction n generalizing v with
  | zero => rfl
  | succ n ih =>
    rw [rxCellsEntries, lastSda_append, rxCellEntries, lastSda_append, lastSda_samples]
    cases (n == 0) <;> simp [pulseEntries, lastSda, hij, ih]

theorem lastSda_stop (j i : Nat) (h : Hint) (hij : i ≠ j) (p : Bool) (v : Bit) :
    lastSda j v (stopEntries p i h) = v := by
  cases p <;> simp [stopEntries, lastSda, hij]

theorem lastSda_writeEntries (j i : Nat) (h : Hint) (hij : i ≠ j) (p : Bool) (ab : Byte) (xs : List Byte) (v : Bit) :
    lastSda j v (writeEntries p i h ab xs) = v := by
  rw [writeEntries, lastSda_append, lastSda_append, lastSda_stop j i h hij, lastSda_cellsEntries j i h hij]
  simp [startEntries, lastSda, hij]

theorem readEntries_split (p : Params) (i : Nat) (h : Hint) (ab : Byte) (n : Nat) :
    readEntries p i h ab n = readHeadEntries p i h ab ++ rxCellsEntries i h n ++
      ([.sda i true h] ++ stopEntries p.stopPrelow i h) := by
  simp [readEntries, readHeadEntries]

theorem lastSda_readEntries (j i : Nat) (h : Hint) (hij : i ≠ j) (p : Params) (ab : Byte) (n : Nat) (v : Bit) :
    lastSda j v (readEntries p i h ab n) = v := by
  cases hp : p.rdAddrStop <;>
    simp [readEntries, hp, lastSda_append, lastSda_stop j i h hij, lastSda_rxCells j i h hij,
      lastSda_cellEntries j i h hij, startEntries, lastSda, hij]

theorem lastSda_stop_self (i : Nat) (h : Hint) (p : Bool) (v : Bit) : lastSda i v (stopEntries p i h) = true := by
  cases p <;> simp [stopEntries, lastSda]

theorem lastScl_stop (i : Nat) (h : Hint) (p : Bool) (v : Bit) : lastScl v (stopEntries p i h) = true := by
  cases p <;> simp [stopEntries, lastScl]

/-- Every frame ends with both lines of its bus at 1. -/
theorem lastSda_readEntries_self (i : Nat) (h : Hint) (p : Params) (ab : Byte) (n : Nat) (v : Bit) :
    lastSda i v (readEntries p i h ab n) = true := by
  rw [readEntries, lastSda_append, lastSda_stop_self]

theorem lastScl_readEntries (i : Nat) (h : Hint) (p : Params) (ab : Byte) (n : Nat) (v : Bit) :
    lastScl v (readEntries p i h ab n) = true := by
  rw [readEntries, lastScl_append, lastScl_stop]

theorem lastSda_writeEntries_self (i : Nat) (h : Hint) (p : Bool) (ab : Byte) (xs : List Byte) (v : Bit) :
    lastSda i v (writeEntries p i h ab xs) = true := by
  rw [writeEntries, lastSda_append, lastSda_stop_self]

theorem lastScl_writeEntries (i : Nat) (h : Hint) (p : Bool) (ab : Byte) (xs : List Byte) (v : Bit) :
    lastScl v (writeEntries p i h ab xs) = true := by
  rw [writeEntries, lastScl_append, lastScl_stop]

/-- Sending a cell leaves the data wire at the last bit of its byte. -/
theorem lastSda_bitEntries_self (i : Nat) (h : Hint) (bs : List Bit) (lvl : Bit) :
    lastSda i lvl (bitEntries i h lvl bs) = lastLevel lvl bs := by
  induction bs generalizing lvl with
  | nil => rfl
  | cons b bs ih =>
    rw [bitEntries, lastSda_append, lastSda_append]
    have : lastSda i (lastSda i lvl (if b = lvl then [] else [.sda i b h])) (pulseEntries h) = b := by
      by_cases hb : b = lvl <;> simp [hb, pulseEntries, lastSda]
    rw [this, ih, lastLevel_cons]

/-- The line is released when the first sample of a read is taken. -/
theorem lastSda_readHead (i : Nat) (h : Hint) (p : Params) (a : BitVec 7) (v : Bit) :
    lastSda i v (readHeadEntries p i h (addrByte a true)) = true := by
  have hcell : lastSda i false (cellEntries i h false (addrByte a true)) = true := by
    rw [cellEntries, lastSda_append, lastSda_bitEntries_self]
    have : (addrByte a true).getLsbD 0 = true := by simpa using addrByte_bit0 a true
    simp [pulseEntries, lastSda, bitsOfByte, lastLevel, addrByte_bit0]
  simp only [readHeadEntries, lastSda_append, startEntries, lastSda, if_true, hcell]
  split <;> simp [lastSda_stop_self, lastSda]

theorem sampleCount_bitEntries (i : Nat) (h : Hint) (bs : List Bit) (lvl : Bit) :
    sampleCount (bitEntries i h lvl bs) = 0 := by
  induction bs generalizing lvl with
  | nil => rfl
  | cons b bs ih =>
    rw [bitEntries, sampleCount_append, sampleCount_append, ih]
    split <;> simp [pulseEntries, sampleCount]

theorem sampleCount_readHead (i : Nat) (h : Hint) (p : Params) (ab : Byte) :
    sampleCount (readHeadEntries p i h ab) = 0 := by
  simp only [readHeadEntries, sampleCount_append, cellEntries, sampleCount_bitEntries, startEntries, pulseEntries,
    sampleCount]
  split
  · cases p.stopPrelow <;> simp [stopEntries, sampleCount]
  · simp [sampleCount]

theorem sampleCount_samples (i : Nat) (h : Hint) (k : Nat) : sampleCount (sampleEntries i h k) = k := by
  induction k with
  | zero => rfl
  | succ k ih => simp [sampleEntries, sampleCount, ih]; omega

theorem sampleCount_rxCells (i : Nat) (h : Hint) (n : Nat) : sampleCount (rxCellsEntries i h n) = 8 * n := by
  induction n with
  | zero => rfl
  | succ n ih =>
    rw [rxCellsEntries, sampleCount_append, ih, rxCellEntries, sampleCount_append, sampleCount_samples]
    cases (n == 0) <;> simp [pulseEntries, sampleCount] <;> omega

theorem sampleCount_readEntries (i : Nat) (h : Hint) (p : Params) (ab : Byte) (n : Nat) :
    sampleCount (readEntries p i h ab n) = 8 * n := by
  rw [readEntries_split, sampleCount_append, sampleCount_append, sampleCount_readHead, sampleCount_rxCells,
    sampleCount_append]
  cases p.stopPrelow <;> simp [stopEntries, sampleCount]

/-! ### Whom a frame names -/

theorem names_bitEntries (j : Nat) (h : Hint) (bs : List Bit) (lvl : Bit) (k : Nat) (v : Bit) (h' : Hint)
    (hm : .sda k v h' ∈ bitEntries j h lvl bs) : k = j := by
  induction bs generalizing lvl with
  | nil => cases hm
  | cons b bs ih =>
    simp only [bitEntries, pulseEntries, List.mem_append] at hm
    rcases hm with (hm | hm) | hm
    · split at hm <;> simp at hm; exact hm.1
    · simp at hm
    · exact ih _ hm

theorem names_cellEntries (j : Nat) (h : Hint) (x : Byte) (lvl : Bit) (k : Nat) (v : Bit) (h' : Hint)
    (hm : .sda k v h' ∈ cellEntries j h lvl x) : k = j := by
  simp only [cellEntries, pulseEntries, List.mem_append] at hm
  rcases hm with hm | hm
  · exact names_bitEntries _ _ _ _ _ _ _ hm
  · simp at hm

theorem names_cellsEntries (j : Nat) (h : Hint) (xs : List Byte) (lvl : Bit) (k : Nat) (v : Bit) (h' : Hint)
    (hm : .sda k v h' ∈ cellsEntries j h lvl xs) : k = j := by
  induction xs generalizing lvl with
  | nil => cases hm
  | cons x xs ih =>
    simp only [cellsEntries, List.mem_append] at hm
    rcases hm with hm | hm
    · exact names_cellEntries _ _ _ _ _ _ _ hm
    · exact ih _ hm

theorem names_stopEntries (j : Nat) (h : Hint) (p : Bool) (k : Nat) (v : Bit) (h' : Hint)
    (hm : .sda k v h' ∈ stopEntries p j h) : k = j := by
  cases p <;> simp [stopEntries] at hm
  · exact hm.1
  · rcases hm with hm | hm <;> exact hm.1

theorem names_sampleEntries (j : Nat) (h : Hint) (n : Nat) (k : Nat) (v : Bit) (h' : Hint) :
    .sda k v h' ∉ sampleEntries j h n := by
  induction n with
  | zero => simp [sampleEntries]
  | succ n ih => simp [sampleEntries, ih]

theorem names_rxCellEntries (j : Nat) (h : Hint) (last : Bool) (k : Nat) (v : Bit) (h' : Hint)
    (hm : .sda k v h' ∈ rxCellEntries j h last) : k = j := by
  simp only [rxCellEntries, List.mem_append] at hm
  rcases hm with hm | hm
  · exact absurd hm (names_sampleEntries _ _ _ _ _ _)
  · cases last <;> simp [pulseEntries] at hm
    rcases hm with hm | hm <;> exact hm.1

theorem names_rxCellsEntries (j : Nat) (h : Hint) (n : Nat) (k : Nat) (v : Bit) (h' : Hint)
    (hm : .sda k v h' ∈ rxCellsEntries j h n) : k = j := by
  induction n with
  | zero => cases hm
  | succ n ih =>
    simp only [rxCellsEntries, List.mem_append] at hm
    rcases hm with hm | hm
    · exact names_rxCellEntries _ _ _ _ _ _ hm
    · exact ih hm

theorem names_startEntries (j : Nat) (h : Hint) (k : Nat) (v : Bit) (h' : Hint)
    (hm : .sda k v h' ∈ startEntries j h) : k = j := by
  simp [startEntries] at hm; exact hm.1

/-- A write frame of a bus has data entries of that bus alone. -/
theorem names_writeEntries (p : Bool) (j : Nat) (h : Hint) (ab : Byte) (xs : List Byte) (k : Nat) (v : Bit) (h' : Hint)
    (hm : .sda k v h' ∈ writeEntries p j h ab xs) : k = j := by
  simp only [writeEntries, List.mem_append] at hm
  rcases hm with (hm | hm) | hm
  · exact names_startEntries _ _ _ _ _ hm
  · exact names_cellsEntries _ _ _ _ _ _ _ hm
  · exact names_stopEntries _ _ _ _ _ _ hm

/-- A read frame of a bus has data entries of that bus alone. -/
theorem names_readEntries (p : Params) (j : Nat) (h : Hint) (ab : Byte) (n : Nat) (k : Nat) (v : Bit) (h' : Hint)
    (hm : .sda k v h' ∈ readEntries p j h ab n) : k = j := by
  simp only [readEntries, List.mem_append] at hm
  rcases hm with (((((hm | hm) | hm) | hm) | hm) | hm) | hm
  · simp at hm; exact hm.1
  · exact names_startEntries _ _ _ _ _ hm
  · exact names_cellEntries _ _ _ _ _ _ _ hm
  · split at hm
    · exact names_stopEntries _ _ _ _ _ _ hm
    · cases hm
  · exact names_rxCellsEntries _ _ _ _ _ _ hm
  · simp at hm; exact hm.1
  · exact names_stopEntries _ _ _ _ _ _ hm

/-! ### Writing -/

/-- BWR's body: the write frame is emitted and nothing else happens. -/
theorem busWrite_ok {i : Nat} {ab : Byte} {xs : List Byte} {h : Hint} {s : State} {b : Bus} {l : ClockLine}
    (hb : mget i s.buses = some b) (hl : mget b.scl s.lines = some l) (hr : busReady b l = true) :
    busWrite i ab xs h s =
      .ok (afterEmit i b l (writeEntries s.params.stopPrelow i h ab xs) true true s.result s) := by
  simp only [busWrite, busLine, hb, hl, hr, if_true, writeFrame_app, putLane, Lane.app, laneOf]
  rfl

/-- BWR's body succeeds only on a configured bus. -/
theorem busWrite_inv {i : Nat} {ab : Byte} {xs : List Byte} {h : Hint} {s t : State}
    (he : busWrite i ab xs h s = .ok t) :
    ∃ b l, mget i s.buses = some b ∧ mget b.scl s.lines = some l ∧ busReady b l = true ∧
      t = afterEmit i b l (writeEntries s.params.stopPrelow i h ab xs) true true s.result s := by
  cases hb : mget i s.buses with
  | none => simp [busWrite, busLine, hb] at he
  | some b =>
    cases hl : mget b.scl s.lines with
    | none => simp [busWrite, busLine, hb, hl] at he
    | some l =>
      cases hr : busReady b l with
      | false => simp [busWrite, busLine, hb, hl, hr] at he
      | true =>
        refine ⟨b, l, rfl, hl, hr, ?_⟩
        rw [busWrite_ok hb hl hr] at he
        exact (Except.ok.inj he).symm

/-! ### Reading -/

/-- The state in which a read has emitted its frame and waits. -/
def readEmitted (i n : Nat) (h : Hint) (b : Bus) (l : ClockLine) (s : State) : State :=
  afterEmit i b l (readEntries s.params i h (addrByte b.addr7 true) n) true true s.result s

/-- The clock line of such a state. -/
def readLine (i n : Nat) (h : Hint) (b : Bus) (l : ClockLine) (s : State) : ClockLine :=
  { l with tq := l.tq ++ readEntries s.params i h (addrByte b.addr7 true) n, sclLvl := true }

theorem readEmitted_line (i n : Nat) (h : Hint) (b : Bus) (l : ClockLine) (s : State) :
    mget b.scl (readEmitted i n h b l s).lines = some (readLine i n h b l s) := by
  simp [readEmitted, readLine, afterEmit]

theorem busRead_unfold {i n : Nat} {h : Hint} {s : State} {b : Bus} {l : ClockLine}
    (hb : mget i s.buses = some b) (hl : mget b.scl s.lines = some l) (hr : busReady b l = true) :
    busRead i n h s =
      match mget b.scl (drain b.scl (readEmitted i n h b l s)).lines with
      | none => .error .notConfigured
      | some l' =>
        match rxBytesAt l'.rx (cellPositions n
            (l.tq.length + (readHeadEntries s.params i h (addrByte b.addr7 true)).length)) with
        | none => .error .notConfigured
        | some response => .ok (response, drawStamp i (drain b.scl (readEmitted i n h b l s))) := by
  simp only [busRead, busLine, hb, hl, hr, if_true, readFrame_app, laneOf]
  rfl

/-- A read that answers: where, and in which state before its time stamp is drawn. -/
theorem busRead_inv {i n : Nat} {h : Hint} {s t : State} {xs : List Byte} {rt : Timestamp}
    (he : busRead i n h s = .ok (xs, rt, t)) :
    ∃ b l, mget i s.buses = some b ∧ mget b.scl s.lines = some l ∧ busReady b l = true ∧
      (rt, t) = drawStamp i (drain b.scl (readEmitted i n h b l s)) := by
  cases hb : mget i s.buses with
  | none => simp [busRead, busLine, hb] at he
  | some b =>
    cases hl : mget b.scl s.lines with
    | none => simp [busRead, busLine, hb, hl] at he
    | some l =>
      cases hr : busReady b l with
      | false => simp [busRead, busLine, hb, hl, hr] at he
      | true =>
        refine ⟨b, l, rfl, hl, hr, ?_⟩
        rw [busRead_unfold hb hl hr] at he
        split at he
        · cases he
        · split at he
          · cases he
          · exact (Prod.mk.inj (Except.ok.inj he)).2.symm

theorem drawStamp_spec (i : Nat) (s : State) :
    swStamp i s ≤ (drawStamp i s).1 ∧
    (drawStamp i s).2 = { s with env := { s.env with
      draws := s.env.draws + 1, swLast := mset natLt i (drawStamp i s).1 s.env.swLast } } := by
  constructor
  · simp [drawStamp, swStamp]
  · rfl

/-- Emission keeps every entry on the clock line of the bus it names. -/
theorem EntriesOk.emit {s : State} {j : Nat} {b : Bus} {l : ClockLine} {es : List Entry} (scl sda : Bit) (r : Result)
    (hs : EntriesOk s) (hb : mget j s.buses = some b) (hl : mget b.scl s.lines = some l)
    (names : ∀ k v h, .sda k v h ∈ es → k = j) : EntriesOk (afterEmit j b l es scl sda r s) := by
  have hbus : ∀ k x, mget k s.buses = some x → ∃ y, mget k (afterEmit j b l es scl sda r s).buses = some y ∧
      y.scl = x.scl := by
    intro k x hk
    simp only [afterEmit, mget_mset]
    by_cases hkj : k = j
    · subst hkj; rw [hb] at hk; cases hk; exact ⟨{ b with sdaLvl := sda }, by simp, rfl⟩
    · exact ⟨x, by simp [hkj, hk], rfl⟩
  intro c k hk i v x hm
  simp only [afterEmit, mget_mset] at hk
  have old : ∀ m, mget c s.lines = some m → .sda i v x ∈ m.tq →
      ∃ y, mget i (afterEmit j b l es scl sda r s).buses = some y ∧ y.scl = c := by
    intro m hm' hi
    obtain ⟨y, hy, hc⟩ := hs c m hm' i v x hi
    obtain ⟨z, hz, hzc⟩ := hbus i y hy
    exact ⟨z, hz, hzc.trans hc⟩
  split at hk
  · next hc =>
    cases hk; subst hc
    rcases List.mem_append.mp hm with hm | hm
    · exact old l hl hm
    · rw [names i v x hm]; exact hbus j b hb
  · exact old k hk hm

/-- The bytes of a read, and what the wait leaves: the sample `k` of byte `j` is the slave's level there. -/
theorem read_bytes {i n : Nat} {h : Hint} {s d : State} {b : Bus} {l : ClockLine} {ran : LineId → List Entry}
    (hq : l.qhead ≤ l.tq.length) (hran : Executes ran (readEmitted i n h b l s) d)
    (hc : ran b.scl = l.tq.drop l.qhead ++ readEntries s.params i h (addrByte b.addr7 true) n) :
    ∃ l' xs, mget b.scl d.lines = some l' ∧ xs.length = n ∧
      rxBytesAt l'.rx (cellPositions n
        (l.tq.length + (readHeadEntries s.params i h (addrByte b.addr7 true)).length)) = some xs ∧
      ∀ pre (ys : List Byte) rest, pre.length = sampleCount (l.tq.drop l.qhead) → ys.length = n →
        scriptOf b.scl s = pre ++ ys.flatMap bitsOfByte ++ rest → xs = ys := by
  obtain ⟨-, rx, e1, -, e3⟩ := hran.line b.scl _ (readEmitted_line i n h b l s)
  have hbus : mget i (readEmitted i n h b l s).buses = some { b with sdaLvl := true } := by
    simp [readEmitted, afterEmit]
  have hscript : scriptOf b.scl (readEmitted i n h b l s) = scriptOf b.scl s := rfl
  generalize hpre : l.tq.drop l.qhead ++ readHeadEntries s.params i h (addrByte b.addr7 true) = front
  have hlen : l.qhead + front.length =
      l.tq.length + (readHeadEntries s.params i h (addrByte b.addr7 true)).length := by
    rw [← hpre]; simp only [List.length_append, List.length_drop]; omega
  have hfront : ran b.scl = front ++ (rxCellsEntries i h n ++ ([.sda i true h] ++ stopEntries s.params.stopPrelow i h)) := by
    rw [hc, readEntries_split, ← hpre]; simp only [List.append_assoc]
  have hlast : ∀ v, lastSda i v front = true := by
    intro v; rw [← hpre, lastSda_append, lastSda_readHead]
  have hcount : sampleCount front = sampleCount (l.tq.drop l.qhead) := by
    rw [← hpre, sampleCount_append, sampleCount_readHead, Nat.add_zero]
  have bit : ∀ j k, j < n → k < 8 → ∃ v, mget (l.qhead + front.length + (28 * j + (3 * k + 1))) rx = some v ∧
      ∀ x, (scriptOf b.scl s)[sampleCount (l.tq.drop l.qhead) + (8 * j + k)]? = some x → v = x := by
    intro j k hj hk
    obtain ⟨c1, c2, c3⟩ := rxCells_sample i h n j k hj hk
    have hlt := (List.getElem?_eq_some_iff.mp c1).1
    have hget : (ran b.scl)[front.length + (28 * j + (3 * k + 1))]? = some (.smp i h) := by
      rw [hfront, List.getElem?_append_right (by omega), List.getElem?_append_left (by omega)]
      simpa using c1
    have htake : (ran b.scl).take (front.length + (28 * j + (3 * k + 1))) =
        front ++ (rxCellsEntries i h n).take (28 * j + (3 * k + 1)) := by
      rw [hfront, List.take_length_add_append, List.take_append_of_le_length (by omega)]
    obtain ⟨v, v1, v2⟩ := e3 i _ _ h hbus rfl hget
    rw [htake, lastSda_append, hlast, c2, Bool.true_and] at v1
    rw [htake, sampleCount_append, hcount, c3, hscript] at v2
    exact ⟨v, by rw [← v1, Nat.add_assoc]; rfl, v2⟩
  choose! f hf using bit
  refine ⟨_, (List.range n).map fun j => byteFrom (f j), e1, by simp, ?_, fun pre ys rest h1 h2 h3 => ?_⟩
  · rw [← hlen]
    exact rxBytesAt_some n _ f (fun j k hj hk => (hf j k hj hk).1)
  · refine List.ext_getElem (by simp [h2]) fun j hj hj' => ?_
    simp only [List.getElem_map, List.getElem_range]
    refine byteFrom_bits _ _ fun k hk => ?_
    have hb8 : k < (bitsOfByte ys[j]).length := hk
    have hbit : (scriptOf b.scl s)[sampleCount (l.tq.drop l.qhead) + (8 * j + k)]? = some (bitsOfByte ys[j])[k] := by
      rw [h3, List.append_assoc, ← h1, List.getElem?_append_right (by omega), Nat.add_sub_cancel_left,
        flatMap_bits ys rest j k hj' hk, List.getElem?_eq_getElem hb8]
    rw [(hf j k (by simpa using hj) hk).2 _ hbit, List.getElem?_eq_getElem hb8]

/-- BRD's body on a ready bus: it answers `n` bytes, and they are the ones the slave's next bits spell once the earlier
pending samples have taken theirs, whatever the other clock lines run meanwhile. -/
theorem busRead_ok {i n : Nat} {h : Hint} {s : State} {b : Bus} {l : ClockLine}
    (hb : mget i s.buses = some b) (hl : mget b.scl s.lines = some l) (hr : busReady b l = true) (hs : QueuesOk s) :
    ∃ xs rt t, busRead i n h s = .ok (xs, rt, t) ∧ xs.length = n ∧ ReadDone i n h b l rt s t ∧ t.result = s.result ∧
      ∀ pre (ys : List Byte) rest, pre.length = sampleCount (l.tq.drop l.qhead) → ys.length = n →
        scriptOf b.scl s = pre ++ ys.flatMap bitsOfByte ++ rest → xs = ys := by
  have hq : l.qhead ≤ l.tq.length := (hs.1 _ l hl).1
  have hline := readEmitted_line i n h b l s
  obtain ⟨ran, hran, hc⟩ := drain_executes
    (EntriesOk.emit true true s.result hs.2 hb hl (names_readEntries s.params i h (addrByte b.addr7 true) n)) hline
  have hdrop : (readLine i n h b l s).tq.drop (readLine i n h b l s).qhead =
      l.tq.drop l.qhead ++ readEntries s.params i h (addrByte b.addr7 true) n :=
    List.drop_append_of_le_length hq
  rw [hdrop] at hc
  change Executes ran (readEmitted i n h b l s) (drain b.scl (readEmitted i n h b l s)) at hran
  obtain ⟨l', xs, e', hxs, hrx, hscript⟩ := read_bytes hq hran hc
  generalize hd : drain b.scl (readEmitted i n h b l s) = d at *
  obtain ⟨hst, hde⟩ := drawStamp_spec i d
  have hsw : swStamp i d = swStamp i s := by unfold swStamp; rw [hran.swLast]; rfl
  have other : ∀ e, e ≠ b.scl → mget e (readEmitted i n h b l s).lines = mget e s.lines :=
    fun e he => mget_mset_other _ he _ _
  have hlinec : ∃ rx, mget b.scl d.lines = some { l with
      tq := l.tq ++ readEntries s.params i h (addrByte b.addr7 true) n
      qhead := (l.tq ++ readEntries s.params i h (addrByte b.addr7 true) n).length
      sclLvl := true
      wScl := true
      rx := rx } ∧ ∀ p, p < l.qhead → mget p rx = mget p l.rx := by
    obtain ⟨-, rx, f1, f2, -⟩ := hran.line _ _ hline
    refine ⟨rx, ?_, f2⟩
    simp only [f1, hc, readLine, lastScl_append, lastScl_readEntries, List.length_append, List.length_drop]
    congr 2
    omega
  have hexec : ∀ e, executed e s (drawStamp i d).2 = ran e := by
    intro e
    rw [hde]
    by_cases he : e = b.scl
    · subst he
      obtain ⟨rx, f1, -⟩ := hlinec
      simp only [executed, hl, f1, hc]
      rw [List.drop_append_of_le_length hq, List.take_of_length_le]
      simp only [List.length_append, List.length_drop]; omega
    · rw [← hran.executed e]
      simp only [executed, other e he]
  refine ⟨xs, (drawStamp i d).1, (drawStamp i d).2, ?_, hxs, ⟨?_, ?_, ?_, ?_, ?_, ?_, ?_, ?_, ?_⟩, ?_, hscript⟩
  · rw [busRead_unfold hb hl hr, hd]
    simp only [e', hrx]
  · rw [hde]
    obtain ⟨a1, a2, a3, a4, a5, a6, a7, a8, a9, a10, a11⟩ := hran.only
    exact ⟨a1, a2, a3, a4, a5, a6, a7, a8, a9, a10, a11⟩
  · rw [hde]; exact hlinec
  · rw [hde]
    simp only [hran.bus i]
    simp [readEmitted, afterEmit, hc, lastSda_append, lastSda_readEntries_self]
  · intro e he
    rw [hde, ← other e he]
    refine ⟨fun hn => (hran.none e hn).1, fun k hk => ?_⟩
    exact hran.lineRan hk (hs.1 e k (by rw [← other e he]; exact hk)).1
  · intro j hj
    simp only [hexec]
    rw [hde]
    simp only [hran.bus j]
    simp only [readEmitted, afterEmit, mget_mset_other _ hj]
  · rw [hexec, hc]
  · rw [hde]
    have : scriptOf b.scl { d with env := { d.env with
        draws := d.env.draws + 1, swLast := mset natLt i (drawStamp i d).1 d.env.swLast } } = scriptOf b.scl d := rfl
    rw [this, hran.script, hc, sampleCount_append, sampleCount_readEntries]
    rfl
  · rw [← hsw]; exact hst
  · rw [hde]; simp only [hran.swLast]; rfl
  · rw [hde]; exact hran.result

/-! ### The external bus -/

/-- What a read of an external bus changes: the draws, and nothing of the block. -/
theorem drawResponse_spec (h n : Nat) (s : State) :
    ∃ env, (drawResponse h n s).2.2 = { s with env := env } ∧ env.port = s.env.port ∧ env.slave = s.env.slave ∧
      env.swLast = s.env.swLast ∧
      env.hwLast = mset natLt h (drawResponse h n s).2.1 s.env.hwLast ∧ hwStamp h s ≤ (drawResponse h n s).2.1 ∧
      (∀ d, d ≠ h → mget d env.hw = mget d s.env.hw) ∧ (mget h env.hw).getD [] = (responsesOf h s).drop 1 := by
  unfold drawResponse responsesOf hwStamp
  cases hs : (mget h s.env.hw).getD [] with
  | nil =>
    refine ⟨_, rfl, rfl, rfl, rfl, rfl, Nat.le_add_right _ _, fun _ _ => rfl, by simp [hs]⟩
  | cons r rs =>
    refine ⟨_, rfl, rfl, rfl, rfl, rfl, Nat.le_add_right _ _, fun d hd => mget_mset_other _ hd _ _, by simp⟩

/-- A scripted response is the one that is returned. -/
theorem drawResponse_script {h n : Nat} {s : State} {r : HwResponse} {rs : List HwResponse}
    (hs : responsesOf h s = r :: rs) : (drawResponse h n s).1 = r.bytes ∧ (drawResponse h n s).2.1 = hwStamp h s + r.gap := by
  unfold responsesOf at hs
  simp [drawResponse, hs, hwStamp]

/-! ### Checks -/

theorem lineInUse_false {clock : Bool} {x : LineId} {m : List (Nat × Bus)}
    (h : ∀ p, p ∈ m → p.2.sda ≠ x ∧ (clock = true → p.2.scl ≠ x)) : lineInUse clock x m = false := by
  induction m with
  | nil => rfl
  | cons p m ih =>
    obtain ⟨k, b⟩ := p
    have h1 := h (k, b) List.mem_cons_self
    have h2 := ih (fun q hq => h q (List.mem_cons_of_mem _ hq))
    cases clock <;> simp_all [lineInUse]

theorem lineInUse_true {clock : Bool} {x : LineId} {m : List (Nat × Bus)} {p : Nat × Bus} (hp : p ∈ m)
    (h : p.2.sda = x ∨ (clock = true ∧ p.2.scl = x)) : lineInUse clock x m = true := by
  induction m with
  | nil => cases hp
  | cons q m ih =>
    obtain ⟨k, b⟩ := q
    rcases List.mem_cons.mp hp with rfl | hp
    · rcases h with h | ⟨h1, h2⟩ <;> simp_all [lineInUse]
    · simp [lineInUse, ih hp]

theorem bytesOf_ok {p : List Nat} (h : ∀ x, x ∈ p → x ≤ 255) : bytesOf p = some (p.map (BitVec.ofNat 8)) := by
  induction p with
  | nil => rfl
  | cons x p ih =>
    simp [bytesOf, byteOf, h x List.mem_cons_self, ih (fun y hy => h y (List.mem_cons_of_mem _ hy))]

end Sys2Proof.Machine
end

