-- ==== Sys2Proof/Laws/Encoding.lean ====
section
/-! SUPPORT. One lemma per typed value of the command layout: reading what was written gives it back. -/

namespace Sys2Proof

@[simp] theorem Read.andThen_ok {α β : Type} (a : α) (t : Bytes) (k : α → Bytes → Read β) :
    Read.andThen (.ok (a, t)) k = k a t := rfl

@[simp] theorem Read.andThen_error {α β : Type} (e : DecodeError) (k : α → Bytes → Read β) :
    Read.andThen (.error e) k = .error e := rfl

/-- A reading that goes on and succeeds succeeded before. -/
theorem Read.andThen_eq_ok {α β : Type} {r : Read α} {k : α → Bytes → Read β} {x : β × Bytes}
    (h : Read.andThen r k = .ok x) : ∃ a t, r = .ok (a, t) ∧ k a t = .ok x := by
  cases r with
  | error e => cases h
  | ok p => exact ⟨p.1, p.2, rfl, h⟩

theorem getNat_putNatGroups (fuel n : Nat) (hn : n < fuel) (r : Bytes) :
    getNat (putNatGroups fuel n ++ r) = .ok (n, r) := by
  induction fuel generalizing n with
  | zero => omega
  | succ fuel ih =>
    rw [putNatGroups]
    split
    · next h =>
      have : (BitVec.ofNat 8 n).toNat = n := by simp; omega
      simp only [List.cons_append, List.nil_append, getNat, this]
      rw [if_pos h]
    · next h =>
      have hb : (BitVec.ofNat 8 (128 + n % 128)).toNat = 128 + n % 128 := by simp; omega
      simp only [List.cons_append, getNat, hb]
      rw [if_neg (by omega), ih (n / 128) (by omega)]
      have h0 : n / 128 ≠ 0 := by omega
      simp only [h0, if_false, Except.ok.injEq, Prod.mk.injEq, and_true]
      omega

@[simp] theorem getNat_putNat (n : Nat) (r : Bytes) : getNat (putNat n ++ r) = .ok (n, r) :=
  getNat_putNatGroups (n + 1) n (by omega) r

@[simp] theorem unfoldInt_foldInt (z : Int) : unfoldInt (foldInt z) = z := by
  cases z with
  | ofNat n => simp [foldInt, unfoldInt]
  | negSucc n =>
    have h1 : (2 * n + 1) % 2 = 1 := by omega
    have h2 : (2 * n + 1) / 2 = n := by omega
    simp [foldInt, unfoldInt, h1, h2]

@[simp] theorem getInt_putInt (z : Int) (r : Bytes) : getInt (putInt z ++ r) = .ok (z, r) := by
  simp [getInt, putInt]

@[simp] theorem getByte_cons (x : Byte) (r : Bytes) : getByte (x :: r) = .ok (x, r) := rfl

@[simp] theorem getBit_putBit (b : Bit) (r : Bytes) : getBit (putBit b ++ r) = .ok (b, r) := by
  cases b <;> simp [getBit, putBit]

@[simp] theorem getWireLine_putWireLine (l : WireLine) (r : Bytes) :
    getWireLine (putWireLine l ++ r) = .ok (l, r) := by
  cases l <;> simp [getWireLine, putWireLine]

@[simp] theorem getLineId_putLineId (l : LineId) (r : Bytes) : getLineId (putLineId l ++ r) = .ok (l, r) := by
  simp [getLineId, putLineId]

@[simp] theorem getBusRef_putBusRef (b : BusRef) (r : Bytes) : getBusRef (putBusRef b ++ r) = .ok (b, r) := by
  cases b <;> simp [getBusRef, putBusRef]

@[simp] theorem F64.ofBits_toBits (x : F64) : F64.ofBits x.toBits = x := by
  cases x with
  | nan => decide
  | inf neg => cases neg <;> decide
  | fin neg e f =>
    have he := e.isLt
    have hb : ∀ i, (BitVec.ofBool neg ++ BitVec.ofNat 11 e.val ++ f : BitVec (1 + 11 + 52)).getLsbD i =
        if i < 52 then f.getLsbD i else if i - 52 < 11 then (BitVec.ofNat 11 e.val).getLsbD (i - 52)
          else (BitVec.ofBool neg).getLsbD (i - 52 - 11) := by
      intro i
      rw [BitVec.getLsbD_append, BitVec.getLsbD_append]
    have h1 : (BitVec.ofBool neg ++ BitVec.ofNat 11 e.val ++ f : BitVec 64).getLsbD 63 = neg := by
      refine (hb 63).trans ?_
      simp
    have h2 : (BitVec.ofBool neg ++ BitVec.ofNat 11 e.val ++ f : BitVec 64).extractLsb' 0 52 = f := by
      ext i hi
      rw [BitVec.getElem_extractLsb']
      refine (hb _).trans ?_
      simp [hi]
    have h3 : ((BitVec.ofBool neg ++ BitVec.ofNat 11 e.val ++ f : BitVec 64).extractLsb' 52 11).toNat = e.val := by
      have : (BitVec.ofBool neg ++ BitVec.ofNat 11 e.val ++ f : BitVec 64).extractLsb' 52 11 = BitVec.ofNat 11 e.val := by
        ext i hi
        rw [BitVec.getElem_extractLsb']
        refine (hb _).trans ?_
        rw [if_neg (by omega), if_pos (by omega), ← BitVec.getLsbD_eq_getElem]
        congr 1; omega
      rw [this]; simp; omega
    simp only [F64.ofBits, F64.toBits, h1, h2, h3]
    rw [dif_pos he]

@[simp] theorem getF64_putF64 (x : F64) (r : Bytes) : getF64 (putF64 x ++ r) = .ok (x, r) := by
  have : (x.toBits.extractLsb' 56 8 ++ x.toBits.extractLsb' 48 8 ++ x.toBits.extractLsb' 40 8 ++
      x.toBits.extractLsb' 32 8 ++ x.toBits.extractLsb' 24 8 ++ x.toBits.extractLsb' 16 8 ++
      x.toBits.extractLsb' 8 8 ++ x.toBits.extractLsb' 0 8 : BitVec 64) = x.toBits := by
    generalize x.toBits = w
    ext i hi
    simp only [BitVec.getElem_append, BitVec.getElem_extractLsb']
    repeat' split
    all_goals (rw [← BitVec.getLsbD_eq_getElem]; congr 1; omega)
  simp only [putF64, List.cons_append, List.nil_append, getF64, this, F64.ofBits_toBits]

theorem getNatSeq_putNatSeq (ns : List Nat) (r : Bytes) :
    getNatSeq ns.length (putNatSeq ns ++ r) = .ok (ns, r) := by
  induction ns with
  | nil => rfl
  | cons n ns ih => simp [putNatSeq, getNatSeq, ih]

@[simp] theorem getNats_putNats (ns : List Nat) (r : Bytes) : getNats (putNats ns ++ r) = .ok (ns, r) := by
  simp [getNats, putNats, getNatSeq_putNatSeq]

end Sys2Proof
end

