-- ==== Sys2Proof/Laws/Decoding.lean ====
section
/-! SUPPORT. The other direction of Laws/Encoding.lean: what a reading accepts is what the encoder writes; and what a step
takes off the port. -/

namespace Sys2Proof

/-! ### Readings accept only what is written -/

theorem getNat_lt {bs r : Bytes} {n : Nat} (h : getNat bs = .ok (n, r)) :
    ∀ fuel, n < fuel → bs = putNatGroups fuel n ++ r := by
  induction bs generalizing n with
  | nil => cases h
  | cons b t ih =>
    intro fuel hf
    simp only [getNat] at h
    split at h
    · next hb =>
      cases h
      cases fuel with
      | zero => omega
      | succ fuel => simp [putNatGroups, hb]
    · next hb =>
      cases ht : getNat t with
      | error e => rw [ht] at h; cases h
      | ok p =>
        obtain ⟨m, r'⟩ := p
        rw [ht] at h
        simp only at h
        split at h
        · cases h
        · next hm =>
          simp only [Except.ok.injEq, Prod.mk.injEq] at h
          obtain ⟨hn, rfl⟩ := h
          have hlt := b.isLt
          cases fuel with
          | zero => omega
          | succ fuel =>
            rw [putNatGroups, if_neg (by omega)]
            have h1 : n / 128 = m := by omega
            have h2 : 128 + n % 128 = b.toNat := by omega
            rw [h1, h2, ih ht fuel (by omega)]
            simp

theorem getNat_inv {bs r : Bytes} {n : Nat} (h : getNat bs = .ok (n, r)) : bs = putNat n ++ r :=
  getNat_lt h _ (Nat.lt_succ_self n)

theorem foldInt_unfoldInt (n : Nat) : foldInt (unfoldInt n) = n := by
  unfold unfoldInt
  split <;> simp only [foldInt] <;> omega

theorem getInt_inv {bs r : Bytes} {z : Int} (h : getInt bs = .ok (z, r)) : bs = putInt z ++ r := by
  obtain ⟨n, t, h1, h2⟩ := Read.andThen_eq_ok h
  cases h2
  rw [putInt, foldInt_unfoldInt, getNat_inv h1]

theorem getByte_inv {bs r : Bytes} {x : Byte} (h : getByte bs = .ok (x, r)) : bs = x :: r := by
  cases bs with
  | nil => cases h
  | cons b t => cases h; rfl

theorem getBit_inv {bs r : Bytes} {b : Bit} (h : getBit bs = .ok (b, r)) : bs = putBit b ++ r := by
  obtain ⟨x, t, h1, h2⟩ := Read.andThen_eq_ok h
  rw [getByte_inv h1]
  split at h2
  · next hx => cases h2; simp [putBit, hx]
  · split at h2
    · next hx => cases h2; simp [putBit, hx]
    · cases h2

theorem getWireLine_inv {bs r : Bytes} {l : WireLine} (h : getWireLine bs = .ok (l, r)) : bs = putWireLine l ++ r := by
  obtain ⟨x, t, h1, h2⟩ := Read.andThen_eq_ok h
  rw [getByte_inv h1]
  split at h2
  · next hx => cases h2; simp [putWireLine, hx]
  · split at h2
    · next hx => cases h2; simp [putWireLine, hx]
    · cases h2

theorem getLineId_inv {bs r : Bytes} {c : LineId} (h : getLineId bs = .ok (c, r)) : bs = putLineId c ++ r := by
  obtain ⟨x, t, h1, h2⟩ := Read.andThen_eq_ok h
  obtain ⟨y, t', h3, h4⟩ := Read.andThen_eq_ok h2
  cases h4
  rw [getNat_inv h1, getNat_inv h3, putLineId, List.append_assoc]

theorem getBusRef_inv {bs r : Bytes} {b : BusRef} (h : getBusRef bs = .ok (b, r)) : bs = putBusRef b ++ r := by
  obtain ⟨x, t, h1, h2⟩ := Read.andThen_eq_ok h
  obtain ⟨n, t', h3, h4⟩ := Read.andThen_eq_ok h2
  rw [getByte_inv h1, getNat_inv h3]
  split at h4
  · next hx => cases h4; simp [putBusRef, hx]
  · split at h4
    · next hx => cases h4; simp [putBusRef, hx]
    · cases h4

theorem getNatSeq_inv {k : Nat} {bs r : Bytes} {ns : List Nat} (h : getNatSeq k bs = .ok (ns, r)) :
    ns.length = k ∧ bs = putNatSeq ns ++ r := by
  induction k generalizing bs ns with
  | zero => cases h; exact ⟨rfl, rfl⟩
  | succ k ih =>
    obtain ⟨n, t, h1, h2⟩ := Read.andThen_eq_ok h
    obtain ⟨ms, t', h3, h4⟩ := Read.andThen_eq_ok h2
    cases h4
    obtain ⟨i1, i2⟩ := ih h3
    refine ⟨by simp [i1], ?_⟩
    rw [getNat_inv h1, i2, putNatSeq, List.append_assoc]

theorem getNats_inv {bs r : Bytes} {ns : List Nat} (h : getNats bs = .ok (ns, r)) : bs = putNats ns ++ r := by
  obtain ⟨k, t, h1, h2⟩ := Read.andThen_eq_ok h
  obtain ⟨rfl, h3⟩ := getNatSeq_inv h2
  rw [getNat_inv h1, h3, putNats, List.append_assoc]

/-- A pattern that is no not-a-number is the pattern of its datum. -/
theorem F64.toBits_ofBits {w : BitVec 64} (h : F64.ofBits w ≠ .nan) : (F64.ofBits w).toBits = w := by
  have hcut : ∀ e : Nat, (w.extractLsb' 52 11).toNat = e →
      (BitVec.ofBool (w.getLsbD 63) ++ BitVec.ofNat 11 e ++ w.extractLsb' 0 52 : BitVec (1 + 11 + 52)) = w := by
    intro e he
    rw [← he, show BitVec.ofNat 11 (w.extractLsb' 52 11).toNat = w.extractLsb' 52 11 from by
      rw [BitVec.ofNat_toNat, BitVec.setWidth_eq]]
    apply BitVec.eq_of_getLsbD_eq
    intro i hi
    rw [BitVec.getLsbD_append, BitVec.getLsbD_append]
    by_cases h1 : i < 52
    · simp [h1]
    · by_cases h2 : i - 52 < 11
      · have : i < 63 := by omega
        have h3 : 52 + (i - 52) = i := by omega
        simp only [h1, h2, if_false, if_true, BitVec.getLsbD_extractLsb', h3, decide_true, Bool.true_and]
      · have : i = 63 := by omega
        subst this
        simp
  unfold F64.ofBits at h ⊢
  simp only at h ⊢
  split
  · exact hcut _ rfl
  · next he =>
    have hlt := (w.extractLsb' 52 11).isLt
    have h7 : (w.extractLsb' 52 11).toNat = 2047 := by omega
    rw [dif_neg he] at h
    split
    · next hf =>
      have := hcut 2047 h7
      rw [hf] at this
      exact this
    · next hf => rw [if_neg hf] at h; exact absurd rfl h

theorem getF64_inv {bs r : Bytes} {x : F64} (h : getF64 bs = .ok (x, r)) (hx : x ≠ .nan) : bs = putF64 x ++ r := by
  unfold getF64 at h
  split at h
  · next b0 b1 b2 b3 b4 b5 b6 b7 t =>
    simp only [Except.ok.injEq, Prod.mk.injEq] at h
    obtain ⟨rfl, rfl⟩ := h
    rw [putF64, F64.toBits_ofBits hx]
    simp only [List.cons_append, List.nil_append, List.cons.injEq, and_true]
    have key : ∀ k, k < 8 → ∀ j, j < 8 → (b7 ++ b6 ++ b5 ++ b4 ++ b3 ++ b2 ++ b1 ++ b0 : BitVec 64).getLsbD (8 * k + j) =
        ([b0, b1, b2, b3, b4, b5, b6, b7].getD k 0).getLsbD j := by
      intro k hk j hj
      have : ∀ i, (b7 ++ b6 ++ b5 ++ b4 ++ b3 ++ b2 ++ b1 ++ b0 : BitVec (8 + 8 + 8 + 8 + 8 + 8 + 8 + 8)).getLsbD i =
          if i < 8 then b0.getLsbD i else if i - 8 < 8 then b1.getLsbD (i - 8) else
          if i - 8 - 8 < 8 then b2.getLsbD (i - 8 - 8) else if i - 8 - 8 - 8 < 8 then b3.getLsbD (i - 8 - 8 - 8) else
          if i - 8 - 8 - 8 - 8 < 8 then b4.getLsbD (i - 8 - 8 - 8 - 8) else
          if i - 8 - 8 - 8 - 8 - 8 < 8 then b5.getLsbD (i - 8 - 8 - 8 - 8 - 8) else
          if i - 8 - 8 - 8 - 8 - 8 - 8 < 8 then b6.getLsbD (i - 8 - 8 - 8 - 8 - 8 - 8) else
          b7.getLsbD (i - 8 - 8 - 8 - 8 - 8 - 8 - 8) := by
        intro i
        simp only [BitVec.getLsbD_append]
      refine (this (8 * k + j)).trans ?_
      rcases k with _ | _ | _ | _ | _ | _ | _ | _ | k
      · simp [hj]
      · rw [if_neg (by omega), if_pos (by omega)]; congr 1; omega
      · rw [if_neg (by omega), if_neg (by omega), if_pos (by omega)]; congr 1; omega
      · rw [if_neg (by omega), if_neg (by omega), if_neg (by omega), if_pos (by omega)]; congr 1; omega
      · rw [if_neg (by omega), if_neg (by omega), if_neg (by omega), if_neg (by omega), if_pos (by omega)]; congr 1; omega
      · rw [if_neg (by omega), if_neg (by omega), if_neg (by omega), if_neg (by omega), if_neg (by omega),
          if_pos (by omega)]; congr 1; omega
      · rw [if_neg (by omega), if_neg (by omega), if_neg (by omega), if_neg (by omega), if_neg (by omega),
          if_neg (by omega), if_pos (by omega)]; congr 1; omega
      · rw [if_neg (by omega), if_neg (by omega), if_neg (by omega), if_neg (by omega), if_neg (by omega),
          if_neg (by omega), if_neg (by omega)]; congr 1; omega
      · omega
    have byte : ∀ k, k < 8 → [b0, b1, b2, b3, b4, b5, b6, b7].getD k 0 =
        (b7 ++ b6 ++ b5 ++ b4 ++ b3 ++ b2 ++ b1 ++ b0 : BitVec 64).extractLsb' (8 * k) 8 := by
      intro k hk
      apply BitVec.eq_of_getLsbD_eq
      intro j hj
      rw [BitVec.getLsbD_extractLsb', key k hk j hj]
      simp [hj]
    exact ⟨byte 0 (by omega), byte 1 (by omega), byte 2 (by omega), byte 3 (by omega), byte 4 (by omega),
      byte 5 (by omega), byte 6 (by omega), byte 7 (by omega)⟩
  · cases h

theorem getName_inv {mk : Nat → Instr} {t r : Bytes} {i : Instr} (h : getName mk t = .ok (i, r)) :
    ∃ n, i = mk n ∧ t = putNat n ++ r := by
  obtain ⟨n, t', h1, h2⟩ := Read.andThen_eq_ok h
  cases h2
  exact ⟨n, rfl, getNat_inv h1⟩

theorem getNameHint_inv {mk : Nat → Hint → Instr} {t r : Bytes} {i : Instr} (h : getNameHint mk t = .ok (i, r)) :
    ∃ n k, i = mk n k ∧ t = putNat n ++ putNat k ++ r := by
  obtain ⟨n, t', h1, h2⟩ := Read.andThen_eq_ok h
  obtain ⟨k, t'', h3, h4⟩ := Read.andThen_eq_ok h2
  cases h4
  exact ⟨n, k, rfl, by rw [getNat_inv h1, getNat_inv h3, List.append_assoc]⟩

theorem opcodeByte {op x : Byte} (h : op.toNat = x.toNat) : op = x := BitVec.eq_of_toNat_eq h

/-- The opcode byte decides the operation, and its operands are what the encoder writes. -/
theorem getOperands_inv {op : Byte} {t r : Bytes} {i : Instr} (h : getOperands op t = .ok (i, r)) :
    op = i.opcode ∧ ((∀ x, x ∈ Machine.floatsOf i → x ≠ .nan) → t = putOperands i ++ r) := by
  unfold getOperands at h
  split at h
  · next hk =>
    obtain ⟨x0, t0, e0, h⟩ := Read.andThen_eq_ok h
    obtain ⟨x1, t1, e1, h⟩ := Read.andThen_eq_ok h
    obtain ⟨x2, t2, e2, h⟩ := Read.andThen_eq_ok h
    obtain ⟨x3, t3, e3, h⟩ := Read.andThen_eq_ok h
    cases h
    refine ⟨opcodeByte hk, fun _ => ?_⟩
    rw [getNat_inv e0, getNat_inv e1, getLineId_inv e2, getLineId_inv e3]
    simp [putOperands]
  · next hk =>
    obtain ⟨n, rfl, ht⟩ := getName_inv h
    exact ⟨opcodeByte hk, fun _ => ht⟩
  · next hk =>
    obtain ⟨x0, t0, e0, h⟩ := Read.andThen_eq_ok h
    obtain ⟨x1, t1, e1, h⟩ := Read.andThen_eq_ok h
    obtain ⟨x2, t2, e2, h⟩ := Read.andThen_eq_ok h
    obtain ⟨x3, t3, e3, h⟩ := Read.andThen_eq_ok h
    cases h
    refine ⟨opcodeByte hk, fun _ => ?_⟩
    rw [getNat_inv e0, getNat_inv e1, getNats_inv e2, getNat_inv e3]
    simp [putOperands]
  · next hk =>
    obtain ⟨x0, t0, e0, h⟩ := Read.andThen_eq_ok h
    obtain ⟨x1, t1, e1, h⟩ := Read.andThen_eq_ok h
    obtain ⟨x2, t2, e2, h⟩ := Read.andThen_eq_ok h
    cases h
    refine ⟨opcodeByte hk, fun _ => ?_⟩
    rw [getNat_inv e0, getNat_inv e1, getNat_inv e2]
    simp [putOperands]
  · next hk =>
    obtain ⟨n, rfl, ht⟩ := getName_inv h
    exact ⟨opcodeByte hk, fun _ => ht⟩
  · next hk =>
    obtain ⟨x0, t0, e0, h⟩ := Read.andThen_eq_ok h
    obtain ⟨x1, t1, e1, h⟩ := Read.andThen_eq_ok h
    obtain ⟨x2, t2, e2, h⟩ := Read.andThen_eq_ok h
    cases h
    refine ⟨opcodeByte hk, fun _ => ?_⟩
    rw [getNat_inv e0, getBusRef_inv e1, getInt_inv e2]
    simp [putOperands]
  · next hk =>
    obtain ⟨x0, t0, e0, h⟩ := Read.andThen_eq_ok h
    obtain ⟨x1, t1, e1, h⟩ := Read.andThen_eq_ok h
    obtain ⟨x2, t2, e2, h⟩ := Read.andThen_eq_ok h
    obtain ⟨x3, t3, e3, h⟩ := Read.andThen_eq_ok h
    obtain ⟨x4, t4, e4, h⟩ := Read.andThen_eq_ok h
    obtain ⟨x5, t5, e5, h⟩ := Read.andThen_eq_ok h
    cases h
    refine ⟨opcodeByte hk, fun hx => ?_⟩
    rw [getNat_inv e0, getF64_inv e1 (hx x1 (by simp [Machine.floatsOf])), getInt_inv e2, getF64_inv e3 (hx x3 (by simp [Machine.floatsOf])), getF64_inv e4 (hx x4 (by simp [Machine.floatsOf])), getInt_inv e5]
    simp [putOperands]
  · next hk =>
    obtain ⟨x0, t0, e0, h⟩ := Read.andThen_eq_ok h
    obtain ⟨x1, t1, e1, h⟩ := Read.andThen_eq_ok h
    obtain ⟨x2, t2, e2, h⟩ := Read.andThen_eq_ok h
    cases h
    refine ⟨opcodeByte hk, fun hx => ?_⟩
    rw [getNat_inv e0, getF64_inv e1 (hx x1 (by simp [Machine.floatsOf])), getNat_inv e2]
    simp [putOperands]
  · next hk =>
    obtain ⟨n, rfl, ht⟩ := getName_inv h
    exact ⟨opcodeByte hk, fun _ => ht⟩
  · next hk =>
    obtain ⟨n, rfl, ht⟩ := getName_inv h
    exact ⟨opcodeByte hk, fun _ => ht⟩
  · next hk =>
    obtain ⟨x0, t0, e0, h⟩ := Read.andThen_eq_ok h
    obtain ⟨x1, t1, e1, h⟩ := Read.andThen_eq_ok h
    cases h
    refine ⟨opcodeByte hk, fun hx => ?_⟩
    rw [getNat_inv e0, getF64_inv e1 (hx x1 (by simp [Machine.floatsOf]))]
    simp [putOperands]
  · next hk =>
    obtain ⟨n, rfl, ht⟩ := getName_inv h
    exact ⟨opcodeByte hk, fun _ => ht⟩
  · next hk =>
    obtain ⟨n, rfl, ht⟩ := getName_inv h
    exact ⟨opcodeByte hk, fun _ => ht⟩
  · next hk =>
    obtain ⟨x0, t0, e0, h⟩ := Read.andThen_eq_ok h
    obtain ⟨x1, t1, e1, h⟩ := Read.andThen_eq_ok h
    obtain ⟨x2, t2, e2, h⟩ := Read.andThen_eq_ok h
    obtain ⟨x3, t3, e3, h⟩ := Read.andThen_eq_ok h
    cases h
    refine ⟨opcodeByte hk, fun _ => ?_⟩
    rw [getNat_inv e0, getWireLine_inv e1, getBit_inv e2, getNat_inv e3]
    simp [putOperands]
  · next hk =>
    obtain ⟨n, k, rfl, ht⟩ := getNameHint_inv h
    exact ⟨opcodeByte hk, fun _ => ht⟩
  · next hk =>
    obtain ⟨n, k, rfl, ht⟩ := getNameHint_inv h
    exact ⟨opcodeByte hk, fun _ => ht⟩
  · next hk =>
    obtain ⟨n, k, rfl, ht⟩ := getNameHint_inv h
    exact ⟨opcodeByte hk, fun _ => ht⟩
  · next hk =>
    obtain ⟨x0, t0, e0, h⟩ := Read.andThen_eq_ok h
    obtain ⟨x1, t1, e1, h⟩ := Read.andThen_eq_ok h
    obtain ⟨x2, t2, e2, h⟩ := Read.andThen_eq_ok h
    cases h
    refine ⟨opcodeByte hk, fun _ => ?_⟩
    rw [getNat_inv e0, getBit_inv e1, getNat_inv e2]
    simp [putOperands]
  · next hk =>
    obtain ⟨x0, t0, e0, h⟩ := Read.andThen_eq_ok h
    obtain ⟨x1, t1, e1, h⟩ := Read.andThen_eq_ok h
    obtain ⟨x2, t2, e2, h⟩ := Read.andThen_eq_ok h
    cases h
    refine ⟨opcodeByte hk, fun _ => ?_⟩
    rw [getNat_inv e0, getByte_inv e1, getNat_inv e2]
    simp [putOperands]
  · next hk =>
    obtain ⟨n, k, rfl, ht⟩ := getNameHint_inv h
    exact ⟨opcodeByte hk, fun _ => ht⟩
  · next hk =>
    obtain ⟨x0, t0, e0, h⟩ := Read.andThen_eq_ok h
    obtain ⟨x1, t1, e1, h⟩ := Read.andThen_eq_ok h
    obtain ⟨x2, t2, e2, h⟩ := Read.andThen_eq_ok h
    cases h
    refine ⟨opcodeByte hk, fun _ => ?_⟩
    rw [getNat_inv e0, getBit_inv e1, getNat_inv e2]
    simp [putOperands]
  · next hk =>
    obtain ⟨n, k, rfl, ht⟩ := getNameHint_inv h
    exact ⟨opcodeByte hk, fun _ => ht⟩
  · next hk =>
    obtain ⟨n, k, rfl, ht⟩ := getNameHint_inv h
    exact ⟨opcodeByte hk, fun _ => ht⟩
  · next hk =>
    obtain ⟨x0, t0, e0, h⟩ := Read.andThen_eq_ok h
    cases h
    refine ⟨opcodeByte hk, fun _ => ?_⟩
    rw [getLineId_inv e0]
    simp [putOperands]
  · next hk =>
    obtain ⟨x0, t0, e0, h⟩ := Read.andThen_eq_ok h
    obtain ⟨x1, t1, e1, h⟩ := Read.andThen_eq_ok h
    cases h
    refine ⟨opcodeByte hk, fun _ => ?_⟩
    rw [getLineId_inv e0, getBit_inv e1]
    simp [putOperands]
  · cases h

/-- An opcode byte that stands for no operation is refused as reserved. -/
theorem getOperands_reserved {op : Byte} (t : Bytes) (h : ∀ i : Instr, i.opcode ≠ op) :
    getOperands op t = .error .reservedOpcode := by
  unfold getOperands
  split
  · next hk => exact absurd (opcodeByte hk).symm (h (.bnew 0 0 default default))
  · next hk => exact absurd (opcodeByte hk).symm (h (.bcfg 0))
  · next hk => exact absurd (opcodeByte hk).symm (h (.bwr 0 0 [] 0))
  · next hk => exact absurd (opcodeByte hk).symm (h (.brd 0 0 0))
  · next hk => exact absurd (opcodeByte hk).symm (h (.bctl 0))
  · next hk => exact absurd (opcodeByte hk).symm (h (.enew 0 default 0))
  · next hk => exact absurd (opcodeByte hk).symm (h (.ewin 0 default 0 default default 0))
  · next hk => exact absurd (opcodeByte hk).symm (h (.ecb 0 default 0))
  · next hk => exact absurd (opcodeByte hk).symm (h (.ecfg 0))
  · next hk => exact absurd (opcodeByte hk).symm (h (.earm 0))
  · next hk => exact absurd (opcodeByte hk).symm (h (.etick 0 default))
  · next hk => exact absurd (opcodeByte hk).symm (h (.eget 0))
  · next hk => exact absurd (opcodeByte hk).symm (h (.estat 0))
  · next hk => exact absurd (opcodeByte hk).symm (h (.setl 0 .scl false 0))
  · next hk => exact absurd (opcodeByte hk).symm (h (.rel 0 0))
  · next hk => exact absurd (opcodeByte hk).symm (h (.start 0 0))
  · next hk => exact absurd (opcodeByte hk).symm (h (.stop 0 0))
  · next hk => exact absurd (opcodeByte hk).symm (h (.txbit 0 false 0))
  · next hk => exact absurd (opcodeByte hk).symm (h (.txbyte 0 0 0))
  · next hk => exact absurd (opcodeByte hk).symm (h (.rxbit 0 0))
  · next hk => exact absurd (opcodeByte hk).symm (h (.rxbyte 0 false 0))
  · next hk => exact absurd (opcodeByte hk).symm (h (.mack 0 0))
  · next hk => exact absurd (opcodeByte hk).symm (h (.mnack 0 0))
  · next hk => exact absurd (opcodeByte hk).symm (h (.qset default))
  · next hk => exact absurd (opcodeByte hk).symm (h (.qsmp default false))
  · rfl

theorem decode_inv {bs r : Bytes} {i : Instr} (h : decode bs = .ok (i, r)) :
    ∃ t, bs = i.opcode :: t ∧ ((∀ x, x ∈ Machine.floatsOf i → x ≠ .nan) → t = putOperands i ++ r) := by
  cases bs with
  | nil => cases h
  | cons op t =>
    obtain ⟨h1, h2⟩ := getOperands_inv (op := op) (t := t) h
    exact ⟨t, by rw [h1], h2⟩

end Sys2Proof
end

