-- ==== Sys2Proof/Laws/Float.lean ====
section
/-! SUPPORT. The float operations round correctly: what `roundMag` returns is a nearest datum, and exactness where the exact
result is a datum (spec/00_scope.md R12, spec/43_engine_tick.md R210). -/

namespace Sys2Proof.Machine

/-- The magnitude of every finite datum is a 53-bit significand at one of the exponents. -/
theorem magUnits_form (e : Fin 2047) (f : BitVec 52) :
    ∃ m j, magUnits e f = m * 2 ^ j ∧ m < 2 ^ 53 ∧ j ≤ 2045 := by
  have hf := f.isLt
  unfold magUnits
  split
  · exact ⟨f.toNat, 0, by simp, by omega, by omega⟩
  · exact ⟨2 ^ 52 + f.toNat, e.val - 1, rfl, by omega, by have := e.isLt; omega⟩

theorem magUnits_lt_overflow (e : Fin 2047) (f : BitVec 52) : magUnits e f ≤ (2 ^ 53 - 1) * 2 ^ 2045 := by
  obtain ⟨m, j, h, hm, hj⟩ := magUnits_form e f
  rw [h]
  exact Nat.mul_le_mul (by omega) (Nat.pow_le_pow_right (by omega) hj)

/-- A significand that fits, packed at an exponent that fits, is the magnitude asked for. -/
theorem packMag_fin {neg : Bool} {m k : Nat} (hm : m < 2 ^ 53) (hk : k = 0 ∨ 2 ^ 52 ≤ m) (hr : m < 2 ^ 52 ∨ k ≤ 2045) :
    ∃ e f, packMag neg m k = .fin neg e f ∧ magUnits e f = m * 2 ^ k ∧ (f.getLsbD 0 = decide (m % 2 = 1)) := by
  unfold packMag
  split
  · next h =>
    have hk0 : k = 0 := by omega
    subst hk0
    refine ⟨0, BitVec.ofNat 52 m, rfl, ?_, ?_⟩
    · simp only [magUnits, Fin.val_zero, if_true, BitVec.toNat_ofNat, Nat.pow_zero, Nat.mul_one]
      exact Nat.mod_eq_of_lt h
    · simp only [BitVec.getLsbD, BitVec.toNat_ofNat, Nat.mod_eq_of_lt h, Nat.testBit_zero]
  · next h =>
    have hk' : k + 1 < 2047 := by omega
    rw [dif_pos hk']
    have hmod : m % 2 ^ 52 = m - 2 ^ 52 := by omega
    refine ⟨⟨k + 1, hk'⟩, BitVec.ofNat 52 m, rfl, ?_, ?_⟩
    · have h1 : ¬(k + 1 = 0) := by omega
      have h2 : 2 ^ 52 + (m - 2 ^ 52) = m := by omega
      simp only [magUnits, h1, if_false, BitVec.toNat_ofNat, hmod, h2, Nat.add_sub_cancel]
    · simp only [BitVec.getLsbD, BitVec.toNat_ofNat, hmod, Nat.testBit_zero, decide_eq_decide]
      omega

theorem packMag_inf {neg : Bool} {m k : Nat} (hm : 2 ^ 52 ≤ m) (hk : 2046 ≤ k) : packMag neg m k = .inf neg := by
  unfold packMag
  rw [if_neg (by omega), dif_neg (by omega)]

/-- The scaled quotient of `roundMag`: its size, and where the exact quotient lies. -/
theorem log2_scale (t : Nat) : t / 2 ^ (Nat.log2 t - 52) < 2 ^ 53 ∧
    (Nat.log2 t - 52 = 0 ∨ 2 ^ 52 ≤ t / 2 ^ (Nat.log2 t - 52)) := by
  rcases Nat.eq_zero_or_pos t with rfl | ht
  · simp
  have hlo : 2 ^ Nat.log2 t ≤ t := Nat.log2_self_le (by omega)
  have hhi : t < 2 ^ (Nat.log2 t + 1) := Nat.lt_log2_self
  by_cases hk : Nat.log2 t ≤ 52
  · have : Nat.log2 t - 52 = 0 := by omega
    rw [this]
    refine ⟨?_, Or.inl rfl⟩
    simp only [Nat.pow_zero, Nat.div_one]
    exact lt_of_lt_of_le hhi (Nat.pow_le_pow_right (by omega) (by omega))
  · obtain ⟨k, hk'⟩ : ∃ k, Nat.log2 t = k + 52 := ⟨Nat.log2 t - 52, by omega⟩
    rw [hk', Nat.add_sub_cancel]
    rw [hk'] at hlo hhi
    constructor
    · rw [Nat.div_lt_iff_lt_mul (by positivity), ← Nat.pow_add]
      exact lt_of_lt_of_eq hhi (by congr 1; omega)
    · right
      rw [Nat.le_div_iff_mul_le (by positivity), ← Nat.pow_add]
      exact le_trans (le_of_eq (by congr 1; omega)) hlo

/-- No datum's magnitude lies strictly between two neighbouring significands at a scale. -/
theorem no_datum_between {q k m j : Nat} (hk : k = 0 ∨ 2 ^ 52 ≤ q) (hm : m < 2 ^ 53) :
    m * 2 ^ j ≤ q * 2 ^ k ∨ (q + 1) * 2 ^ k ≤ m * 2 ^ j := by
  by_cases hjk : k ≤ j
  · obtain ⟨d, rfl⟩ := Nat.exists_eq_add_of_le hjk
    have hx : m * 2 ^ (k + d) = (m * 2 ^ d) * 2 ^ k := by rw [Nat.pow_add]; ring
    rw [hx]
    rcases Nat.lt_or_ge q (m * 2 ^ d) with h | h
    · right; exact Nat.mul_le_mul_right _ h
    · left; exact Nat.mul_le_mul_right _ h
  · left
    have hq : 2 ^ 52 ≤ q := by omega
    obtain ⟨d, rfl⟩ : ∃ d, k = j + 1 + d := ⟨k - j - 1, by omega⟩
    calc m * 2 ^ j ≤ 2 ^ 53 * 2 ^ j := Nat.mul_le_mul_right _ (by omega)
      _ = 2 ^ 52 * 2 ^ (j + 1) := by rw [Nat.pow_succ 2 52, Nat.pow_succ 2 j]; ring
      _ ≤ q * 2 ^ (j + 1 + d) := Nat.mul_le_mul hq (Nat.pow_le_pow_right (by omega) (by omega))

theorem gap_below {num den M : Nat} (h : den * M ≤ num) : gap num den M = num - den * M := by
  unfold gap; omega

theorem gap_above {num den M : Nat} (h : num ≤ den * M) : gap num den M = den * M - num := by
  unfold gap; omega

/-- The significand chosen between `q` and `q + 1` at a scale: nearest, and even in a tie. -/
theorem nearest_choice {num den q k m : Nat} (hd : 0 < den) (hlo : den * (q * 2 ^ k) ≤ num)
    (hhi : num < den * ((q + 1) * 2 ^ k)) (hq : k = 0 ∨ 2 ^ 52 ≤ q)
    (hm : m = if den * 2 ^ k < 2 * (num - den * (q * 2 ^ k)) ∨
      (2 * (num - den * (q * 2 ^ k)) = den * 2 ^ k ∧ q % 2 = 1) then q + 1 else q)
    {m' j : Nat} (hm' : m' < 2 ^ 53) :
    gap num den (m * 2 ^ k) ≤ gap num den (m' * 2 ^ j) ∧
    (gap num den (m * 2 ^ k) = gap num den (m' * 2 ^ j) → m * 2 ^ k ≠ m' * 2 ^ j → m % 2 = 0) := by
  have hstep : den * ((q + 1) * 2 ^ k) = den * (q * 2 ^ k) + den * 2 ^ k := by ring
  have hM := no_datum_between (q := q) (k := k) (j := j) hq hm'
  have hM' : den * (m' * 2 ^ j) ≤ den * (q * 2 ^ k) ∨ den * ((q + 1) * 2 ^ k) ≤ den * (m' * 2 ^ j) :=
    hM.imp (Nat.mul_le_mul_left den) (Nat.mul_le_mul_left den)
  have hne : m * 2 ^ k ≠ m' * 2 ^ j → den * (m * 2 ^ k) ≠ den * (m' * 2 ^ j) :=
    fun h e => h (Nat.eq_of_mul_eq_mul_left hd e)
  split at hm
  · next hc =>
    subst hm
    have g1 := gap_above (num := num) (den := den) (M := (q + 1) * 2 ^ k) (by omega)
    rcases hM' with h | h
    · have g2 := gap_below (num := num) (den := den) (M := m' * 2 ^ j) (by omega)
      refine ⟨by omega, fun he _ => ?_⟩
      omega
    · have g2 := gap_above (num := num) (den := den) (M := m' * 2 ^ j) (by omega)
      refine ⟨by omega, fun he hx => ?_⟩
      have := hne hx
      omega
  · next hc =>
    subst hm
    have g1 := gap_below (num := num) (den := den) (M := m * 2 ^ k) (by omega)
    rcases hM' with h | h
    · have g2 := gap_below (num := num) (den := den) (M := m' * 2 ^ j) (by omega)
      refine ⟨by omega, fun he hx => ?_⟩
      have := hne hx
      omega
    · have g2 := gap_above (num := num) (den := den) (M := m' * 2 ^ j) (by omega)
      refine ⟨by omega, fun he _ => ?_⟩
      omega

/-- What `roundMag` rounds to: a significand `m` at scale `k`, nearest to the exact quotient among all data of
unbounded exponent, and even if another is as near. -/
theorem roundMag_nearest (neg : Bool) (num den : Nat) (hden : 0 < den) :
    ∃ m k, roundMag neg num den = packMag neg m k ∧ m < 2 ^ 53 ∧ (k = 0 ∨ 2 ^ 52 ≤ m) ∧
      ∀ m' j, m' < 2 ^ 53 →
        gap num den (m * 2 ^ k) ≤ gap num den (m' * 2 ^ j) ∧
        (gap num den (m * 2 ^ k) = gap num den (m' * 2 ^ j) → m * 2 ^ k ≠ m' * 2 ^ j → m % 2 = 0) := by
  obtain ⟨hq53, hq52⟩ := log2_scale (num / den)
  rw [Nat.div_div_eq_div_mul] at hq53 hq52
  unfold roundMag
  simp only []
  generalize Nat.log2 (num / den) - 52 = k at *
  generalize hq : num / (den * 2 ^ k) = q at *
  have hdm := Nat.div_add_mod num (den * 2 ^ k)
  have hlt := Nat.mod_lt num (y := den * 2 ^ k) (by positivity)
  rw [hq] at hdm
  have e1 : den * (q * 2 ^ k) = den * 2 ^ k * q := by ring
  have e2 : den * ((q + 1) * 2 ^ k) = den * 2 ^ k * q + den * 2 ^ k := by ring
  have hr : num % (den * 2 ^ k) = num - den * (q * 2 ^ k) := by omega
  rw [hr]
  generalize hm : (if den * 2 ^ k < 2 * (num - den * (q * 2 ^ k)) ∨
      2 * (num - den * (q * 2 ^ k)) = den * 2 ^ k ∧ q % 2 = 1 then q + 1 else q) = m
  have hnear := fun m' j (hm' : m' < 2 ^ 53) =>
    nearest_choice (num := num) (j := j) hden (by omega) (by omega) hq52 hm.symm hm'
  have hmq : m = q ∨ m = q + 1 := by rw [← hm]; split <;> simp
  by_cases h53 : m = 2 ^ 53
  · rw [if_pos h53]
    have hval : 2 ^ 52 * 2 ^ (k + 1) = m * 2 ^ k := by rw [h53, Nat.pow_succ 2 k, Nat.pow_succ 2 52]; ring
    refine ⟨2 ^ 52, k + 1, rfl, by norm_num, Or.inr le_rfl, fun m' j hm' => ?_⟩
    rw [hval]
    exact ⟨(hnear m' j hm').1, fun _ _ => by norm_num⟩
  · rw [if_neg h53]
    exact ⟨m, k, rfl, by omega, by omega, hnear⟩

/-- The magnitude where the infinities begin is half a step above the greatest finite one. -/
theorem overflow_edge (num den : Nat) (hden : 0 < den) {m k : Nat} (hm : m < 2 ^ 53)
    (hnear : ∀ m' j, m' < 2 ^ 53 →
        gap num den (m * 2 ^ k) ≤ gap num den (m' * 2 ^ j) ∧
        (gap num den (m * 2 ^ k) = gap num den (m' * 2 ^ j) → m * 2 ^ k ≠ m' * 2 ^ j → m % 2 = 0)) :
    (num < (2 ^ 54 - 1) * (den * 2 ^ 2044) → m * 2 ^ k ≤ (2 ^ 53 - 1) * 2 ^ 2045) ∧
    ((2 ^ 54 - 1) * (den * 2 ^ 2044) ≤ num → 2046 ≤ k) := by
  have hA : 0 < den * 2 ^ 2044 := by positivity
  generalize hP : (2 : Nat) ^ 2044 = P at *
  have hP45 : (2 : Nat) ^ 2045 = 2 * P := by rw [← hP, Nat.pow_succ]; ring
  have hP46 : (2 : Nat) ^ 2046 = 4 * P := by rw [← hP, Nat.pow_add 2 2044 2]; ring
  have e1 : den * ((2 ^ 53 - 1) * (2 * P)) = (2 ^ 54 - 2) * (den * P) := by ring
  have e2 : den * (2 ^ 52 * (4 * P)) = 2 ^ 54 * (den * P) := by ring
  have h1 := hnear (2 ^ 53 - 1) 2045 (by norm_num)
  have h2 := hnear (2 ^ 52) 2046 (by norm_num)
  rw [hP45] at h1 ⊢
  rw [hP46] at h2
  generalize hB : den * P = B at *
  constructor
  · intro hn
    rcases no_datum_between (q := 2 ^ 53 - 1) (k := 2045) (j := k) (Or.inr (by norm_num)) hm with h | h
    · rw [hP45] at h; exact h
    · exfalso
      rw [hP45] at h
      have h' := Nat.mul_le_mul_left den h
      have e3 : den * ((2 ^ 53 - 1 + 1) * (2 * P)) = 2 ^ 54 * B := by rw [← hB]; ring
      rw [e3] at h'
      have := h1.1
      unfold gap at this
      rw [e1] at this
      generalize den * (m * 2 ^ k) = V at *
      omega
  · intro hn
    by_contra hk
    have hV : m * 2 ^ k ≤ (2 ^ 53 - 1) * (2 * P) := by
      rw [← hP45]; exact Nat.mul_le_mul (by omega) (Nat.pow_le_pow_right (by omega) (by omega))
    have hV' := Nat.mul_le_mul_left den hV
    rw [e1] at hV'
    have h3 := h2.1
    have h4 := h2.2
    have hne : m * 2 ^ k ≠ 2 ^ 52 * (4 * P) := by
      have : 0 < P := by rw [← hP]; positivity
      omega
    have h5 := fun he => h4 he hne
    unfold gap at h3 h5
    rw [e2] at h3 h5
    have hVeq : den * (m * 2 ^ k) = (2 ^ 54 - 2) * B := by
      generalize den * (m * 2 ^ k) = V at *
      omega
    have hmk : m * 2 ^ k = (2 ^ 53 - 1) * (2 * P) := Nat.eq_of_mul_eq_mul_left hden (by rw [hVeq, e1])
    have hmeven : m % 2 = 0 := h5 (by rw [hVeq]; omega)
    rw [← hP45] at hmk
    have hk45 : k = 2045 := by
      by_contra hne
      have : 2 ^ k * 2 ≤ 2 ^ 2045 := by rw [← Nat.pow_succ]; exact Nat.pow_le_pow_right (by omega) (by omega)
      have h6 : m * (2 ^ k * 2) ≤ (2 ^ 53 - 1) * 2 ^ 2045 := Nat.mul_le_mul (by omega) this
      have h7 : m * (2 ^ k * 2) = 2 * (m * 2 ^ k) := by ring
      rw [h7, hmk] at h6
      have : 0 < (2 : Nat) ^ 2045 := by positivity
      omega
    subst hk45
    have := Nat.eq_of_mul_eq_mul_right (by positivity) hmk
    omega

/-- A result below the edge is finite, nearest, and even in a tie; one at or above it is an infinity. -/
theorem roundMag_correct (neg : Bool) (num den : Nat) (hden : 0 < den) :
    (num < (2 ^ 54 - 1) * (den * 2 ^ 2044) →
      ∃ e f, roundMag neg num den = .fin neg e f ∧
        ∀ e' f', gap num den (magUnits e f) ≤ gap num den (magUnits e' f') ∧
          (gap num den (magUnits e f) = gap num den (magUnits e' f') → magUnits e f ≠ magUnits e' f' →
            f.getLsbD 0 = false)) ∧
    ((2 ^ 54 - 1) * (den * 2 ^ 2044) ≤ num → roundMag neg num den = .inf neg) := by
  obtain ⟨m, k, heq, hm, hk, hnear⟩ := roundMag_nearest neg num den hden
  obtain ⟨hlow, hhigh⟩ := overflow_edge num den hden hm hnear
  constructor
  · intro hn
    have hV := hlow hn
    have hk' : m < 2 ^ 52 ∨ k ≤ 2045 := by
      by_contra hc
      have h1 : 2 ^ 52 * 2 ^ 2046 ≤ m * 2 ^ k :=
        Nat.mul_le_mul (by omega) (Nat.pow_le_pow_right (by omega) (by omega))
      have h2 : (2 : Nat) ^ 2046 = 2 * 2 ^ 2045 := by rw [Nat.pow_succ]; ring
      have h3 : 0 < (2 : Nat) ^ 2045 := by positivity
      rw [h2] at h1
      generalize (2 : Nat) ^ 2045 = P at *
      omega
    obtain ⟨e, f, hp, hmag, hbit⟩ := packMag_fin (neg := neg) hm hk hk'
    refine ⟨e, f, heq.trans hp, fun e' f' => ?_⟩
    obtain ⟨m', j, hM, hm', -⟩ := magUnits_form e' f'
    rw [hmag, hM, hbit]
    refine ⟨(hnear m' j hm').1, fun h1 h2 => ?_⟩
    have := (hnear m' j hm').2 h1 h2
    simp [this]
  · intro hn
    have h46 := hhigh hn
    rw [heq]
    exact packMag_inf (by omega) h46

/-- An exact result that is a datum is returned as it is. -/
theorem roundMag_exact (neg : Bool) {num den : Nat} (hden : 0 < den) {e : Fin 2047} {f : BitVec 52}
    (h : num = den * magUnits e f) : ∃ e' f', roundMag neg num den = .fin neg e' f' ∧ magUnits e' f' = magUnits e f := by
  have hlt : num < (2 ^ 54 - 1) * (den * 2 ^ 2044) := by
    have := Nat.mul_le_mul_left den (magUnits_lt_overflow e f)
    rw [← h] at this
    have h2 : den * ((2 ^ 53 - 1) * 2 ^ 2045) = (2 ^ 54 - 2) * (den * 2 ^ 2044) := by
      rw [Nat.pow_succ 2 2044]; ring
    have h3 : 0 < den * 2 ^ 2044 := by positivity
    generalize den * 2 ^ 2044 = P at *
    omega
  obtain ⟨e', f', heq, hn⟩ := (roundMag_correct neg num den hden).1 hlt
  refine ⟨e', f', heq, ?_⟩
  have h0 : gap num den (magUnits e f) = 0 := by unfold gap; omega
  have h1 := (hn e f).1
  have h2 : gap num den (magUnits e' f') = 0 := by omega
  exact Nat.eq_of_mul_eq_mul_left hden (by unfold gap at h2; omega)

/-- Any 53-bit significand at an exponent in range is the magnitude of a datum. -/
theorem exists_datum {m j : Nat} (hm : m < 2 ^ 53) (hj : j ≤ 2045) : ∃ e f, magUnits e f = m * 2 ^ j := by
  have hden : (0 : Nat) < 1 := by omega
  obtain ⟨m1, k, heq, hm1, hk, hnear⟩ := roundMag_nearest false (m * 2 ^ j) 1 hden
  have h0 := (hnear m j hm).1
  have hv : m1 * 2 ^ k = m * 2 ^ j := by
    have : gap (m * 2 ^ j) 1 (m * 2 ^ j) = 0 := by unfold gap; omega
    rw [this] at h0
    unfold gap at h0; omega
  have hk' : m1 < 2 ^ 52 ∨ k ≤ 2045 := by
    by_contra hc
    have h1 : 2 ^ 52 * 2 ^ 2046 ≤ m1 * 2 ^ k :=
      Nat.mul_le_mul (by omega) (Nat.pow_le_pow_right (by omega) (by omega))
    have h2 : m * 2 ^ j ≤ (2 ^ 53 - 1) * 2 ^ 2045 :=
      Nat.mul_le_mul (by omega) (Nat.pow_le_pow_right (by omega) (by omega))
    have h3 : (2 : Nat) ^ 2046 = 2 * 2 ^ 2045 := by rw [Nat.pow_succ]; ring
    have h4 : 0 < (2 : Nat) ^ 2045 := by positivity
    rw [h3] at h1
    rw [hv] at h1
    generalize (2 : Nat) ^ 2045 = P at *
    omega
  obtain ⟨e, f, -, hmag, -⟩ := packMag_fin (neg := false) hm1 hk hk'
  exact ⟨e, f, hmag.trans hv⟩

/-- `float(n)` is exact up to 2^53 (spec/00_scope.md R12). -/
theorem floatOfInt_exact {n : Int} (hn : n.natAbs ≤ 2 ^ 53) :
    ∃ e f, floatOfInt n = .fin (decide (n < 0)) e f ∧ magUnits e f = n.natAbs * 2 ^ 1074 := by
  have : ∃ e f, magUnits e f = n.natAbs * 2 ^ 1074 := by
    rcases Nat.lt_or_ge n.natAbs (2 ^ 53) with h | h
    · exact exists_datum h (by omega)
    · have : n.natAbs = 2 ^ 53 := by omega
      obtain ⟨e, f, h⟩ := exists_datum (m := 2 ^ 52) (j := 1075) (by norm_num) (by omega)
      refine ⟨e, f, ?_⟩
      rw [h, this, Nat.pow_succ 2 52, Nat.pow_succ 2 1074]; ring
  obtain ⟨e, f, h⟩ := this
  obtain ⟨e', f', h1, h2⟩ := roundMag_exact (decide (n < 0)) (num := n.natAbs * 2 ^ 1074) (den := 1) (e := e) (f := f)
    (by omega) (by omega)
  exact ⟨e', f', h1, h2.trans h⟩

theorem units_fin (neg : Bool) (e : Fin 2047) (f : BitVec 52) :
    units (.fin neg e f) = if neg then -(magUnits e f : Int) else (magUnits e f : Int) := rfl

/-- The sum of two exactly represented integers is the float of the integer sum. -/
theorem fadd_floatOfInt {a b : Int} (ha : a.natAbs ≤ 2 ^ 53) (hb : b.natAbs ≤ 2 ^ 53) :
    fadd (floatOfInt a) (floatOfInt b) = floatOfInt (a + b) := by
  obtain ⟨ea, fa, h1, m1⟩ := floatOfInt_exact ha
  obtain ⟨eb, fb, h2, m2⟩ := floatOfInt_exact hb
  have hz : units (.fin (decide (a < 0)) ea fa) + units (.fin (decide (b < 0)) eb fb) = (a + b) * (2 ^ 1074 : Nat) := by
    rw [units_fin, units_fin, m1, m2]
    have e1 : (if decide (a < 0) = true then -((a.natAbs * 2 ^ 1074 : Nat) : Int) else ((a.natAbs * 2 ^ 1074 : Nat) : Int))
        = a * (2 ^ 1074 : Nat) := by
      push_cast
      by_cases h : a < 0
      · simp only [h, decide_true, if_true]; rw [abs_of_neg h]; ring
      · simp only [h, decide_false, Bool.false_eq_true, if_false]; rw [abs_of_nonneg (by omega)]
    have e2 : (if decide (b < 0) = true then -((b.natAbs * 2 ^ 1074 : Nat) : Int) else ((b.natAbs * 2 ^ 1074 : Nat) : Int))
        = b * (2 ^ 1074 : Nat) := by
      push_cast
      by_cases h : b < 0
      · simp only [h, decide_true, if_true]; rw [abs_of_neg h]; ring
      · simp only [h, decide_false, Bool.false_eq_true, if_false]; rw [abs_of_nonneg (by omega)]
    rw [e1, e2]; ring
  rw [h1, h2]
  simp only [fadd]
  rw [hz]
  have hP : (0 : Int) < (2 ^ 1074 : Nat) := by positivity
  by_cases h0 : a + b = 0
  · rw [h0, Int.zero_mul, if_pos rfl]
    have : (decide (a < 0) && decide (b < 0)) = false := by
      simp only [Bool.and_eq_false_iff, decide_eq_false_iff_not]; omega
    rw [this]
    decide +kernel
  · rw [if_neg (by
      intro h
      rcases Int.mul_eq_zero.mp h with h | h
      · exact h0 h
      · omega)]
    have hsign : decide ((a + b) * (2 ^ 1074 : Nat) < 0) = decide (a + b < 0) := by
      rw [decide_eq_decide]
      constructor
      · intro h
        by_contra hc
        exact absurd h (not_lt.mpr (Int.mul_nonneg (by omega) hP.le))
      · intro h
        exact Int.mul_neg_of_neg_of_pos h hP
    rw [hsign, Int.natAbs_mul, Int.natAbs_natCast, floatOfInt]

/-- The value of an exactly represented integer. -/
theorem units_floatOfInt {n : Int} (hn : n.natAbs ≤ 2 ^ 53) : units (floatOfInt n) = n * 2 ^ 1074 := by
  obtain ⟨e, f, h1, h2⟩ := floatOfInt_exact hn
  rw [h1, units_fin, h2]
  push_cast
  by_cases h : n < 0
  · simp only [h, decide_true, if_true]; rw [abs_of_neg h]; ring
  · simp only [h, decide_false, Bool.false_eq_true, if_false]; rw [abs_of_nonneg (by omega)]

theorem floatOfInt_finite {n : Int} (hn : n.natAbs ≤ 2 ^ 53) : (floatOfInt n).isFinite = true := by
  obtain ⟨e, f, h1, h2⟩ := floatOfInt_exact hn
  rw [h1]; rfl

/-- A sum of samples is at most 32768 for each. -/
theorem sum_natAbs_le (rs : List Int) (hr : ∀ r, r ∈ rs → -32768 ≤ r ∧ r ≤ 32767) :
    rs.sum.natAbs ≤ 32768 * rs.length := by
  induction rs with
  | nil => simp
  | cons r rs ih =>
    have h1 := hr r List.mem_cons_self
    have h2 := ih (fun x hx => hr x (List.mem_cons_of_mem _ hx))
    rw [List.sum_cons, List.length_cons]
    omega

theorem floatOfInt_notNaN {n : Int} (hn : n.natAbs ≤ 2 ^ 53) : (floatOfInt n).isNaN = false := by
  obtain ⟨e, f, h1, h2⟩ := floatOfInt_exact hn
  rw [h1]; rfl

/-- Rounding never makes a not-a-number. -/
theorem roundMag_notNaN (neg : Bool) (a b : Nat) : (roundMag neg a b).isNaN = false := by
  have hp : ∀ m k, (packMag neg m k).isNaN = false := by
    intro m k; unfold packMag; split
    · rfl
    · split <;> rfl
  unfold roundMag; simp only; split <;> split <;> exact hp _ _

/-- The requested rate of a legal period is never a not-a-number. -/
theorem fdiv_one_notNaN {t : F64} (ht : t.isPosFinite = true) : (fdiv (floatOfInt 1) t).isNaN = false := by
  obtain ⟨e, f, h1, h2⟩ := floatOfInt_exact (n := 1) (by norm_num)
  rw [h1]
  cases t with
  | nan => cases ht
  | inf n => cases ht
  | fin n e' f' =>
    simp only [fdiv]
    have hne : magUnits e f ≠ 0 := by rw [h2]; positivity
    by_cases hm : magUnits e' f' = 0
    · rw [if_pos hm, if_neg hne]; rfl
    · rw [if_neg hm]; exact roundMag_notNaN _ _ _

theorem foldl_fadd_exact (rs : List Int) (acc : Int) (hr : ∀ r, r ∈ rs → -32768 ≤ r ∧ r ≤ 32767)
    (hb : acc.natAbs + 32768 * rs.length ≤ 2 ^ 53) :
    rs.foldl (fun acc r => fadd acc (floatOfInt r)) (floatOfInt acc) = floatOfInt (acc + rs.sum) := by
  induction rs generalizing acc with
  | nil => rw [List.foldl_nil, List.sum_nil, Int.add_zero]
  | cons r rs ih =>
    have h1 := hr r List.mem_cons_self
    rw [List.length_cons] at hb
    rw [List.foldl_cons, fadd_floatOfInt (by omega) (by omega),
      ih (acc + r) (fun x hx => hr x (List.mem_cons_of_mem _ hx)) (by omega), List.sum_cons, Int.add_assoc]

/-- Division of a datum by a power of two that its scale can lose is exact. -/
theorem fdiv_pow_exact (neg : Bool) (e : Fin 2047) (f : BitVec 52) {c k : Nat} (hc : c = 2 ^ k) (hk : k ≤ 53)
    {m j : Nat} (hm : m < 2 ^ 53) (hj : j ≤ 2045) (hV : magUnits e f = m * 2 ^ j) (hkj : k ≤ j) :
    ∃ e' f', fdiv (.fin neg e f) (floatOfInt c) = .fin neg e' f' ∧ magUnits e' f' * c = magUnits e f := by
  have hc53 : ((c : Int)).natAbs ≤ 2 ^ 53 := by
    rw [Int.natAbs_natCast, hc]; exact Nat.pow_le_pow_right (by omega) hk
  obtain ⟨e3, f3, h3, m3⟩ := floatOfInt_exact hc53
  have hneg : decide ((c : Int) < 0) = false := by simp
  rw [Int.natAbs_natCast] at m3
  have hcpos : 0 < c := by rw [hc]; positivity
  have hM3 : magUnits e3 f3 ≠ 0 := by
    rw [m3]; exact Nat.mul_ne_zero (by omega) (Nat.two_pow_pos 1074).ne'
  obtain ⟨e4, f4, h4⟩ := exists_datum (m := m) (j := j - k) hm (by omega)
  have hsplit : m * 2 ^ j = c * (m * 2 ^ (j - k)) := by
    have h2 : (2 : Nat) ^ j = 2 ^ k * 2 ^ (j - k) := by rw [Nat.mul_comm, Nat.pow_sub_mul_pow 2 hkj]
    rw [hc, h2]; ring
  obtain ⟨e', f', h5, h6⟩ := roundMag_exact (neg != false) (num := magUnits e f * 2 ^ 1074) (den := magUnits e3 f3)
    (e := e4) (f := f4) (by omega) (by
      rw [hV, m3, h4, hsplit]; generalize (2 : Nat) ^ 1074 = P; ring)
  refine ⟨e', f', ?_, ?_⟩
  · rw [h3, hneg]
    simp only [fdiv, hM3, if_false]
    exact h5.trans (by rw [Bool.bne_false])
  · rw [h6, h4, hV, hsplit]; ring

/-- The average of up to 2^38 samples is zero or lies far above the subnormal range. -/
theorem average_form {S : Int} {n : Nat} (hn : 1 ≤ n) (hn38 : n ≤ 2 ^ 38) (hS : S.natAbs ≤ 32768 * n) :
    ∃ e f m j, fdiv (floatOfInt S) (floatOfInt n) = .fin (decide (S < 0)) e f ∧ magUnits e f = m * 2 ^ j ∧
      m < 2 ^ 53 ∧ j ≤ 2045 ∧ 15 ≤ j := by
  obtain ⟨e1, f1, h1, m1⟩ := floatOfInt_exact (n := S) (by omega)
  obtain ⟨e2, f2, h2, m2⟩ := floatOfInt_exact (n := (n : Int)) (by rw [Int.natAbs_natCast]; omega)
  have hneg : decide ((n : Int) < 0) = false := by simp
  rw [Int.natAbs_natCast] at m2
  have hden : 0 < n * 2 ^ 1074 := by positivity
  have hf : fdiv (floatOfInt S) (floatOfInt n) =
      roundMag (decide (S < 0)) (S.natAbs * 2 ^ 1074 * 2 ^ 1074) (n * 2 ^ 1074) := by
    rw [h1, h2, hneg]
    simp only [fdiv, m1, m2, Nat.pos_iff_ne_zero.mp hden, if_false, Bool.bne_false]
  have hfin := (roundMag_correct (decide (S < 0)) (S.natAbs * 2 ^ 1074 * 2 ^ 1074) (n * 2 ^ 1074) hden).1 (by
    have e1 : (2 : Nat) ^ 2044 = 2 ^ 1074 * 2 ^ 970 := by rw [← Nat.pow_add]
    have e2 : (2 : Nat) ^ 15 ≤ 2 ^ 970 := Nat.pow_le_pow_right (by omega) (by omega)
    rw [e1]
    generalize (2 : Nat) ^ 970 = Q at *
    have hP : 0 < (2 : Nat) ^ 1074 := by positivity
    generalize (2 : Nat) ^ 1074 = P at *
    calc S.natAbs * P * P ≤ (32768 * n) * P * P := by
          exact Nat.mul_le_mul_right _ (Nat.mul_le_mul_right _ hS)
      _ ≤ Q * n * P * P := by
          refine Nat.mul_le_mul_right _ (Nat.mul_le_mul_right _ (Nat.mul_le_mul_right _ ?_)); omega
      _ = 1 * (n * P * (P * Q)) := by ring
      _ < (2 ^ 54 - 1) * (n * P * (P * Q)) := by
          refine Nat.mul_lt_mul_of_pos_right (by norm_num) ?_
          exact Nat.mul_pos (Nat.mul_pos hn hP) (Nat.mul_pos hP (Nat.lt_of_lt_of_le (by norm_num) e2)))
  obtain ⟨e, f, hr, hnear⟩ := hfin
  rw [hr] at hf
  obtain ⟨m, j, hV, hm, hj⟩ := magUnits_form e f
  by_cases hS0 : S.natAbs = 0
  · -- zero
    obtain ⟨e0, f0, h0⟩ := exists_datum (m := 0) (j := 15) (by norm_num) (by norm_num)
    have hg := (hnear e0 f0).1
    have hz : magUnits e f = 0 := by
      rw [h0, hS0] at hg
      unfold gap at hg
      simp only [Nat.zero_mul, Nat.mul_zero, Nat.sub_zero, Nat.zero_sub, Nat.zero_add] at hg
      have : n * 2 ^ 1074 * magUnits e f = 0 := by omega
      rcases Nat.mul_eq_zero.mp this with h | h
      · omega
      · exact h
    exact ⟨e, f, 0, 15, hf, by rw [hz]; simp, by norm_num, by norm_num, le_rfl⟩
  · -- at least 2^-38
    obtain ⟨e0, f0, h0⟩ := exists_datum (m := 1) (j := 1036) (by norm_num) (by norm_num)
    have hg := (hnear e0 f0).1
    rw [Nat.one_mul] at h0
    have hbig : 2 ^ 1036 ≤ magUnits e f := by
      by_contra hc
      rw [h0] at hg
      have e3 : (2 : Nat) ^ 1074 = 2 ^ 38 * 2 ^ 1036 := by rw [← Nat.pow_add]
      have hle : n * 2 ^ 1074 * 2 ^ 1036 ≤ S.natAbs * 2 ^ 1074 * 2 ^ 1074 := by
        have : n * 2 ^ 1036 ≤ S.natAbs * 2 ^ 1074 := by
          rw [e3]
          have h38 : n * 2 ^ 1036 ≤ 2 ^ 38 * 2 ^ 1036 := Nat.mul_le_mul_right _ hn38
          have hone : 2 ^ 38 * 2 ^ 1036 ≤ S.natAbs * (2 ^ 38 * 2 ^ 1036) := Nat.le_mul_of_pos_left _ (by omega)
          omega
        have := Nat.mul_le_mul_right (2 ^ 1074) this
        calc n * 2 ^ 1074 * 2 ^ 1036 = n * 2 ^ 1036 * 2 ^ 1074 := by ring
          _ ≤ _ := this
      have hlt : n * 2 ^ 1074 * magUnits e f < n * 2 ^ 1074 * 2 ^ 1036 :=
        Nat.mul_lt_mul_of_pos_left (by omega) hden
      rw [gap_below (by omega), gap_below hle] at hg
      omega
    refine ⟨e, f, m, j, hf, hV, hm, hj, ?_⟩
    by_contra hc
    have h14 : (2 : Nat) ^ j ≤ 2 ^ 14 := Nat.pow_le_pow_right (by omega) (by omega)
    have : m * 2 ^ j ≤ 2 ^ 53 * 2 ^ 14 := Nat.mul_le_mul (by omega) h14
    have h67 : (2 : Nat) ^ 53 * 2 ^ 14 < 2 ^ 1036 := by
      rw [← Nat.pow_add]; exact Nat.pow_lt_pow_right (by omega) (by omega)
    omega

end Sys2Proof.Machine
end

