-- ==== Sys2Proof/Laws/Tick.lean ====
section
/-! SUPPORT. What a tick does, said once: the finished tick, an attempt on an external bus, an attempt on a software bus. -/

namespace Sys2Proof.Machine

theorem mset_mset {κ α : Type} [DecidableEq κ] (lt : κ → κ → Bool) (k : κ) (v w : α) (m : List (κ × α)) :
    mset lt k w (mset lt k v m) = mset lt k w m := by
  induction m with
  | nil => simp [mset]
  | cons p m ih =>
    obtain ⟨k', v'⟩ := p
    by_cases h : k = k'
    · simp [mset, h]
    · cases hl : lt k k' <;> simp [mset, h, hl, ih]

/-- The end of a tick, from an engine already in `Sampling`. -/
def tickDone (e : Nat) (now : F64) (raw : Int) (rt : Timestamp) (w : Window) (norm : Nat) (g : Engine) (s : State) : State :=
  { s with
    engines := mset natLt e (afterTick now raw rt w norm g) s.engines
    shutLog := s.shutLog ++ (if tickTrips raw w norm g then [{ engine := e, reason := .adcOutOfRange }] else [])
    cbLog := s.cbLog ++ (if tickFires now w g then
      [{ engine := e, time := Config.estTime rt, value := cycleValue raw w norm g }] else [])
    diag := s.diag ++ (if tickTrips raw w norm g then [.shutdownTriggered e] else [])
    result := .deadline (fadd now w.sampleTime)
    busy := none }

/-- Steps 2 to 7 of a tick whose window and rate are set. -/
theorem finishTick_eq {e : Nat} {now : F64} {raw : Int} {rt : Timestamp} {g : Engine} {s : State} {w : Window}
    {r : RateRegs} (hw : g.win = some w) (hr : g.rate = some r) (hst : g.st = .sampling) :
    finishTick e now raw rt g s = .next (tickDone e now raw rt w r.norm g s) := by
  have hst' : { g with st := EngState.sampling } = g := by cases g; simp only at hst; subst hst; rfl
  by_cases hc : g.samplesTaken + 1 < w.sampleCount
  · have he : endsCycle w g = false := by simp [endsCycle]; omega
    simp only [finishTick, hw, accumulate, hc, if_true, tickDone, afterTick, tickTrips, tickFires, he, Bool.false_and,
      Bool.false_eq_true, if_false, List.append_nil]
    rw [← hst']
    rfl
  · have he : endsCycle w g = true := by simp [endsCycle]; omega
    have ho : (flt (cycleValue raw w r.norm g) w.minValue || flt w.maxValue (cycleValue raw w r.norm g)) =
        outOfRange w (cycleValue raw w r.norm g) := rfl
    have ht : tickTrips raw w r.norm g = trips w (cycleValue raw w r.norm g) g.errCount := by
      rw [tickTrips, he, ho, Bool.true_and, trips, Bool.and_assoc, Bool.decide_and]
    have hf : tickFires now w g = callbackDue g now := by
      rw [tickFires, he, callbackDue, Bool.true_and]
      all_goals cases g.cb <;> rfl
    have hcyc : cycleEngine now w (cycleValue raw w r.norm g) rt (accumulate raw g) =
        { g with
          partialSum := F64.zero
          samplesTaken := 0
          last := some { value := cycleValue raw w r.norm g, ts := rt }
          errCount := if outOfRange w (cycleValue raw w r.norm g) then g.errCount + 1 else 0
          lastCb := if callbackDue g now then now else g.lastCb } := by
      have hd : ∀ x : Engine, x.cb = g.cb → x.lastCb = g.lastCb → callbackDue x now = callbackDue g now := by
        intro x h1 h2; simp only [callbackDue, h1, h2]
      simp only [cycleEngine, gateCallback]
      rw [hd (supervise w (cycleValue raw w r.norm g) (recordCycle (cycleValue raw w r.norm g) rt (accumulate raw g)))
        rfl rfl]
      cases callbackDue g now <;> rfl
    have hlogs : cycleLogs e now w (cycleValue raw w r.norm g) rt (accumulate raw g) s =
        { s with
          shutLog := s.shutLog ++ (if trips w (cycleValue raw w r.norm g) g.errCount then
            [{ engine := e, reason := .adcOutOfRange }] else [])
          cbLog := s.cbLog ++ (if callbackDue g now then
            [{ engine := e, time := Config.estTime rt, value := cycleValue raw w r.norm g }] else [])
          diag := s.diag ++ (if trips w (cycleValue raw w r.norm g) g.errCount then [.shutdownTriggered e] else []) } := by
      have hd : callbackDue (accumulate raw g) now = callbackDue g now := rfl
      have he : (accumulate raw g).errCount = g.errCount := rfl
      simp only [cycleLogs, hd, he]
      cases trips w (cycleValue raw w r.norm g) g.errCount <;> cases callbackDue g now <;>
        simp [invokeShutdown, invokeCallback]
    have hcal : calibrated (accumulate raw g).partialSum w.sampleCount r.norm = cycleValue raw w r.norm g := rfl
    have hacc : ¬ (accumulate raw g).samplesTaken < w.sampleCount := hc
    have hrate : (accumulate raw g).rate = some r := hr
    simp only [finishTick, hw, hacc, if_false, hrate, hcal, hcyc, hlogs, tickDone, afterTick, he, if_true, ht, hf, ho]
    rw [hst]
    rfl

/-- The state after an external bus has given its next scripted response. -/
def afterResponse (h : Nat) (r : HwResponse) (rs : List HwResponse) (s : State) : State :=
  { s with env := { s.env with
      hw := mset natLt h rs s.env.hw
      hwLast := mset natLt h (hwStamp h s + r.gap) s.env.hwLast
      draws := s.env.draws + 1 } }

theorem drawResponse_eq {h : Nat} {s : State} {r : HwResponse} {rs : List HwResponse} (hr : responsesOf h s = r :: rs) :
    drawResponse h 2 s.nextDraw = (r.bytes, hwStamp h s + r.gap, afterResponse h r rs s) := by
  unfold responsesOf at hr
  simp [drawResponse, State.nextDraw, hr, hwStamp, afterResponse]

/-- An attempt that is answered short leaves the tick retrying. -/
theorem attempt_short {e : Nat} {now : F64} {g : Engine} {s : State} {h : Nat} {r : HwResponse} {rs : List HwResponse}
    (hg : g.bus = .hardware h) (hr : responsesOf h s = r :: rs) (hl : r.bytes.length < 2) :
    tickAttempt e now g s = .next { afterResponse h r rs s with
      diag := s.diag ++ [.retryOccurred e r.bytes.length]
      busy := some { engine := e, now := now } } := by
  have hd := drawResponse_eq hr
  obtain ⟨bytes, gap⟩ := r
  simp only at hl hd
  simp only [tickAttempt, memRead, hg, hd]
  rw [if_pos (by omega)]
  match bytes, hl with
  | [], _ => rfl
  | [_], _ => rfl

/-- An attempt that is answered with two bytes finishes the tick. -/
theorem attempt_hardware {e : Nat} {now : F64} {g : Engine} {s : State} {h : Nat} {b0 b1 : Byte} {gp : Nat}
    {rs : List HwResponse} {w : Window} {r : RateRegs}
    (hg : g.bus = .hardware h) (hr : responsesOf h s = { bytes := [b0, b1], gap := gp } :: rs)
    (hw : g.win = some w) (hrt : g.rate = some r) (hst : g.st = .sampling) :
    tickAttempt e now g s = .next (tickDone e now (rawSample b0 b1) (hwStamp h s + gp) w r.norm g
      (afterResponse h { bytes := [b0, b1], gap := gp } rs s)) := by
  simp only [tickAttempt, memRead, hg, drawResponse_eq hr]
  rw [if_pos (by simp)]
  exact finishTick_eq hw hrt hst

/-- An attempt on a ready software bus reads one frame and finishes the tick. -/
theorem attempt_software {e i : Nat} {now : F64} {g : Engine} {s : State} {b : Bus} {l : ClockLine} {w : Window}
    {r : RateRegs} (hg : g.bus = .software i) (hw : g.win = some w) (hrt : g.rate = some r) (hst : g.st = .sampling)
    (hb : mget i s.buses = some b) (hl : mget b.scl s.lines = some l) (hr : busReady b l = true)
    (hq : QueuesOk s) :
    ∃ b0 b1 rt u, ReadDone i 2 (Config.engineHint s.env.draws) b l rt s.nextDraw u ∧
      tickAttempt e now g s = .next (tickDone e now (rawSample b0 b1) rt w r.norm g u) ∧
      ∀ pre (ys : List Byte) rest, pre.length = sampleCount (l.tq.drop l.qhead) → ys.length = 2 →
        scriptOf b.scl s = pre ++ ys.flatMap bitsOfByte ++ rest → [b0, b1] = ys := by
  obtain ⟨xs, rt, u, e1, e2, e3, -, e5⟩ := busRead_ok (i := i) (n := 2) (h := Config.engineHint s.env.draws)
    (s := s.nextDraw) hb hl hr hq
  match xs, e2 with
  | [b0, b1], _ =>
    refine ⟨b0, b1, rt, u, e3, ?_, e5⟩
    simp only [tickAttempt, memRead, hg, e1]
    exact finishTick_eq hw hrt hst

theorem afterTick_sampling (now : F64) (raw : Int) (rt : Timestamp) (w : Window) (norm : Nat) (g : Engine) :
    afterTick now raw rt w norm (sampling g) = afterTick now raw rt w norm g := rfl

/-- The state a tick begins its attempts in. -/
def tickStart (e : Nat) (g : Engine) (s : State) : State := (s.putEngine e (sampling g)).logDiag (.tickStarted e)

/-- In `Armed` and `Sampling` a tick is its first attempt. -/
theorem exec_etick {e : Nat} {now : F64} {g : Engine} {s : State} (hg : mget e s.engines = some g)
    (hst : g.st = .armed ∨ g.st = .sampling) :
    exec (.etick e now) s = tickAttempt e now (sampling g) (tickStart e g s) := by
  simp only [exec, execEtick, hg, hst, if_true, tickStart]

/-- With nothing at the port, the step of a retrying tick is its next attempt. -/
theorem step_retry {k : Tick} {g : Engine} {s : State} (ha : s.aborted = none) (hp : s.env.port = [])
    (hb : s.busy = some k) (hg : mget k.engine s.engines = some g) : step s = tickAttempt k.engine k.now g s := by
  have hf : fetch s = .ok none := by simp [fetch, hp]
  simp only [step, ha, hf, hb, resumeTick, hg]

end Sys2Proof.Machine
end

