-- ==== Sys2Proof/Laws/Inversion.lean ====
section
/-! SUPPORT. What an operation can do, said once: an operation that answers a next state is a `Run`, a sequence of `Move`s
from a closed list, and so is an attempt of a tick. -/

namespace Sys2Proof.Machine

/-- How an operation changes the registers of the engine it names. -/
inductive EngineMove (p : Params) : Instr → Engine → Engine → Prop
  | ewin {e : Nat} {t lo hi : F64} {n rcc : Int} {w : Window} {g : Engine} (hst : g.st = .idle)
      (hw : windowOf t n lo hi rcc = some w) : EngineMove p (.ewin e t n lo hi rcc) g { g with win := some w }
  | ecb {e cb : Nat} {t : F64} {g : Engine} (k : Callback) : EngineMove p (.ecb e t cb) g { g with cb := some k }
  | ecfg {e : Nat} {g : Engine} {w : Window} (hst : g.st = .idle) (hw : g.win = some w) :
      EngineMove p (.ecfg e) g (configured p.rateCode w g)
  | earm {e : Nat} {g : Engine} {r : RateRegs} (handle : Nat) (hst : g.st = .configuring) (hr : g.rate = some r) :
      EngineMove p (.earm e) g (armed p (cfgByte p.rateCode r.rate g.gain) handle g)
  | begins {e : Nat} {now : F64} {g : Engine} (hst : g.st = .armed ∨ g.st = .sampling) :
      EngineMove p (.etick e now) g (sampling g)
  | finish {e : Nat} {now : F64} {g : Engine} (sum : F64) (n : Nat) (last : Option LastResult) (errors : Nat)
      (lastCb next : F64) (hn : n = 0 ∨ ∀ w, g.win = some w → n < w.sampleCount) :
      EngineMove p (.etick e now) g
        { g with
          partialSum := sum
          samplesTaken := n
          last := last
          errCount := errors
          lastCb := lastCb
          nextDeadline := some next }

/-- One of the changes of state that make up operation `i`, which runs on bus `bus`. -/
inductive Move (i : Instr) (bus : Option Nat) : State → State → Prop
  | env {s : State} (env : Env) (port : env.port = s.env.port)
      (maps : MapsOk s → MapsOk { s with env := env }) : Move i bus s { s with env := env }
  | give {s : State} (r : Result) : Move i bus s (s.give r)
  | emit {s : State} {j : Nat} {b : Bus} {l : ClockLine} {es : List Entry} {scl sda : Bit} (r : Result)
      (hj : bus = some j) (hb : mget j s.buses = some b) (hl : mget b.scl s.lines = some l) (hc : b.busCfg = true)
      (names : ∀ k v h, .sda k v h ∈ es → k = j) (hscl : lastScl l.sclLvl es = scl)
      (hsda : lastSda j b.sdaLvl es = sda) (idle : i.format ≠ .u → l.clkCfg = true ∧ scl = true ∧ sda = true) :
      Move i bus s (afterEmit j b l es scl sda r s)
  | run {s t : State} {c : LineId} {l : ClockLine} {es : List Entry} (hx : runsEntries bus i = true) (hl : mget c s.lines = some l)
      (hes : es <+: l.tq.drop l.qhead) (hm : Moved c es s t) : Move i bus s t
  | engine {s : State} {e : Nat} {g g' : Engine} (he : engineOf i = some e) (hg : mget e s.engines = some g)
      (hm : EngineMove s.params i g g') : Move i bus s (s.putEngine e g')
  | newEngine {s : State} {e : Nat} (ref : BusRef) (gain : Gain) (he : engineOf i = some e)
      (hg : mget e s.engines = none) : Move i bus s (s.putEngine e (newEngine ref gain s))
  | logs {s : State} (sh : List ShutRecord) (cb : List CbRecord) (hw : List HwRecord) (dg : List DiagEvent) :
      Move i bus s
        { s with
          shutLog := s.shutLog ++ sh
          cbLog := s.cbLog ++ cb
          hwLog := s.hwLog ++ hw
          diag := s.diag ++ dg }
  | done {s : State} : Move i bus s { s with busy := none }
  | retry {s : State} {e : Nat} {now : F64} (he : i = .etick e now) :
      Move i bus s { s with busy := some { engine := e, now := now } }
  | addBus {s : State} {j : Nat} (a : BitVec 7) {scl sda : LineId} (hi : bus = some j) (hc : sda.ctrl = scl.ctrl)
      (hb : mget j s.buses = none) (hu : ∀ p, p ∈ s.buses → p.2.sda ≠ sda ∧ p.2.scl ≠ sda ∧ p.2.sda ≠ scl) :
      Move i bus s (addBus j a scl sda s)
  | configureOwner {s : State} {j : Nat} {b : Bus} {l : ClockLine} (hi : bus = some j) (hb : mget j s.buses = some b)
      (hl : mget b.scl s.lines = some l) (hc : b.busCfg = false) (ho : b.owner = j) :
      Move i bus s ((s.putLine b.scl (idleLine l)).putBus j (idleBus b))
  | configureOther {s : State} {j : Nat} {b : Bus} {l : ClockLine} (hi : bus = some j) (hb : mget j s.buses = some b)
      (hl : mget b.scl s.lines = some l) (hc : b.busCfg = false) (ho : b.owner ≠ j) :
      Move i bus s (s.putBus j (idleBus b))
  | abort {s : State} (err : ConfigError) : Move i bus s { s with aborted := some err }

/-- A sequence of moves. -/
inductive Run (i : Instr) (bus : Option Nat) : State → State → Prop
  | refl (s : State) : Run i bus s s
  | step {s t u : State} (h : Move i bus s t) (r : Run i bus t u) : Run i bus s u

variable {i : Instr} {bus : Option Nat} {s t u : State}

theorem Run.one (h : Move i bus s t) : Run i bus s t := .step h (.refl _)

theorem Run.trans (h : Run i bus s t) (k : Run i bus t u) : Run i bus s u := by
  induction h with
  | refl => exact k
  | step m _ ih => exact .step m (ih k)

theorem Run.snoc (h : Run i bus s t) (k : Move i bus t u) : Run i bus s u := h.trans (.one k)

/-- A relation that every move meets and that is reflexive and transitive holds of every run. -/
theorem Run.lift {R : State → State → Prop} (refl : ∀ s, R s s) (trans : ∀ s t u, R s t → R t u → R s u)
    (move : ∀ s t, Move i bus s t → R s t) (h : Run i bus s t) : R s t := by
  induction h with
  | refl => exact refl _
  | step m _ ih => exact trans _ _ _ (move _ _ m) ih

/-! ### Emission -/

/-- A function that only emits entries of bus `j`, ending at the levels they lead to. -/
def Emits (j : Nat) (f : Lane → Lane × Result) : Prop :=
  ∀ ln, ∃ es scl sda, (f ln).1 = ln.app es scl sda ∧ (∀ k v h, .sda k v h ∈ es → k = j) ∧
    lastScl ln.scl es = scl ∧ lastSda j ln.sda es = sda

theorem lastScl_samples (j : Nat) (h : Hint) (k : Nat) : lastScl false (sampleEntries j h k) = false := by
  induction k with
  | zero => rfl
  | succ k ih => simp [sampleEntries, lastScl, ih]

theorem lastScl_cell (j : Nat) (h : Hint) (lvl v : Bit) (x : Byte) : lastScl v (cellEntries j h lvl x) = false := by
  simp [cellEntries, lastScl_append, pulseEntries, lastScl]

theorem lastSda_cell (j : Nat) (h : Hint) (lvl : Bit) (x : Byte) :
    lastSda j lvl (cellEntries j h lvl x) = x.getLsbD 0 := by
  rw [cellEntries, lastSda_append, lastSda_bitEntries_self]
  simp [pulseEntries, lastSda, bitsOfByte]

theorem emits_setl (j : Nat) (line : WireLine) (v : Bit) (h : Hint) : Emits j (fun ln => (setl j h line v ln, .none)) := by
  intro ln
  cases line
  · exact ⟨_, _, _, setl_scl_app j h v ln, by simp, rfl, rfl⟩
  · exact ⟨_, _, _, setl_sda_app j h v ln, by simp; tauto, rfl, by simp [lastSda]⟩

theorem emits_start (j : Nat) (h : Hint) : Emits j (fun ln => (start j h ln, .none)) := fun ln =>
  ⟨_, _, _, start_app j h ln, fun k v h' hm => names_startEntries _ _ _ _ _ hm, rfl, by simp [startEntries, lastSda]⟩

theorem emits_stop (p : Params) (j : Nat) (h : Hint) : Emits j (fun ln => (stop p j h ln, .none)) := fun ln =>
  ⟨_, _, _, stop_app p j h ln, fun k v h' hm => names_stopEntries _ _ _ _ _ _ hm, lastScl_stop _ _ _ _,
    lastSda_stop_self _ _ _ _⟩

theorem emits_txbit (j : Nat) (b : Bit) (h : Hint) : Emits j (fun ln => (txbit j h b ln, .none)) := fun ln =>
  ⟨_, _, _, txbit_app j h b ln, fun k v h' hm => names_bitEntries _ _ _ _ _ _ _ hm,
    by simp [bitEntries, lastScl_append, pulseEntries, lastScl], by rw [lastSda_bitEntries_self]; simp⟩

theorem emits_txbyte (j : Nat) (x : Byte) (h : Hint) : Emits j (fun ln => (txbyte j h x ln, .none)) := fun ln =>
  ⟨_, _, _, txbyte_app j h x ln, fun k v h' hm => names_cellEntries _ _ _ _ _ _ _ hm, lastScl_cell _ _ _ _ _,
    lastSda_cell _ _ _ _⟩

theorem emits_rxbit (j : Nat) (h : Hint) : Emits j (fun ln => ((rxbit j h ln).1, .position (rxbit j h ln).2)) := by
  intro ln
  refine ⟨sampleEntries j h 1, false, ln.sda, by simp only [rxbit_app], ?_, rfl, lastSda_samples _ _ _ _ _⟩
  exact fun k v h' hm => absurd hm (names_sampleEntries _ _ _ _ _ _)

theorem emits_rxbyte (j : Nat) (last : Bool) (h : Hint) :
    Emits j (fun ln => ((rxbyte j h last ln).1, .positions (rxbyte j h last ln).2)) := by
  intro ln
  refine ⟨rxCellEntries j h last, false, (last && ln.sda || !last), by simp only [rxbyte_app],
    fun k v h' hm => names_rxCellEntries _ _ _ _ _ _ hm, ?_, ?_⟩
  · rw [rxCellEntries, lastScl_append]; cases last <;> rfl
  · rw [rxCellEntries, lastSda_append, lastSda_samples]; cases last <;> simp [pulseEntries, lastSda]

theorem emits_mack (j : Nat) (h : Hint) : Emits j (fun ln => (mack j h ln, .none)) := fun ln =>
  ⟨_, _, _, mack_app j h ln, by simp [pulseEntries], rfl, by simp [pulseEntries, lastSda]⟩

theorem emits_mnack (j : Nat) (h : Hint) : Emits j (fun ln => (mnack j h ln, .none)) := fun ln =>
  ⟨_, _, _, mnack_app j h ln, by simp [pulseEntries], rfl, rfl⟩

/-- A micro-operation that answers is one emission. -/
theorem microOp_run {j : Nat} {f : Lane → Lane × Result} (hf : Emits j f) (hu : i.format = .u) (hj : bus = some j)
    (h : microOp j f s = .next t) : Run i bus s t := by
  obtain ⟨b, l, hb, hl, hc, rfl⟩ := microOp_next h
  obtain ⟨es, scl, sda, h1, h2, h3, h4⟩ := hf (laneOf b l)
  rw [h1]
  exact .one (.emit (f (laneOf b l)).2 hj hb hl hc h2 h3 h4 (fun hn => absurd hu hn))

/-! ### Bus operations -/

theorem busReady_iff {b : Bus} {l : ClockLine} : busReady b l = true ↔ b.busCfg = true ∧ l.clkCfg = true := by
  simp [busReady]

theorem busWrite_run {j : Nat} {ab : Byte} {xs : List Byte} {h : Hint} (hj : bus = some j)
    (he : busWrite j ab xs h s = .ok t) : Run i bus s t := by
  obtain ⟨b, l, hb, hl, hr, rfl⟩ := busWrite_inv he
  obtain ⟨hr1, hr2⟩ := busReady_iff.mp hr
  exact .one (.emit s.result hj hb hl hr1 (names_writeEntries _ _ _ _ _) (lastScl_writeEntries _ _ _ _ _ _)
    (lastSda_writeEntries_self _ _ _ _ _ _) (fun _ => ⟨hr2, rfl, rfl⟩))

/-- Drawing a time stamp. -/
theorem drawStamp_move (j : Nat) (s : State) : Move i bus s (drawStamp j s).2 := by
  obtain ⟨-, h⟩ := drawStamp_spec j s
  rw [h]
  refine .env _ rfl ?_
  rintro ⟨m1, m2, m3, m4, m5, m6, m7, m8⟩
  exact ⟨m1, m2, m3, m4, m5, m6, mwf_mset natLt_keyOrder _ _ m7, m8⟩

theorem autoStep_run (c : LineId) (s : State) (hx : runsEntries bus i = true) : Run i bus s (autoStep c s) := by
  cases hl : mget c s.lines with
  | none => simp [autoStep, headEntry, hl, Run.refl]
  | some l =>
    cases he : l.tq[l.qhead]? with
    | none => simp [autoStep, headEntry, hl, he, Run.refl]
    | some e =>
      rw [autoStep_eq hl he]
      obtain ⟨hlt, hget⟩ := List.getElem?_eq_some_iff.mp he
      have hes : [e] <+: l.tq.drop l.qhead := by rw [List.drop_eq_getElem_cons hlt, hget]; exact ⟨_, rfl⟩
      exact .one (.run hx hl hes (runEntry_ran c e s (by simp [hl])).toMoved)

theorem runBeside_run (c : LineId) (ds : List LineId) (s : State) (hx : runsEntries bus i = true) :
    Run i bus s (runBeside c ds s) := by
  induction ds generalizing s with
  | nil => exact .refl s
  | cons d ds ih =>
    simp only [runBeside]
    split
    · exact ih s
    · exact (autoStep_run d s hx).trans (ih _)

theorem drawBeside_move (s : State) : Move i bus s (drawBeside s).2 := by
  obtain ⟨env, h1, h2, h3, h4, h5, h6⟩ := drawBeside_spec s
  rw [h1]
  refine .env env h2 ?_
  rintro ⟨m1, m2, m3, m4, m5, m6, m7, m8⟩
  exact ⟨m1, m2, m3, m4, by rw [h3]; exact m5, by rw [h4]; exact m6, by rw [h5]; exact m7, by rw [h6]; exact m8⟩

/-- A wait is a run of executor steps, on its own clock line and on others. -/
theorem waitSteps_run (c : LineId) (k : Nat) (s : State) (hx : runsEntries bus i = true) :
    Run i bus s (waitSteps c k s) := by
  induction k generalizing s with
  | zero => exact .refl s
  | succ k ih =>
    have hothers : Run i bus s (letOthersRun c s) := by
      unfold letOthersRun
      split
      · exact .step (drawBeside_move s) (runBeside_run c _ _ hx)
      · exact .refl s
    exact (hothers.trans (autoStep_run c _ hx)).trans (ih _)

theorem busRead_run {j n : Nat} {h : Hint} {xs : List Byte} {rt : Timestamp} (hj : bus = some j)
    (hx : runsEntries bus i = true) (he : busRead j n h s = .ok (xs, rt, t)) : Run i bus s t := by
  obtain ⟨b, l, hb, hl, hr, hd⟩ := busRead_inv he
  obtain ⟨hr1, hr2⟩ := busReady_iff.mp hr
  have ht : t = (drawStamp j (drain b.scl (readEmitted j n h b l s))).2 := congrArg Prod.snd hd
  rw [ht]
  have hemit : Move i bus s (readEmitted j n h b l s) :=
    .emit s.result hj hb hl hr1 (names_readEntries _ _ _ _ _) (lastScl_readEntries _ _ _ _ _ _)
      (lastSda_readEntries_self _ _ _ _ _ _) (fun _ => ⟨hr2, rfl, rfl⟩)
  refine .step hemit ?_
  exact (waitSteps_run _ _ _ hx).snoc (drawStamp_move j _)

theorem nextDraw_move (s : State) : Move i bus s s.nextDraw := .env _ rfl (fun hm => hm)

theorem drawResponse_move (k n : Nat) (s : State) : Move i bus s (drawResponse k n s).2.2 := by
  obtain ⟨env, h1, h2, h3, h4, h5, -, -, -⟩ := drawResponse_spec k n s
  rw [h1]
  refine .env env h2 ?_
  rintro ⟨m1, m2, m3, m4, m5, m6, m7, m8⟩
  refine ⟨m1, m2, m3, m4, by rw [h3]; exact m5, ?_, by rw [h4]; exact m7, by rw [h5]; exact mwf_mset natLt_keyOrder _ _ m8⟩
  have henv : env = (drawResponse k n s).2.2.env := by rw [h1]
  rw [henv]
  unfold drawResponse
  cases (mget k s.env.hw).getD [] with
  | nil => exact m6
  | cons r rs => exact mwf_mset natLt_keyOrder _ _ m6

theorem memWrite_run {ref : BusRef} {xs : List Byte} {h : Hint} (hj : ∀ j, ref = .software j → bus = some j)
    (he : memWrite ref xs h s = .ok t) : Run i bus s t := by
  cases ref with
  | software j =>
    simp only [memWrite] at he
    split at he
    · cases he
    · exact busWrite_run (hj j rfl) he
  | hardware k =>
    have := (Except.ok.inj he).symm
    subst this
    have hm := Move.logs (i := i) (bus := bus) (s := s) [] []
      [{ bus := k, addr7 := Config.hwAddr7 k, bytes := xs }] []
    simp only [List.append_nil] at hm
    exact .one hm

theorem memRead_run {ref : BusRef} {n : Nat} {h : Hint} {xs : List Byte} {rt : Timestamp}
    (hj : ∀ j, ref = .software j → bus = some j) (hx : bus.isSome = true → runsEntries bus i = true)
    (he : memRead ref n h s = .ok (xs, rt, t)) : Run i bus s t := by
  cases ref with
  | software j => exact busRead_run (hj j rfl) (hx (by simp [hj j rfl])) he
  | hardware k =>
    simp only [memRead] at he
    split at he
    · have ht : t = (drawResponse k n s).2.2 := by rw [Except.ok.inj he]
      rw [ht]; exact .one (drawResponse_move k n s)
    · cases he

/-! ### Ticks -/

/-- A move that leaves the engines alone, or a run of such. -/
theorem memRead_engines {ref : BusRef} {n : Nat} {h : Hint} {xs : List Byte} {rt : Timestamp}
    (he : memRead ref n h s = .ok (xs, rt, t)) : t.engines = s.engines ∧ t.params = s.params := by
  cases ref with
  | software j =>
    obtain ⟨b, l, hb, hl, hr, hd⟩ := busRead_inv he
    have ht : t = (drawStamp j (drain b.scl (readEmitted j n h b l s))).2 := congrArg Prod.snd hd
    rw [ht, (drawStamp_spec j _).2]
    have hd := waitSteps_only b.scl (pending b.scl (readEmitted j n h b l s)) (readEmitted j n h b l s)
    exact ⟨hd.2.1, hd.1⟩
  | hardware k =>
    simp only [memRead] at he
    split at he
    · have ht : t = (drawResponse k n s).2.2 := by rw [Except.ok.inj he]
      obtain ⟨env, h1, -⟩ := drawResponse_spec k n s
      rw [ht, h1]; exact ⟨rfl, rfl⟩
    · cases he

theorem cycleLogs_frame (e : Nat) (now : F64) (w : Window) (cal : F64) (rt : Timestamp) (g : Engine) (s : State) :
    ∃ sh cb dg, cycleLogs e now w cal rt g s =
      { s with shutLog := s.shutLog ++ sh, cbLog := s.cbLog ++ cb, hwLog := s.hwLog ++ [], diag := s.diag ++ dg } := by
  unfold cycleLogs
  cases trips w cal g.errCount <;> cases callbackDue g now
  · exact ⟨[], [], [], by simp⟩
  · exact ⟨[], _, [], by simp [invokeCallback]; rfl⟩
  · exact ⟨_, [], _, by simp [invokeShutdown]; exact ⟨rfl, rfl⟩⟩
  · exact ⟨_, _, _, by simp [invokeShutdown, invokeCallback]; exact ⟨rfl, rfl, rfl⟩⟩

theorem reschedule_run {e : Nat} {now : F64} {w : Window} {g g' : Engine} (hg : mget e s.engines = some g)
    (hm : EngineMove s.params (.etick e now) g { g' with nextDeadline := some (fadd now w.sampleTime) }) :
    Run (.etick e now) bus s (reschedule e now w g' s) :=
  .step (.engine rfl hg hm) (.step (.give _) (.one .done))

theorem gateCallback_eq (now : F64) (g : Engine) : ∃ x, gateCallback now g = { g with lastCb := x } := by
  unfold gateCallback
  split
  · exact ⟨now, rfl⟩
  · exact ⟨g.lastCb, rfl⟩

theorem finishTick_run {e : Nat} {now : F64} {raw : Int} {rt : Timestamp} {g : Engine} (hg : mget e s.engines = some g)
    (h : finishTick e now raw rt g s = .next t) : Run (.etick e now) bus s t := by
  unfold finishTick at h
  cases hw : g.win with
  | none => simp [hw] at h
  | some w =>
    simp only [hw] at h
    split at h
    · next hlt =>
      cases h
      refine reschedule_run hg (.finish _ _ g.last g.errCount g.lastCb _ (Or.inr ?_))
      intro w' hw'; rw [hw] at hw'; cases hw'; exact hlt
    · split at h
      · cases h
      · next r hr =>
        cases h
        obtain ⟨sh, cb, dg, hlogs⟩ := cycleLogs_frame e now w (calibrated (accumulate raw g).partialSum w.sampleCount r.norm)
          rt (accumulate raw g) s
        rw [hlogs]
        refine .step (.logs sh cb [] dg) ?_
        obtain ⟨x, hx⟩ := gateCallback_eq now (supervise w (calibrated (accumulate raw g).partialSum w.sampleCount r.norm)
          (recordCycle (calibrated (accumulate raw g).partialSum w.sampleCount r.norm) rt (accumulate raw g)))
        refine reschedule_run hg ?_
        rw [cycleEngine, hx]
        exact .finish _ _ _ _ _ _ (Or.inl rfl)

/-- An attempt of a tick, from whatever state the engine is in. -/
theorem tickAttempt_run {e : Nat} {now : F64} {g : Engine} (hg : mget e s.engines = some g)
    (hj : ∀ j, g.bus = .software j → bus = some j) (h : tickAttempt e now g s = .next t) :
    Run (.etick e now) bus s t := by
  unfold tickAttempt at h
  cases hr : memRead g.bus 2 (Config.engineHint s.env.draws) s.nextDraw with
  | error r => simp [hr] at h
  | ok x =>
    obtain ⟨response, rt, u⟩ := x
    simp only [hr] at h
    have hu := memRead_engines hr
    have hg' : mget e u.engines = some g := by rw [hu.1]; exact hg
    refine .step (nextDraw_move s) ((memRead_run (i := .etick e now) hj id hr).trans ?_)
    have hl : ∀ n, Run (.etick e now) bus u
        { u.logDiag (.retryOccurred e n) with busy := some { engine := e, now := now } } := by
      intro n
      have hm := Move.logs (i := .etick e now) (bus := bus) (s := u) [] [] [] [.retryOccurred e n]
      simp only [List.append_nil] at hm
      exact .step hm (.one (.retry rfl))
    match response, h with
    | b0 :: b1 :: _, h => exact finishTick_run hg' h
    | [_], h => cases h; exact hl 1
    | [], h => cases h; exact hl 0

/-! ### Operations -/

theorem lineInUse_none {clock : Bool} {x : LineId} {m : List (Nat × Bus)} (h : lineInUse clock x m = false)
    {p : Nat × Bus} (hp : p ∈ m) : p.2.sda ≠ x ∧ (clock = true → p.2.scl ≠ x) := by
  constructor
  · intro hx; rw [lineInUse_true hp (Or.inl hx)] at h; cases h
  · intro hc hx; rw [lineInUse_true hp (Or.inr ⟨hc, hx⟩)] at h; cases h

theorem bnew_run {j a : Nat} {scl sda : LineId} (h : execBnew j a scl sda s = .next t) :
    Run (.bnew j a scl sda) (some j) s t := by
  unfold execBnew at h
  split at h
  · cases h
  · split at h
    · cases h; exact .one (.abort _)
    · next hc =>
      split at h
      · cases h
      · next hn =>
        split at h
        · cases h
        · next hu =>
          cases h
          simp only [Bool.or_eq_true, not_or, Bool.not_eq_true] at hu
          refine .one (.addBus _ rfl (not_not.mp hc) (by simpa using hn) fun p hp => ?_)
          exact ⟨(lineInUse_none hu.1 hp).1, (lineInUse_none hu.1 hp).2 rfl, (lineInUse_none hu.2 hp).1⟩

theorem bcfg_run {j : Nat} (h : execBcfg j s = .next t) : Run (.bcfg j) (some j) s t := by
  unfold execBcfg busLine at h
  cases hb : mget j s.buses with
  | none => simp [hb] at h
  | some b =>
    cases hl : mget b.scl s.lines with
    | none => simp [hb, hl] at h
    | some l =>
      simp only [hb, hl] at h
      split at h
      · cases h
      · next hc =>
        have hc : b.busCfg = false := by simpa using hc
        split at h
        · next ho => cases h; exact .step (.configureOwner rfl hb hl hc ho) (.one (.give _))
        · next ho => cases h; exact .step (.configureOther rfl hb hl hc ho) (.one (.give _))

theorem earm_run {e : Nat} (hj : ∀ g j, mget e s.engines = some g → g.bus = .software j → bus = some j)
    (h : execEarm e s = .next t) : Run (.earm e) bus s t := by
  unfold execEarm at h
  cases hg : mget e s.engines with
  | none => simp [hg] at h
  | some g =>
    simp only [hg] at h
    split at h
    · next hst =>
      cases hr : g.rate with
      | none => simp [hr] at h
      | some r =>
        simp only [hr] at h
        cases hw : memWrite g.bus [cfgByte s.params.rateCode r.rate g.gain] (Config.engineHint s.env.draws) s.nextDraw with
        | error x => simp [hw] at h
        | ok u =>
          simp only [hw] at h
          cases h
          have hu : u.engines = s.engines ∧ u.params = s.params := by
            cases hb : g.bus with
            | software j =>
              rw [hb] at hw
              simp only [memWrite] at hw
              split at hw
              · cases hw
              · obtain ⟨b, l, -, -, -, rfl⟩ := busWrite_inv hw; exact ⟨rfl, rfl⟩
            | hardware k => rw [hb] at hw; rw [← Except.ok.inj hw]; exact ⟨rfl, rfl⟩
          refine .step (nextDraw_move s) ((memWrite_run (fun j => hj g j hg) hw).trans ?_)
          refine .step (.engine rfl (by rw [hu.1]; exact hg) ?_) (.one (.give _))
          have := EngineMove.earm (p := u.params) (e := e) (g := g) (r := r) (Config.timerHandle s.env.draws) hst hr
          rwa [hu.2] at this ⊢
    · cases h

theorem qset_run {c : LineId} (h : execQset c s = .next t) : Run (.qset c) bus s t := by
  unfold execQset headEntry at h
  cases hl : mget c s.lines with
  | none => simp [hl] at h
  | some l =>
    cases he : l.tq[l.qhead]? with
    | none => simp [hl, he] at h
    | some e =>
      have hd : [e] <+: l.tq.drop l.qhead := by
        obtain ⟨hlt, rfl⟩ := List.getElem?_eq_some_iff.mp he
        rw [List.drop_eq_getElem_cons hlt]; exact ⟨_, rfl⟩
      cases e with
      | scl v x => simp only [hl, he] at h; cases h; exact .one (.run rfl hl hd (runScl_moved hl))
      | sda j v x => simp only [hl, he] at h; cases h; exact .one (.run rfl hl hd (runSda_moved hl))
      | smp j x => simp [hl, he] at h

theorem qsmp_run {c : LineId} {v : Bit} (h : execQsmp c v s = .next t) : Run (.qsmp c v) bus s t := by
  unfold execQsmp headEntry at h
  cases hl : mget c s.lines with
  | none => simp [hl] at h
  | some l =>
    cases he : l.tq[l.qhead]? with
    | none => simp [hl, he] at h
    | some e =>
      have hd : [e] <+: l.tq.drop l.qhead := by
        obtain ⟨hlt, rfl⟩ := List.getElem?_eq_some_iff.mp he
        rw [List.drop_eq_getElem_cons hlt]; exact ⟨_, rfl⟩
      cases e with
      | scl v x => simp [hl, he] at h
      | sda j v x => simp [hl, he] at h
      | smp j x => simp only [hl, he] at h; cases h; exact .one (.run rfl hl hd (runSmp_moved hl))

theorem softwareBusOf_eq {e : Nat} {g : Engine} {j : Nat} (hg : mget e s.engines = some g) (hb : g.bus = .software j) :
    softwareBusOf e s = some j := by simp [softwareBusOf, hg, hb]

/-- An engine operation on one engine that only writes its registers. -/
theorem engine_run {e : Nat} {g g' : Engine} (he : engineOf i = some e) (hg : mget e s.engines = some g)
    (hm : EngineMove s.params i g g') : Run i bus s ((s.putEngine e g').give .none) :=
  .step (.engine he hg hm) (.one (.give _))

/-- An operation that answers a next state is a run of moves of its own. -/
theorem exec_run (h : exec i s = .next t) : Run i (busOf s i) s t := by
  cases i with
  | bnew j a scl sda => exact bnew_run h
  | bcfg j => exact bcfg_run h
  | bwr j ab payload x =>
    simp only [exec, execBwr] at h
    split at h
    · split at h
      · next hw => cases h; exact (busWrite_run rfl hw).snoc (.give _)
      · cases h
    · cases h
  | brd j n x =>
    simp only [exec, execBrd] at h
    split at h
    · next hr => cases h; exact (busRead_run rfl rfl hr).snoc (.give _)
    · cases h
  | bctl j =>
    simp only [exec, execBctl] at h
    split at h
    · cases h
    · cases h; exact .one (.give _)
  | enew e ref gain =>
    simp only [exec, execEnew] at h
    split at h
    · cases h; exact .one (.abort _)
    · split at h
      · cases h
      · next hn => cases h; exact .step (.newEngine _ _ rfl (by simpa using hn)) (.one (.give _))
  | ewin e x n lo hi k =>
    simp only [exec, execEwin] at h
    split at h
    · cases h
    · next g hg =>
      split at h
      · next hst =>
        split at h
        · cases h
        · next w hw => cases h; exact engine_run rfl hg (.ewin hst hw)
      · cases h
  | ecb e x cb =>
    simp only [exec, execEcb] at h
    split at h
    · cases h
    · next g hg =>
      split at h
      · cases h
      · cases h; exact engine_run rfl hg (.ecb _)
  | ecfg e =>
    simp only [exec, execEcfg] at h
    split at h
    · cases h
    · next g hg =>
      split at h
      · next hst =>
        split at h
        · cases h
        · next w hw => cases h; exact engine_run rfl hg (.ecfg hst hw)
      · cases h
  | earm e => exact earm_run (fun g j hg hb => softwareBusOf_eq hg hb) h
  | etick e now =>
    simp only [exec, execEtick] at h
    split at h
    · cases h
    · next g hg =>
      split at h
      · next hst =>
        have hd := Move.logs (i := .etick e now) (bus := softwareBusOf e s) (s := s.putEngine e (sampling g))
          [] [] [] [.tickStarted e]
        simp only [List.append_nil] at hd
        refine .step (.engine rfl hg (.begins hst)) (.step hd ?_)
        exact tickAttempt_run (g := sampling g) (by simp [State.logDiag]) (fun j hb => softwareBusOf_eq hg hb) h
      · cases h
  | eget e =>
    simp only [exec, execEget] at h
    split at h
    · cases h
    · split at h
      · cases h; exact .one (.give _)
      · cases h; exact .step (nextDraw_move s) (.one (.give _))
  | estat e =>
    simp only [exec, execEstat] at h
    split at h
    · cases h
    · split at h
      · cases h; exact .one (.give _)
      · cases h; exact .step (nextDraw_move s) (.one (.give _))
  | setl j line v x => exact microOp_run (emits_setl j line v x) rfl rfl h
  | rel j x => exact microOp_run (emits_setl j .sda true x) rfl rfl h
  | start j x => exact microOp_run (emits_start j x) rfl rfl h
  | stop j x => exact microOp_run (emits_stop s.params j x) rfl rfl h
  | txbit j v x => exact microOp_run (emits_txbit j v x) rfl rfl h
  | txbyte j y x => exact microOp_run (emits_txbyte j y x) rfl rfl h
  | rxbit j x => exact microOp_run (emits_rxbit j x) rfl rfl h
  | rxbyte j last x => exact microOp_run (emits_rxbyte j last x) rfl rfl h
  | mack j x => exact microOp_run (emits_mack j x) rfl rfl h
  | mnack j x => exact microOp_run (emits_mnack j x) rfl rfl h
  | qset c => exact qset_run h
  | qsmp c v => exact qsmp_run h

theorem groupOf_opcode (i : Instr) : groupOf i.opcode = some i.format := by
  cases i <;> simp [groupOf, Instr.opcode, Instr.format]

/-- What a step can do, and which operation it runs: nothing, an attempt of a tick, or an operation its agent may send. -/
theorem step_cases (h : step s = .next t) :
    (running s = none ∧ t = s) ∨
    (∃ k g, running s = some (.etick k.engine k.now) ∧ s.busy = some k ∧ mget k.engine s.engines = some g ∧
      tickAttempt k.engine k.now g s = .next t) ∨
    (∃ (m : Message) (ms : List Message) (i : Instr) (rest : Bytes), running s = some i ∧ s.env.port = m :: ms ∧
      permits m.agent i.format = true ∧
      exec i { s with env := { s.env with port := portAfter m.agent rest ms } } = .next t) := by
  unfold step at h
  split at h
  · cases h
  · split at h
    · cases h
    · next i u hf =>
      refine Or.inr (Or.inr ?_)
      have hrun : running s = some i := by simp only [running, hf]
      unfold fetch at hf
      split at hf
      · cases hf
      · next m ms hp =>
        split at hf
        · cases hf
        · unfold takeCommand at hf
          split at hf
          · cases hf
          · next op ops hb =>
            split at hf
            · next hop =>
              split at hf
              · next i' rest hd =>
                simp only [Except.ok.injEq, Option.some.injEq, Prod.mk.injEq] at hf
                obtain ⟨rfl, rfl⟩ := hf
                rw [hb] at hd
                obtain ⟨ops', heq, -⟩ := decode_inv hd
                obtain ⟨rfl, -⟩ := List.cons.inj heq
                rw [mayOpen, groupOf_opcode] at hop
                exact ⟨m, ms, i', rest, hrun, hp, hop, h⟩
              · cases hf
              · cases hf
              · cases hf
            · cases hf
    · next hf =>
      split at h
      · next k hk =>
        have hrun : running s = some (.etick k.engine k.now) := by simp only [running, hf, hk, Option.map_some]
        refine Or.inr (Or.inl ?_)
        unfold resumeTick at h
        split at h
        · cases h
        · next g hg => exact ⟨k, g, hrun, hk, hg, h⟩
      · next hk => cases h; exact Or.inl ⟨by simp only [running, hf, hk, Option.map_none], rfl⟩

end Sys2Proof.Machine
end

