-- ==== Sys2Proof/Laws/Invariants.lean ====
section
/-! SUPPORT. Every invariant is kept by every run of moves: one lemma each. -/

namespace Sys2Proof.Machine

variable {i : Instr} {bus : Option Nat} {s t u : State}

/-- A predicate that every move keeps is kept by every run. -/
theorem Run.keeps {P : State → Prop} (move : ∀ s t, Move i bus s t → P s → P t) (h : Run i bus s t) (hs : P s) : P t := by
  induction h with
  | refl => exact hs
  | step m _ ih => exact ih (move _ _ m hs)

/-! ### Frames -/

theorem addBus_frame (j : Nat) (a : BitVec 7) (scl sda : LineId) (s : State) :
    (addBus j a scl sda s).params = s.params ∧ (addBus j a scl sda s).engines = s.engines ∧
    (addBus j a scl sda s).busy = s.busy ∧ (addBus j a scl sda s).env.port = s.env.port ∧
    (addBus j a scl sda s).shutLog = s.shutLog ∧ (addBus j a scl sda s).cbLog = s.cbLog ∧
    (addBus j a scl sda s).hwLog = s.hwLog ∧ (addBus j a scl sda s).diag = s.diag := by
  unfold addBus; split <;> exact ⟨rfl, rfl, rfl, rfl, rfl, rfl, rfl, rfl⟩

/-- What BNEW adds: one bus, and its clock line where that has no owner yet. -/
theorem addBus_lines (j : Nat) (a : BitVec 7) (scl sda : LineId) (s : State) :
    (∀ c l, mget c s.lines = some l → mget c (addBus j a scl sda s).lines = some l) ∧
    (∀ c l, mget c (addBus j a scl sda s).lines = some l →
      mget c s.lines = some l ∨ (c = scl ∧ mget c s.lines = none ∧ l = newLine j s)) := by
  unfold addBus
  cases hl : mget scl s.lines with
  | none =>
    simp only [give_lines, nextDraw_lines, putBus_lines, putLine_lines, mget_mset]
    refine ⟨fun c l hc => ?_, fun c l hc => ?_⟩
    · rw [if_neg (by rintro rfl; rw [hl] at hc; cases hc)]; exact hc
    · split at hc
      · next h => cases hc; subst h; exact Or.inr ⟨rfl, hl, rfl⟩
      · exact Or.inl hc
  | some l => exact ⟨fun _ _ h => h, fun _ _ h => Or.inl h⟩

theorem addBus_buses (j : Nat) (a : BitVec 7) (scl sda : LineId) (s : State) :
    ∃ o, (∀ k, mget k (addBus j a scl sda s).buses = if k = j then some (newBus a scl sda o s) else mget k s.buses) ∧
      ∃ l, mget scl (addBus j a scl sda s).lines = some l ∧ l.owner = o ∧ (mget scl s.lines = none → o = j) := by
  unfold addBus
  cases hl : mget scl s.lines with
  | none => exact ⟨j, fun k => by simp [mget_mset], newLine j s, by simp, rfl, fun _ => rfl⟩
  | some l => exact ⟨l.owner, fun k => by simp [mget_mset], l, by simpa using hl, rfl, by simp⟩

/-- No operation writes the parameters. -/
theorem Move.params (h : Move i bus s t) : t.params = s.params := by
  cases h with
  | run hx hl hes hm => exact hm.only.1.1
  | addBus a hi hc hb hu => exact (addBus_frame _ _ _ _ _).1
  | _ => rfl

/-- Only the fetch takes commands off the port. -/
theorem Move.port (h : Move i bus s t) : t.env.port = s.env.port := by
  cases h with
  | env e hp hm => exact hp
  | run hx hl hes hm => exact hm.only.1.2.2.2.2.2.2.2.2.1
  | addBus a hi hc hb hu => exact (addBus_frame _ _ _ _ _).2.2.2.1
  | _ => rfl

theorem Run.port (h : Run i bus s t) : t.env.port = s.env.port :=
  h.lift (R := fun s t => t.env.port = s.env.port) (fun _ => rfl) (fun _ _ _ h k => k.trans h) (fun _ _ m => m.port)

/-! ### Maps -/

theorem MapsOk.move (h : Move i bus s t) (hm : MapsOk s) : MapsOk t := by
  cases h with
  | env e hp k => exact k hm
  | give r => exact hm
  | @emit j b l es scl sda r hj hb hl hc names hscl hsda idle =>
    exact (MapsOk.putLine (l := { l with tq := l.tq ++ es, sclLvl := scl }) hm b.scl (mem_lines_rx (l := l) hm hl)).putBus
      j { b with sdaLvl := sda }
  | run hx hl hes k => exact k.maps hm
  | engine he hg k => exact hm.putEngine _ _
  | newEngine ref gain he hg => exact hm.putEngine _ _
  | logs sh cb hw dg => exact hm
  | done => exact hm
  | retry he => exact hm
  | addBus a hi hc hb hu =>
    unfold Machine.addBus
    split
    · exact (MapsOk.putLine hm _ (l := newLine _ s) rfl).putBus _ _
    · exact hm.putBus _ _
  | @configureOwner j b l hi hb hl hc ho =>
    exact (MapsOk.putLine (l := idleLine l) hm b.scl (mem_lines_rx (l := l) hm hl)).putBus _ _
  | configureOther hi hb hl hc ho => exact hm.putBus _ _
  | abort err => exact hm

/-! ### What is fixed at construction -/

theorem FixedKept.refl (s : State) : FixedKept s s :=
  ⟨rfl, fun _ b hb => ⟨b, hb, rfl, rfl, rfl, rfl, rfl, id⟩, fun _ g hg => ⟨g, hg, rfl, rfl, rfl⟩⟩

theorem FixedKept.trans (h : FixedKept s t) (k : FixedKept t u) : FixedKept s u := by
  obtain ⟨h1, h2, h3⟩ := h
  obtain ⟨k1, k2, k3⟩ := k
  refine ⟨k1.trans h1, fun j b hb => ?_, fun e g hg => ?_⟩
  · obtain ⟨b', a0, a1, a2, a3, a4, a5, a6⟩ := h2 j b hb
    obtain ⟨b'', c0, c1, c2, c3, c4, c5, c6⟩ := k2 j b' a0
    exact ⟨b'', c0, c1.trans a1, c2.trans a2, c3.trans a3, c4.trans a4, c5.trans a5, fun h => c6 (a6 h)⟩
  · obtain ⟨g', a0, a1, a2, a3⟩ := h3 e g hg
    obtain ⟨g'', c0, c1, c2, c3⟩ := k3 e g' a0
    exact ⟨g'', c0, c1.trans a1, c2.trans a2, c3.trans a3⟩

/-- One bus's record replaced by one with the same fixed fields. -/
theorem FixedKept.ofBus {j : Nat} {b b' : Bus} (hb : mget j s.buses = some b)
    (hf : b'.addr7 = b.addr7 ∧ b'.scl = b.scl ∧ b'.sda = b.sda ∧ b'.ctrl = b.ctrl ∧ b'.owner = b.owner ∧
      (b.busCfg = true → b'.busCfg = true))
    (hp : t.params = s.params) (he : t.engines = s.engines) (ht : t.buses = mset natLt j b' s.buses) : FixedKept s t := by
  refine ⟨hp, fun k x hk => ?_, by rw [he]; exact (FixedKept.refl s).2.2⟩
  rw [ht, mget_mset]
  split
  · next e => subst e; rw [hb] at hk; cases hk; exact ⟨b', rfl, hf⟩
  · exact (FixedKept.refl s).2.1 k x hk

theorem EngineMove.fixed {p : Params} {g g' : Engine} (h : EngineMove p i g g') :
    g'.bus = g.bus ∧ g'.gain = g.gain ∧ g'.gainCode = g.gainCode := by
  cases h <;> exact ⟨rfl, rfl, rfl⟩

theorem FixedKept.move (m : Move i bus s t) : FixedKept s t := by
  cases m with
  | env e hp k => exact FixedKept.refl s
  | give r => exact FixedKept.refl s
  | @emit j b l es scl sda r hj hb hl hc names hscl hsda idle =>
    exact .ofBus (b' := { b with sdaLvl := sda }) hb ⟨rfl, rfl, rfl, rfl, rfl, id⟩ rfl rfl rfl
  | run hx hl hes hm =>
    refine ⟨hm.only.1.1, fun k x hk => ?_, by rw [hm.only.1.2.1]; exact (FixedKept.refl s).2.2⟩
    rw [hm.bus k, hk]
    exact ⟨_, rfl, rfl, rfl, rfl, rfl, rfl, id⟩
  | engine he hg k =>
    refine ⟨rfl, (FixedKept.refl s).2.1, fun x g hx => ?_⟩
    simp only [putEngine_engines, mget_mset]
    split
    · next e => subst e; rw [hg] at hx; cases hx; exact ⟨_, rfl, k.fixed⟩
    · exact (FixedKept.refl s).2.2 x g hx
  | newEngine ref gain he hg =>
    refine ⟨rfl, (FixedKept.refl s).2.1, fun x g hx => ?_⟩
    simp only [putEngine_engines, mget_mset]
    split
    · next e => subst e; rw [hg] at hx; cases hx
    · exact (FixedKept.refl s).2.2 x g hx
  | logs sh cb hw dg => exact FixedKept.refl s
  | done => exact FixedKept.refl s
  | retry he => exact FixedKept.refl s
  | @addBus j a scl sda hi hc hb hu =>
    obtain ⟨f1, f2, -⟩ := addBus_frame j a scl sda s
    obtain ⟨o, b1, -⟩ := addBus_buses j a scl sda s
    refine ⟨f1, fun k x hk => ?_, by rw [f2]; exact (FixedKept.refl s).2.2⟩
    refine ⟨x, ?_, rfl, rfl, rfl, rfl, rfl, id⟩
    rw [b1, if_neg]; exact hk
    rintro rfl; rw [hb] at hk; cases hk
  | configureOwner hi hb hl hc ho =>
    exact .ofBus (b' := idleBus _) hb ⟨rfl, rfl, rfl, rfl, rfl, fun _ => rfl⟩ rfl rfl rfl
  | configureOther hi hb hl hc ho =>
    exact .ofBus (b' := idleBus _) hb ⟨rfl, rfl, rfl, rfl, rfl, fun _ => rfl⟩ rfl rfl rfl
  | abort err => exact FixedKept.refl s

/-! ### Queues -/

/-- Every head lies in its queue, and every line has received a bit for the samples that ran. -/
def HeadsOk (s : State) : Prop := ∀ c l, mget c s.lines = some l → QueueOk l

/-- Replacing one clock line's state by one that is in order keeps all in order. -/
theorem HeadsOk.putLine {c : LineId} {l : ClockLine} (hq : HeadsOk s) (hl : QueueOk l)
    (ht : ∀ d k, mget d t.lines = some k → (d = c ∧ k = l) ∨ mget d s.lines = some k) : HeadsOk t := by
  intro d k hd
  rcases ht d k hd with ⟨-, rfl⟩ | h
  · exact hl
  · exact hq d k h

theorem lines_of_mset {c : LineId} {l : ClockLine} {m : List (LineId × ClockLine)} (d : LineId) (k : ClockLine)
    (h : mget d (mset LineId.lt c l m) = some k) : (d = c ∧ k = l) ∨ mget d m = some k := by
  rw [mget_mset] at h
  split at h
  · next hd => cases h; exact Or.inl ⟨hd, rfl⟩
  · exact Or.inr h

theorem QueueOk.emit {l : ClockLine} (h : QueueOk l) (es : List Entry) (v : Bit) :
    QueueOk { l with tq := l.tq ++ es, sclLvl := v } := by
  refine ⟨by simp only [List.length_append]; exact Nat.le_add_right_of_le h.1, fun p => ?_⟩
  rw [h.2 p]
  refine and_congr_right fun hp => ?_
  rw [List.getElem?_append_left (Nat.lt_of_lt_of_le hp h.1)]

theorem QueueOk.run {l : ClockLine} {es : List Entry} {rx : List (Nat × Bit)} {v : Bit} (h : QueueOk l)
    (hes : es <+: l.tq.drop l.qhead)
    (hrx : ∀ p, (mget p rx).isSome = true ↔
      (mget p l.rx).isSome = true ∨ ∃ k i h, p = l.qhead + k ∧ es[k]? = some (.smp i h)) :
    QueueOk { l with wScl := v, qhead := l.qhead + es.length, rx := rx } := by
  have hlen := hes.length_le
  rw [List.length_drop] at hlen
  have hq := h.1
  refine ⟨by simp only []; omega, fun p => ?_⟩
  have hget : ∀ k, k < es.length → es[k]? = l.tq[l.qhead + k]? := by
    intro k hk
    obtain ⟨r, hr⟩ := hes
    rw [← List.getElem?_drop, ← hr, List.getElem?_append_left hk]
  rw [hrx p, h.2 p]
  constructor
  · rintro (⟨h1, h2⟩ | ⟨k, i, x, rfl, hk⟩)
    · exact ⟨by simp only []; omega, h2⟩
    · obtain ⟨hlt, -⟩ := List.getElem?_eq_some_iff.mp hk
      exact ⟨by simp only []; omega, i, x, by rw [← hk, hget k hlt]⟩
  · rintro ⟨h1, i, x, h2⟩
    simp only [] at h1 h2
    rcases Nat.lt_or_ge p l.qhead with hp | hp
    · exact Or.inl ⟨hp, i, x, h2⟩
    · refine Or.inr ⟨p - l.qhead, i, x, by omega, ?_⟩
      rw [hget _ (by omega), ← h2]; congr 1; omega

theorem HeadsOk.move (h : Move i bus s t) (hq : HeadsOk s) : HeadsOk t := by
  cases h with
  | env e hp k => exact hq
  | give r => exact hq
  | emit r hj hb hl hc names hscl hsda idle => exact hq.putLine ((hq _ _ hl).emit _ _) (fun d k h => lines_of_mset d k h)
  | @run _ c l es hx hl hes k =>
    obtain ⟨rx, h1, -, h3⟩ := k.line l hl
    refine hq.putLine (c := c) ((hq c l hl).run (v := lastScl l.wScl es) hes h3) fun d x hd => ?_
    by_cases hdc : d = c
    · subst hdc; rw [h1] at hd; cases hd; exact Or.inl ⟨rfl, rfl⟩
    · rw [k.only.2.1 d hdc] at hd; exact Or.inr hd
  | engine he hg k => exact hq
  | newEngine ref gain he hg => exact hq
  | logs sh cb hw dg => exact hq
  | done => exact hq
  | retry he => exact hq
  | @addBus j a scl sda hi hc hb hu =>
    refine hq.putLine (c := scl) (l := newLine j s) ⟨Nat.le_refl _, fun p => by simp [newLine]⟩ fun d k hd => ?_
    rcases (addBus_lines j a scl sda s).2 d k hd with h | ⟨h1, -, h2⟩
    · exact Or.inr h
    · exact Or.inl ⟨h1, h2⟩
  | @configureOwner j b l hi hb hl hc ho =>
    exact hq.putLine (c := b.scl) (l := idleLine l) (hq b.scl l hl) (fun d k h => lines_of_mset d k h)
  | configureOther hi hb hl hc ho => exact hq
  | abort err => exact hq

/-- Entries stay on the clock line of the bus they name where buses stay on theirs and no line takes an entry over. -/
theorem EntriesOk.of (hs : EntriesOk s) (hb : ∀ j b, mget j s.buses = some b → ∃ b', mget j t.buses = some b' ∧ b'.scl = b.scl)
    (hl : ∀ c l, mget c t.lines = some l → l.tq = [] ∨ ∃ k, mget c s.lines = some k ∧ l.tq = k.tq) : EntriesOk t := by
  intro c l hc j v x hm
  rcases hl c l hc with h | ⟨k, hk, h⟩
  · rw [h] at hm; cases hm
  · rw [h] at hm
    obtain ⟨b, hb1, hb2⟩ := hs c k hk j v x hm
    obtain ⟨b', h1, h2⟩ := hb j b hb1
    exact ⟨b', h1, h2.trans hb2⟩

theorem EntriesOk.move (h : Move i bus s t) (hs : EntriesOk s) : EntriesOk t := by
  have hb : ∀ j b, mget j s.buses = some b → ∃ b', mget j t.buses = some b' ∧ b'.scl = b.scl := fun j b hj => by
    obtain ⟨b', h1, -, h2, -⟩ := (FixedKept.move h).2.1 j b hj
    exact ⟨b', h1, h2⟩
  have same : ∀ c l, mget c s.lines = some l → l.tq = [] ∨ ∃ k, mget c s.lines = some k ∧ l.tq = k.tq :=
    fun c l hc => Or.inr ⟨l, hc, rfl⟩
  cases h with
  | emit r hj hbus hl hc names hscl hsda idle => exact hs.emit _ _ r hbus hl names
  | @run _ c l es hx hl hes k =>
    refine hs.of hb fun d x hd => ?_
    by_cases hdc : d = c
    · subst hdc
      obtain ⟨rx, h1, -⟩ := k.line l hl
      rw [h1] at hd; cases hd; exact Or.inr ⟨l, hl, rfl⟩
    · rw [k.only.2.1 d hdc] at hd; exact Or.inr ⟨x, hd, rfl⟩
  | @addBus j a scl sda hi hc hn hu =>
    refine hs.of hb fun d k hd => ?_
    rcases (addBus_lines j a scl sda s).2 d k hd with h | ⟨-, -, rfl⟩
    · exact Or.inr ⟨k, h, rfl⟩
    · exact Or.inl rfl
  | @configureOwner j b l hi hbus hl hc ho =>
    refine hs.of hb fun d k hd => ?_
    rcases lines_of_mset d k hd with ⟨rfl, rfl⟩ | h
    · exact Or.inr ⟨l, hl, rfl⟩
    · exact Or.inr ⟨k, h, rfl⟩
  | _ => exact hs.of hb same

theorem QueuesOk.move (h : Move i bus s t) (hq : QueuesOk s) : QueuesOk t :=
  ⟨HeadsOk.move h hq.1, EntriesOk.move h hq.2⟩

/-! ### Ownership -/

/-- What ownership reads of a clock line and of a bus. -/
def lineShape (l : ClockLine) : Nat × Bool := (l.owner, l.clkCfg)

def busShape (b : Bus) : LineId × LineId × Nat × Nat × Bool := (b.scl, b.sda, b.ctrl, b.owner, b.busCfg)

theorem BusesOk.congr (hl : ∀ c, (mget c t.lines).map lineShape = (mget c s.lines).map lineShape)
    (hb : ∀ j, (mget j t.buses).map busShape = (mget j s.buses).map busShape) (h : BusesOk s) : BusesOk t := by
  have line : ∀ c k, mget c t.lines = some k → ∃ l, mget c s.lines = some l ∧ k.owner = l.owner ∧ k.clkCfg = l.clkCfg := by
    intro c k hk
    have := hl c
    rw [hk] at this
    obtain ⟨l, h1, h2⟩ := Option.map_eq_some_iff.mp this.symm
    simp only [lineShape, Prod.mk.injEq] at h2
    exact ⟨l, h1, h2.1.symm, h2.2.symm⟩
  have line' : ∀ c l, mget c s.lines = some l → ∃ k, mget c t.lines = some k ∧ k.owner = l.owner := by
    intro c l hk
    have := hl c
    rw [hk] at this
    obtain ⟨k, h1, h2⟩ := Option.map_eq_some_iff.mp this
    simp only [lineShape, Prod.mk.injEq] at h2
    exact ⟨k, h1, h2.1⟩
  have bs : ∀ j k, mget j t.buses = some k → ∃ b, mget j s.buses = some b ∧ b.scl = k.scl ∧ b.sda = k.sda ∧
      b.ctrl = k.ctrl ∧ b.owner = k.owner := by
    intro j k hk
    have := hb j
    rw [hk] at this
    obtain ⟨b, h1, h2⟩ := Option.map_eq_some_iff.mp this.symm
    simp only [busShape, Prod.mk.injEq] at h2
    exact ⟨b, h1, h2.1, h2.2.1, h2.2.2.1, h2.2.2.2.1⟩
  have bs' : ∀ j b, mget j s.buses = some b → ∃ k, mget j t.buses = some k ∧ k.scl = b.scl ∧ k.busCfg = b.busCfg := by
    intro j b hk
    have := hb j
    rw [hk] at this
    obtain ⟨k, h1, h2⟩ := Option.map_eq_some_iff.mp this
    simp only [busShape, Prod.mk.injEq] at h2
    exact ⟨k, h1, h2.1, h2.2.2.2.2⟩
  obtain ⟨h1, h2, h3⟩ := h
  refine ⟨fun j k hk => ?_, fun c k hk => ?_, fun x y a b ha hb' hxy => ?_⟩
  · obtain ⟨b, e1, e2, e3, e4, e5⟩ := bs j k hk
    obtain ⟨f1, f2, l, f3, f4⟩ := h1 j b e1
    obtain ⟨l', g1, g2⟩ := line' _ _ f3
    exact ⟨by rw [← e4, f1, e2], by rw [← e3, f2, e2], l', by rw [← e2]; exact g1, by rw [← e5, f4, g2]⟩
  · obtain ⟨l, e1, e2, e3⟩ := line c k hk
    obtain ⟨o, f1, f2, f3⟩ := h2 c l e1
    obtain ⟨o', g1, g2, g3⟩ := bs' _ _ f1
    exact ⟨o', by rw [e2]; exact g1, by rw [g2, f2], by rw [g3, f3, e3]⟩
  · obtain ⟨a', e1, e2, e3, -⟩ := bs x a ha
    obtain ⟨b', f1, f2, f3, -⟩ := bs y b hb'
    have := h3 x y a' b' e1 f1 hxy
    rw [e3, f3, f2] at this
    exact this

theorem map_lineShape_mset {c : LineId} {l l' : ClockLine} {m : List (LineId × ClockLine)} (hl : mget c m = some l)
    (h : lineShape l' = lineShape l) (d : LineId) :
    (mget d (mset LineId.lt c l' m)).map lineShape = (mget d m).map lineShape := by
  rw [mget_mset]
  split
  · next hd => subst hd; rw [hl]; simp [h]
  · rfl

theorem map_busShape_mset {j : Nat} {b b' : Bus} {m : List (Nat × Bus)} (hb : mget j m = some b)
    (h : busShape b' = busShape b) (d : Nat) :
    (mget d (mset natLt j b' m)).map busShape = (mget d m).map busShape := by
  rw [mget_mset]
  split
  · next hd => subst hd; rw [hb]; simp [h]
  · rfl

theorem Moved.lineShape {c : LineId} {es : List Entry} (k : Moved c es s t) (d : LineId) :
    (mget d t.lines).map lineShape = (mget d s.lines).map lineShape := by
  by_cases hd : d = c
  · subst hd
    cases hl : mget d s.lines with
    | none => rw [k.none hl]
    | some l => obtain ⟨rx, h1, -⟩ := k.line l hl; rw [h1]; rfl
  · rw [k.only.2.1 d hd]

theorem Moved.busShape {c : LineId} {es : List Entry} (k : Moved c es s t) (j : Nat) :
    (mget j t.buses).map busShape = (mget j s.buses).map busShape := by
  rw [k.bus j]; cases mget j s.buses <;> rfl

/-- A line whose owner is bus `j` is the clock line of bus `j`. -/
theorem BusesOk.owner_scl (h : BusesOk s) {c : LineId} {l : ClockLine} {j : Nat} {b : Bus} (hl : mget c s.lines = some l)
    (hb : mget j s.buses = some b) (ho : l.owner = j) : b.scl = c ∧ b.busCfg = l.clkCfg := by
  obtain ⟨o, h1, h2, h3⟩ := h.2.1 c l hl
  rw [ho, hb] at h1; cases h1
  exact ⟨h2, h3⟩

theorem BusesOk.line_owner (h : BusesOk s) {l : ClockLine} {j : Nat} {b : Bus} (hl : mget b.scl s.lines = some l)
    (hb : mget j s.buses = some b) : b.owner = l.owner := by
  obtain ⟨-, -, l', h1, h2⟩ := h.1 j b hb
  rw [hl] at h1; cases h1; exact h2

theorem BusesOk.move (h : Move i bus s t) (hs : BusesOk s) : BusesOk t := by
  cases h with
  | env e hp k => exact hs
  | give r => exact hs
  | emit r hj hb hl hc names hscl hsda idle =>
    exact hs.congr (map_lineShape_mset hl rfl) (map_busShape_mset hb rfl)
  | run hx hl hes k => exact hs.congr k.lineShape k.busShape
  | engine he hg k => exact hs
  | newEngine ref gain he hg => exact hs
  | logs sh cb hw dg => exact hs
  | done => exact hs
  | retry he => exact hs
  | @addBus j a scl sda hi hc hb hu =>
    obtain ⟨o, b1, l0, b2, b3, b4⟩ := addBus_buses j a scl sda s
    obtain ⟨l1, l2⟩ := addBus_lines j a scl sda s
    obtain ⟨h1, h2, h3⟩ := hs
    have old : ∀ k x, mget k s.buses = some x → k ≠ j := by rintro k x hk rfl; rw [hb] at hk; cases hk
    refine ⟨fun k x hk => ?_, fun c l hl => ?_, fun x y p q hp hq hxy => ?_⟩
    · rw [b1] at hk
      split at hk
      · cases hk; exact ⟨rfl, hc, l0, b2, b3.symm⟩
      · obtain ⟨e1, e2, l, e3, e4⟩ := h1 k x hk
        exact ⟨e1, e2, l, l1 _ _ e3, e4⟩
    · rcases l2 c l hl with h | ⟨rfl, hn, rfl⟩
      · obtain ⟨p, e1, e2⟩ := h2 c l h
        exact ⟨p, by rw [b1, if_neg (old _ _ e1)]; exact e1, e2⟩
      · exact ⟨newBus a c sda o s, by rw [b1]; simp [newLine], rfl, rfl⟩
    · rw [b1] at hp hq
      split at hp <;> split at hq
      · next h h' => exact absurd (h.trans h'.symm) hxy
      · cases hp
        have := hu _ (mem_of_mget hq)
        exact ⟨fun he => this.1 he.symm, fun he => this.2.1 he.symm⟩
      · cases hq
        have := hu _ (mem_of_mget hp)
        exact ⟨this.1, this.2.2⟩
      · exact h3 x y p q hp hq hxy
  | @configureOwner j b l hi hb hl hc ho =>
    obtain ⟨h1, h2, h3⟩ := id hs
    have hlo : l.owner = j := by rw [← hs.line_owner hl hb, ho]
    refine ⟨fun k x hk => ?_, fun c y hy => ?_, fun x y p q hp hq hxy => ?_⟩
    · have hx : ∃ x', mget k s.buses = some x' ∧ x'.ctrl = x.ctrl ∧ x'.scl = x.scl ∧ x'.sda = x.sda ∧
          x'.owner = x.owner := by
        simp only [putBus_buses, putLine_buses, mget_mset] at hk
        split at hk
        · next e => cases hk; subst e; exact ⟨b, hb, rfl, rfl, rfl, rfl⟩
        · exact ⟨x, hk, rfl, rfl, rfl, rfl⟩
      obtain ⟨x', e0, e1, e2, e3, e4⟩ := hx
      obtain ⟨f1, f2, m, f3, f4⟩ := h1 k x' e0
      refine ⟨by rw [← e1, f1, e2], by rw [← e3, f2, e2], ?_⟩
      simp only [putBus_lines, putLine_lines, mget_mset]
      split
      · next e =>
        refine ⟨idleLine l, rfl, ?_⟩
        rw [e2, e, hl] at f3; cases f3
        rw [← e4]; exact f4
      · exact ⟨m, by rw [← e2]; exact f3, by rw [← e4]; exact f4⟩
    · simp only [putBus_lines, putLine_lines] at hy
      rw [mget_mset] at hy
      split at hy
      · next e => cases hy; exact ⟨idleBus b, by simp [idleLine, hlo], e.symm, rfl⟩
      · next e =>
        obtain ⟨o, e1, e2, e3⟩ := h2 c y hy
        have hj : y.owner ≠ j := fun hj => e (hs.owner_scl hy hb hj).1.symm
        exact ⟨o, by simp [mget_mset, hj, e1], e2, e3⟩
    · have hx : ∀ k z, mget k ((s.putLine b.scl (idleLine l)).putBus j (idleBus b)).buses = some z →
          ∃ x', mget k s.buses = some x' ∧ x'.scl = z.scl ∧ x'.sda = z.sda := by
        intro k z hk
        simp only [putBus_buses, putLine_buses, mget_mset] at hk
        split at hk
        · next e => cases hk; subst e; exact ⟨b, hb, rfl, rfl⟩
        · exact ⟨z, hk, rfl, rfl⟩
      obtain ⟨p', e1, e2, e3⟩ := hx x p hp
      obtain ⟨q', f1, f2, f3⟩ := hx y q hq
      have := h3 x y p' q' e1 f1 hxy
      rw [e3, f3, f2] at this; exact this
  | @configureOther j b l hi hb hl hc ho =>
    obtain ⟨h1, h2, h3⟩ := id hs
    have hx : ∀ k z, mget k (s.putBus j (idleBus b)).buses = some z →
        ∃ x', mget k s.buses = some x' ∧ x'.scl = z.scl ∧ x'.sda = z.sda ∧ x'.ctrl = z.ctrl ∧ x'.owner = z.owner := by
      intro k z hk
      simp only [putBus_buses, mget_mset] at hk
      split at hk
      · next e => cases hk; subst e; exact ⟨b, hb, rfl, rfl, rfl, rfl⟩
      · exact ⟨z, hk, rfl, rfl, rfl, rfl⟩
    refine ⟨fun k x hk => ?_, fun c y hy => ?_, fun x y p q hp hq hxy => ?_⟩
    · obtain ⟨x', e0, e1, e2, e3, e4⟩ := hx k x hk
      obtain ⟨f1, f2, m, f3, f4⟩ := h1 k x' e0
      exact ⟨by rw [← e3, f1, e1], by rw [← e2, f2, e1], m, by rw [← e1]; exact f3, by rw [← e4]; exact f4⟩
    · obtain ⟨o, e1, e2, e3⟩ := h2 c y hy
      have hj : y.owner ≠ j := by
        intro hj
        have hcb := (hs.owner_scl hy hb hj).1
        subst hcb
        exact ho ((hs.line_owner hy hb).trans hj)
      exact ⟨o, by simp [mget_mset, hj, e1], e2, e3⟩
    · obtain ⟨p', e1, e2, e3, -⟩ := hx x p hp
      obtain ⟨q', f1, f2, f3, -⟩ := hx y q hq
      have := h3 x y p' q' e1 f1 hxy
      rw [e3, f3, f2] at this; exact this
  | abort err => exact hs

/-! ### Levels -/

theorem drop_append_pending {l : ClockLine} (h : l.qhead ≤ l.tq.length) (es : List Entry) :
    (l.tq ++ es).drop l.qhead = l.tq.drop l.qhead ++ es := List.drop_append_of_le_length h

theorem drop_prefix {l : ClockLine} {es : List Entry} (h : es <+: l.tq.drop l.qhead) :
    es ++ l.tq.drop (l.qhead + es.length) = l.tq.drop l.qhead := by
  obtain ⟨r, hr⟩ := h
  have := congrArg (List.drop es.length) hr
  rw [List.drop_left' rfl, List.drop_drop] at this
  rw [← hr, this]

/-- Everything the levels depend on. -/
def LinesInOrder (s : State) : Prop := QueuesOk s ∧ BusesOk s ∧ LevelsOk s ∧ IdleOk s

theorem levels_emit {j : Nat} {b : Bus} {l : ClockLine} {es : List Entry} {scl sda : Bit} (r : Result)
    (h : LinesInOrder s) (hb : mget j s.buses = some b) (hl : mget b.scl s.lines = some l) (hc : b.busCfg = true)
    (names : ∀ k v h, .sda k v h ∈ es → k = j) (hscl : lastScl l.sclLvl es = scl) (hsda : lastSda j b.sdaLvl es = sda)
    (hcl : l.clkCfg = true) : LevelsOk (afterEmit j b l es scl sda r s) := by
  obtain ⟨hq, hbs, hlv, -⟩ := h
  obtain ⟨h1, h2⟩ := id hlv
  have hdrop := drop_append_pending (hq.1 _ _ hl).1 es
  have keep : ∀ k x, mget k s.buses = some x → ∃ y, mget k (mset natLt j { b with sdaLvl := sda } s.buses) = some y ∧
      y.scl = x.scl ∧ y.busCfg = x.busCfg := by
    intro k x hk
    rw [mget_mset]
    split
    · next e => subst e; rw [hb] at hk; cases hk; exact ⟨_, rfl, rfl, rfl⟩
    · exact ⟨x, hk, rfl, rfl⟩
  constructor
  · intro c y hy
    rcases lines_of_mset c y hy with ⟨rfl, rfl⟩ | hy
    · obtain ⟨-, f2, f3⟩ := h1 _ _ hl
      refine ⟨fun hn => absurd hn (by simp [hcl]), fun _ => ?_, fun k v x hm => ?_⟩
      · simp only [hdrop, lastScl_append, f2 hcl, hscl]
      · rcases List.mem_append.mp hm with hm | hm
        · obtain ⟨b', e1, e2, e3⟩ := f3 k v x hm
          obtain ⟨y, g1, g2, g3⟩ := keep _ _ e1
          exact ⟨y, g1, g2.trans e2, g3.trans e3⟩
        · rw [names k v x hm]
          obtain ⟨y, g1, g2, g3⟩ := keep _ _ hb
          exact ⟨y, g1, g2, g3.trans hc⟩
    · obtain ⟨f1, f2, f3⟩ := h1 c y hy
      refine ⟨f1, f2, fun k v x hm => ?_⟩
      obtain ⟨b', e1, e2, e3⟩ := f3 k v x hm
      obtain ⟨y, g1, g2, g3⟩ := keep _ _ e1
      exact ⟨y, g1, g2.trans e2, g3.trans e3⟩
  · intro k x y hk hy hxc
    simp only [afterEmit, mget_mset] at hk
    by_cases hkj : k = j
    · subst hkj
      rw [if_pos rfl] at hk; cases hk
      simp only [afterEmit, mget_mset_same, Option.some.injEq] at hy
      subst hy
      simp only [hdrop, lastSda_append, h2 k b l hb hl hc, hsda]
    · rw [if_neg hkj] at hk
      have hun : ∀ v, lastSda k v es = v := lastSda_unnamed fun m v z hm => by rw [names m v z hm]; exact Ne.symm hkj
      rcases lines_of_mset x.scl y hy with ⟨e, rfl⟩ | hy
      · rw [← e] at hl
        simp only [hdrop, lastSda_append, hun, h2 k x l hk hl hxc]
      · exact h2 k x y hk hy hxc

theorem levels_run {c : LineId} {l : ClockLine} {es : List Entry} (h : LevelsOk s) (hl : mget c s.lines = some l)
    (hes : es <+: l.tq.drop l.qhead) (hm : Moved c es s t) : LevelsOk t := by
  obtain ⟨h1, h2⟩ := h
  have hd := drop_prefix hes
  obtain ⟨rx, e1, -, -⟩ := hm.line l hl
  have other := hm.only.2.1
  have keep : ∀ k x, mget k s.buses = some x → ∃ y, mget k t.buses = some y ∧ y.scl = x.scl ∧ y.busCfg = x.busCfg := by
    intro k x hk
    rw [hm.bus k, hk]; exact ⟨_, rfl, rfl, rfl⟩
  constructor
  · intro d y hy
    have hy' : ∃ z, mget d s.lines = some z ∧ y.tq = z.tq ∧ y.clkCfg = z.clkCfg ∧ y.sclLvl = z.sclLvl ∧
        lastScl y.wScl (y.tq.drop y.qhead) = lastScl z.wScl (z.tq.drop z.qhead) := by
      by_cases hdc : d = c
      · subst hdc; rw [e1] at hy; cases hy
        exact ⟨l, hl, rfl, rfl, rfl, by simp only []; rw [← lastScl_append, hd]⟩
      · rw [other d hdc] at hy; exact ⟨y, hy, rfl, rfl, rfl, rfl⟩
    obtain ⟨z, z1, z2, z3, z4, z5⟩ := hy'
    obtain ⟨f1, f2, f3⟩ := h1 d z z1
    refine ⟨fun hn => by rw [z2]; exact f1 (by rw [← z3]; exact hn),
      fun hn => by rw [z5, z4]; exact f2 (by rw [← z3]; exact hn), fun k v x hmem => ?_⟩
    rw [z2] at hmem
    obtain ⟨b', g1, g2, g3⟩ := f3 k v x hmem
    obtain ⟨w, w1, w2, w3⟩ := keep _ _ g1
    exact ⟨w, w1, w2.trans g2, w3.trans g3⟩
  · intro k x y hk hy hxc
    rw [hm.bus k] at hk
    obtain ⟨x', hx', rfl⟩ := Option.map_eq_some_iff.mp hk
    by_cases hdc : x'.scl = c
    · subst hdc
      simp only [e1, Option.some.injEq] at hy; subst hy
      simp only [] at hxc ⊢
      rw [← lastSda_append, hd]
      exact h2 k x' l hx' hl hxc
    · simp only [] at hy hxc
      rw [other _ hdc] at hy
      have hun : lastSda k x'.wSda es = x'.wSda := by
        refine lastSda_unnamed (fun m v z hmem hmk => hdc ?_) _
        subst hmk
        obtain ⟨b', g1, g2, g3⟩ := (h1 c l hl).2.2 m v z (List.mem_of_mem_drop (hes.subset hmem))
        rw [hx'] at g1; cases g1; exact g2
      simp only [hun]
      exact h2 k x' y hx' hy hxc

theorem levels_addBus (j : Nat) (a : BitVec 7) (scl sda : LineId) (hbs : BusesOk s) (h : LevelsOk s)
    (hb : mget j s.buses = none) :
    LevelsOk (addBus j a scl sda s) := by
  obtain ⟨o, b1, l0, b2, b3, b4⟩ := addBus_buses j a scl sda s
  obtain ⟨l1, l2⟩ := addBus_lines j a scl sda s
  obtain ⟨h1, h2⟩ := h
  have old : ∀ k x, mget k s.buses = some x → mget k (addBus j a scl sda s).buses = some x := by
    intro k x hk; rw [b1, if_neg]; exact hk
    rintro rfl; rw [hb] at hk; cases hk
  constructor
  · intro c l hl
    rcases l2 c l hl with h | ⟨rfl, hn, rfl⟩
    · obtain ⟨f1, f2, f3⟩ := h1 c l h
      refine ⟨f1, f2, fun k v x hm => ?_⟩
      obtain ⟨b', g1, g2⟩ := f3 k v x hm
      exact ⟨b', old _ _ g1, g2⟩
    · exact ⟨fun _ => rfl, fun hn => absurd hn (by simp [newLine]), fun k v x hm => absurd hm (by simp [newLine])⟩
  · intro k x y hk hy hxc
    rw [b1] at hk
    split at hk
    · cases hk; simp [newBus] at hxc
    · rcases l2 _ y hy with h | ⟨-, hn, -⟩
      · exact h2 k x y hk h hxc
      · obtain ⟨-, -, l, e1, -⟩ := hbs.1 k x hk
        rw [hn] at e1; cases e1

theorem levels_configureOther {j : Nat} {b : Bus} {l : ClockLine} (h : LevelsOk s) (hb : mget j s.buses = some b)
    (hl : mget b.scl s.lines = some l) (hc : b.busCfg = false) : LevelsOk (s.putBus j (idleBus b)) := by
  obtain ⟨h1, h2⟩ := h
  constructor
  · intro c y hy
    obtain ⟨f1, f2, f3⟩ := h1 c y hy
    refine ⟨f1, f2, fun k v x hm => ?_⟩
    obtain ⟨b', g1, g2, g3⟩ := f3 k v x hm
    simp only [putBus_buses, mget_mset]
    split
    · next e => subst e; rw [hb] at g1; cases g1; exact ⟨_, rfl, g2, rfl⟩
    · exact ⟨b', g1, g2, g3⟩
  · intro k x y hk hy hxc
    simp only [putBus_buses, mget_mset] at hk
    split at hk
    · next e =>
      cases hk; subst e
      have hy : mget b.scl s.lines = some y := hy
      rw [hl] at hy; cases hy
      refine lastSda_unnamed (fun m v z hm hmk => ?_) _
      subst hmk
      obtain ⟨b', g1, g2, g3⟩ := (h1 _ _ hl).2.2 m v z (List.mem_of_mem_drop hm)
      rw [hb] at g1; cases g1
      rw [hc] at g3; cases g3
    · exact h2 k x y hk hy hxc

theorem levels_configureOwner {j : Nat} {b : Bus} {l : ClockLine} (h : LevelsOk s) (hb : mget j s.buses = some b)
    (hl : mget b.scl s.lines = some l) (hcl : l.clkCfg = false) :
    LevelsOk ((s.putLine b.scl (idleLine l)).putBus j (idleBus b)) := by
  obtain ⟨h1, h2⟩ := h
  have htq := (h1 _ _ hl).1 hcl
  constructor
  · intro c y hy
    rcases lines_of_mset c y hy with ⟨rfl, rfl⟩ | hy
    · exact ⟨fun hn => by simp [idleLine] at hn, fun _ => by simp [idleLine, htq, lastScl],
        fun k v x hm => absurd hm (by simp [idleLine, htq])⟩
    · obtain ⟨f1, f2, f3⟩ := h1 c y hy
      refine ⟨f1, f2, fun k v x hm => ?_⟩
      obtain ⟨b', g1, g2, g3⟩ := f3 k v x hm
      simp only [putBus_buses, putLine_buses, mget_mset]
      split
      · next e => subst e; rw [hb] at g1; cases g1; exact ⟨_, rfl, g2, rfl⟩
      · exact ⟨b', g1, g2, g3⟩
  · intro k x y hk hy hxc
    simp only [putBus_buses, putLine_buses, mget_mset] at hk
    simp only [putBus_lines, putLine_lines] at hy
    split at hk
    · next e =>
      cases hk
      have hy : mget b.scl (mset LineId.lt b.scl (idleLine l) s.lines) = some y := hy
      rw [mget_mset_same] at hy; cases hy
      simp [idleLine, htq, lastSda, idleBus]
    · rcases lines_of_mset _ y hy with ⟨e, rfl⟩ | hy
      · have := h2 k x l hk (by rw [e]; exact hl) hxc
        simpa [idleLine] using this
      · exact h2 k x y hk hy hxc

/-- Every move but an emission of a micro-operation keeps lines, levels and the idle level together. -/
theorem LinesInOrder.move (hi : i.format ≠ .u) (m : Move i bus s t) (h : LinesInOrder s) : LinesInOrder t := by
  have hq := QueuesOk.move m h.1
  have hbs := BusesOk.move m h.2.1
  refine ⟨hq, hbs, ?_⟩
  obtain ⟨hq0, hbs0, hlv, hid⟩ := id h
  cases m with
  | env e hp k => exact ⟨hlv, hid⟩
  | give r => exact ⟨hlv, hid⟩
  | emit r hj hb hl hc names hscl hsda idle =>
    obtain ⟨i1, rfl, rfl⟩ := idle hi
    refine ⟨levels_emit r h hb hl hc names hscl hsda i1, fun k x hk hx => ?_, fun c y hy hyc => ?_⟩
    · simp only [afterEmit, mget_mset] at hk
      split at hk
      · cases hk; rfl
      · exact hid.1 k x hk hx
    · rcases lines_of_mset c y hy with ⟨-, rfl⟩ | hy
      · rfl
      · exact hid.2 c y hy hyc
  | @run _ c l es hx hl hes hm =>
    refine ⟨levels_run hlv hl hes hm, fun k x hk hx => ?_, fun d y hy hyc => ?_⟩
    · rw [hm.bus k] at hk
      obtain ⟨x', hx', rfl⟩ := Option.map_eq_some_iff.mp hk
      exact hid.1 k x' hx' hx
    · by_cases hd : d = c
      · subst hd
        obtain ⟨rx, e1, -, -⟩ := hm.line l hl
        rw [e1] at hy; cases hy
        exact hid.2 d l hl hyc
      · rw [hm.only.2.1 d hd] at hy
        exact hid.2 d y hy hyc
  | engine he hg k => exact ⟨hlv, hid⟩
  | newEngine ref gain he hg => exact ⟨hlv, hid⟩
  | logs sh cb hw dg => exact ⟨hlv, hid⟩
  | done => exact ⟨hlv, hid⟩
  | retry he => exact ⟨hlv, hid⟩
  | @addBus j a scl sda hi hc hb hu =>
    obtain ⟨o, b1, -⟩ := addBus_buses j a scl sda s
    obtain ⟨-, l2⟩ := addBus_lines j a scl sda s
    refine ⟨levels_addBus j a scl sda hbs0 hlv hb, fun k x hk hx => ?_, fun c y hy hyc => ?_⟩
    · rw [b1] at hk
      split at hk
      · cases hk; simp [newBus] at hx
      · exact hid.1 k x hk hx
    · rcases l2 c y hy with h | ⟨-, -, rfl⟩
      · exact hid.2 c y h hyc
      · simp [newLine] at hyc
  | @configureOwner j b l hi hb hl hc ho =>
    have hcl : l.clkCfg = false := by
      rw [← hc]
      exact ((hbs0.owner_scl hl hb ((hbs0.line_owner hl hb).symm.trans ho)).2).symm
    refine ⟨levels_configureOwner hlv hb hl hcl, fun k x hk hx => ?_, fun c y hy hyc => ?_⟩
    · simp only [putBus_buses, putLine_buses, mget_mset] at hk
      split at hk
      · cases hk; rfl
      · exact hid.1 k x hk hx
    · rcases lines_of_mset c y hy with ⟨-, rfl⟩ | hy
      · rfl
      · exact hid.2 c y hy hyc
  | configureOther hi hb hl hc ho =>
    refine ⟨levels_configureOther hlv hb hl hc, fun k x hk hx => ?_, hid.2⟩
    simp only [putBus_buses, mget_mset] at hk
    split at hk
    · cases hk; rfl
    · exact hid.1 k x hk hx
  | abort err => exact ⟨hlv, hid⟩

/-! ### Engines -/

/-- Each change of an engine keeps its registers consistent; the end of a tick does so in `Sampling`. -/
theorem EngineMove.ok {p : Params} {g g' : Engine} (h : EngineMove p i g g')
    (ht : ∀ e now, i = .etick e now → g.st = .armed ∨ g.st = .sampling) (hg : EngineOk p.rateCode g) :
    EngineOk p.rateCode g' := by
  obtain ⟨h1, h2, h3, h4, h5, h6, h7, h8, h9⟩ := hg
  cases h with
  | @ewin e t lo hi n rcc w _ hst hw =>
    have hn : w.sampleCount = n.toNat ∧ 1 ≤ n := by
      unfold windowOf at hw
      split at hw
      · next hc => cases hw; exact ⟨rfl, hc.2.1⟩
      · cases hw
    refine ⟨h1, h2, fun r hr => ?_, fun x hx => ?_, h5, h6, h7, h8, h9⟩
    · rw [(h2.mp hst)] at hr; cases hr
    · cases hx; rw [h5 hst]; omega
  | ecb k => exact ⟨h1, h2, h3, h4, h5, h6, h7, h8, h9⟩
  | @ecfg e _ w hst hw =>
    have ht : g.timer = none := by
      have : ¬ g.timer.isSome = true := fun hs => by rcases h6.mpr hs with h | h <;> rw [hst] at h <;> cases h
      simpa using this
    refine ⟨h1, by simp [configured], fun r hr => ?_, fun x hx => ?_, by simp [configured], ?_, h7, fun x hx => ?_, h9⟩
    · simp only [configured, Option.some.injEq] at hr; subst hr
      refine ⟨by simp only [rateRegsOf], by simp only [rateRegsOf], { w with sampleTime := periodOf (selectRate w.sampleTime) },
        by simp only [configured], by simp only [rateRegsOf]⟩
    · simp only [configured, Option.some.injEq] at hx; subst hx
      exact h4 w hw
    · simp [configured, ht]
    · exfalso
      have hx : g.cfgReg = some x := hx
      rw [ht, hx] at h9; cases h9
  | @earm e _ r handle hst hr =>
    refine ⟨h1, by simp [armed, hr], h3, h4, by simp [armed], by simp [armed], rfl, fun x hx => ?_, rfl⟩
    simp only [armed, Option.some.injEq] at hx
    exact ⟨r, hr, hx.symm⟩
  | begins hst =>
    have hi : g.st ≠ .idle := by rcases hst with h | h <;> rw [h] <;> decide
    refine ⟨h1, ?_, h3, h4, by simp [sampling], ?_, h7, h8, h9⟩
    · simp only [sampling, reduceCtorEq, false_iff]; exact fun hn => hi (h2.mpr hn)
    · simp only [sampling, or_true, true_iff]; exact h6.mp hst
  | @finish e now _ sum n last errors lastCb next hn =>
    have hst := ht e now rfl
    have hi : g.st ≠ .idle := by rcases hst with h | h <;> rw [h] <;> decide
    refine ⟨h1, h2, h3, fun w hw => ?_, fun hs => absurd hs hi, h6, ?_, h8, h9⟩
    · rcases hn with rfl | hn
      · exact Nat.lt_of_le_of_lt (Nat.zero_le _) (h4 w hw)
      · exact hn w hw
    · simp only [Option.isSome_some]; exact (h6.mp hst).symm

theorem EngineMove.sampling {p : Params} {g g' : Engine} (h : EngineMove p i g g') (hs : g.st = .sampling) :
    g'.st = .sampling := by
  cases h with
  | ewin hst hw => exact hs
  | ecb k => exact hs
  | ecfg hst hw => rw [hs] at hst; cases hst
  | earm handle hst hr => rw [hs] at hst; cases hst
  | begins hst => rfl
  | finish sum n last errors lastCb next hn => exact hs

/-- Replacing one engine's registers by consistent ones. -/
theorem EnginesOk.putEngine {e : Nat} {g' : Engine} (h : EnginesOk s) (hg' : EngineOk s.params.rateCode g')
    (hs : ∀ g, mget e s.engines = some g → g.st = .sampling → g'.st = .sampling) : EnginesOk (s.putEngine e g') := by
  refine ⟨fun k g hk => ?_, fun k hk => ?_⟩
  · simp only [putEngine_engines, mget_mset] at hk
    split at hk
    · cases hk; exact hg'
    · exact h.1 k g hk
  · obtain ⟨g, e1, e2⟩ := h.2 k hk
    simp only [putEngine_engines, mget_mset]
    split
    · next hke => exact ⟨g', rfl, hs g (by rw [← hke]; exact e1) e2⟩
    · exact ⟨g, e1, e2⟩

theorem newEngine_ok (ref : BusRef) (gain : Gain) (s : State) : EngineOk s.params.rateCode (newEngine ref gain s) := by
  refine ⟨rfl, ?_, ?_, ?_, ?_, ?_, rfl, ?_, rfl⟩ <;> simp [newEngine]

/-- While operation `i` runs, the engine it ticks, if it is a tick, is in `Sampling`. -/
def TickOpen (i : Instr) (s : State) : Prop :=
  ∀ e now, i = .etick e now → ∃ g, mget e s.engines = some g ∧ g.st = .sampling

theorem EnginesOk.move (m : Move i bus s t) (h : EnginesOk s ∧ TickOpen i s) : EnginesOk t ∧ TickOpen i t := by
  obtain ⟨h, ho⟩ := h
  cases m with
  | env e hp k => exact ⟨h, ho⟩
  | give r => exact ⟨h, ho⟩
  | emit r hj hb hl hc names hscl hsda idle => exact ⟨h, ho⟩
  | run hx hl hes hm =>
    obtain ⟨a1, a2, -, -, -, -, -, a8, -⟩ := hm.only.1
    refine ⟨⟨fun k g hk => ?_, fun k hk => ?_⟩, fun e now he => ?_⟩
    · rw [a1]; exact h.1 k g (by rw [← a2]; exact hk)
    · rw [a2]; exact h.2 k (by rw [← a8]; exact hk)
    · rw [a2]; exact ho e now he
  | @engine e g g' he hg k =>
    have hst : ∀ e now, i = .etick e now → g.st = .armed ∨ g.st = .sampling := by
      intro x now hx
      obtain ⟨g0, e1, e2⟩ := ho x now hx
      subst hx
      simp only [engineOf, Option.some.injEq] at he
      subst he
      rw [hg] at e1; cases e1; exact Or.inr e2
    refine ⟨h.putEngine (k.ok hst (h.1 e g hg)) fun g0 h0 hs => ?_, fun x now hx => ?_⟩
    · rw [hg] at h0; cases h0; exact k.sampling hs
    · obtain ⟨g0, e1, e2⟩ := ho x now hx
      simp only [putEngine_engines, mget_mset]
      split
      · next hxe => subst hxe; rw [hg] at e1; cases e1; exact ⟨g', rfl, k.sampling e2⟩
      · exact ⟨g0, e1, e2⟩
  | newEngine ref gain he hg =>
    refine ⟨h.putEngine (newEngine_ok _ _ _) fun g0 h0 hs => ?_, fun x now hx => ?_⟩
    · rw [hg] at h0; cases h0
    · obtain ⟨g0, e1, e2⟩ := ho x now hx
      simp only [putEngine_engines, mget_mset]
      split
      · next hxe => subst hxe; rw [hg] at e1; cases e1
      · exact ⟨g0, e1, e2⟩
  | logs sh cb hw dg => exact ⟨h, ho⟩
  | done => exact ⟨⟨h.1, fun k hk => by cases hk⟩, ho⟩
  | retry he => exact ⟨⟨h.1, fun k hk => by cases hk; exact ho _ _ he⟩, ho⟩
  | addBus a hi hc hb hu =>
    obtain ⟨f1, f2, f3, -⟩ := addBus_frame _ a _ _ s
    refine ⟨⟨fun k g hk => ?_, fun k hk => ?_⟩, fun e now he => ?_⟩
    · rw [f1]; exact h.1 k g (by rw [← f2]; exact hk)
    · rw [f2]; exact h.2 k (by rw [← f3]; exact hk)
    · rw [f2]; exact ho e now he
  | configureOwner hi hb hl hc ho' => exact ⟨h, ho⟩
  | configureOther hi hb hl hc ho' => exact ⟨h, ho⟩
  | abort err => exact ⟨h, ho⟩

theorem tickStart_ok {e : Nat} {g : Engine} (h : EnginesOk s) (hg : mget e s.engines = some g)
    (hst : g.st = .armed ∨ g.st = .sampling) : EnginesOk (tickStart e g s) :=
  EnginesOk.putEngine h (EngineMove.ok (i := .etick e F64.zero) (.begins hst) (fun _ _ _ => hst) (h.1 e g hg))
    (fun _ _ _ => rfl)

/-! ### History -/

theorem HistoryKept.refl (s : State) : HistoryKept s s :=
  ⟨fun _ l hl => ⟨l, hl, rfl, List.prefix_refl _, Nat.le_refl _, fun _ _ _ h => h⟩, List.prefix_refl _, List.prefix_refl _,
    List.prefix_refl _, List.prefix_refl _⟩

theorem HistoryKept.trans (h : HistoryKept s t) (k : HistoryKept t u) : HistoryKept s u := by
  obtain ⟨h1, h2, h3, h4, h5⟩ := h
  obtain ⟨k1, k2, k3, k4, k5⟩ := k
  refine ⟨fun c l hl => ?_, h2.trans k2, h3.trans k3, h4.trans k4, h5.trans k5⟩
  obtain ⟨l', e1, e2, e3, e4, e5⟩ := h1 c l hl
  obtain ⟨l'', f1, f2, f3, f4, f5⟩ := k1 c l' e1
  exact ⟨l'', f1, f2.trans e2, e3.trans f3, Nat.le_trans e4 f4,
    fun p b hp hb => f5 p b (Nat.lt_of_lt_of_le hp e4) (e5 p b hp hb)⟩

/-- Nothing but one clock line's state differs, and that has only grown. -/
theorem HistoryKept.ofLine {c : LineId} {l l' : ClockLine} (hl : mget c s.lines = some l) (hl' : mget c t.lines = some l')
    (other : ∀ d, d ≠ c → mget d t.lines = mget d s.lines) (ho : l'.owner = l.owner) (htq : l.tq <+: l'.tq)
    (hq : l.qhead ≤ l'.qhead) (hrx : ∀ p, p < l.qhead → mget p l'.rx = mget p l.rx)
    (hlogs : t.shutLog = s.shutLog ∧ t.cbLog = s.cbLog ∧ t.hwLog = s.hwLog ∧ t.diag = s.diag) : HistoryKept s t := by
  obtain ⟨a, b, c', d⟩ := hlogs
  refine ⟨fun e x hx => ?_, by rw [a], by rw [b], by rw [c'], by rw [d]⟩
  by_cases he : e = c
  · subst he; rw [hl] at hx; cases hx
    exact ⟨l', hl', ho, htq, hq, fun p b hp hb => by rw [hrx p hp]; exact hb⟩
  · exact ⟨x, by rw [other e he]; exact hx, rfl, List.prefix_refl _, Nat.le_refl _, fun _ _ _ h => h⟩

theorem HistoryKept.move (m : Move i bus s t) : HistoryKept s t := by
  cases m with
  | env e hp k => exact HistoryKept.refl s
  | give r => exact HistoryKept.refl s
  | emit r hj hb hl hc names hscl hsda idle =>
    exact .ofLine hl (mget_mset_same _ _ _ _) (fun d hd => mget_mset_other _ hd _ _) rfl (List.prefix_append _ _)
      (Nat.le_refl _) (fun _ _ => rfl) ⟨rfl, rfl, rfl, rfl⟩
  | run hx hl hes hm =>
    obtain ⟨rx, e1, e2, -⟩ := hm.line _ hl
    obtain ⟨⟨-, -, a3, a4, a5, a6, -⟩, a12, -⟩ := hm.only
    exact .ofLine hl e1 a12 rfl (List.prefix_refl _) (Nat.le_add_right _ _) e2 ⟨a3, a4, a5, a6⟩
  | engine he hg k => exact HistoryKept.refl s
  | newEngine ref gain he hg => exact HistoryKept.refl s
  | logs sh cb hw dg =>
    exact ⟨(HistoryKept.refl s).1, List.prefix_append _ _, List.prefix_append _ _, List.prefix_append _ _,
      List.prefix_append _ _⟩
  | done => exact HistoryKept.refl s
  | retry he => exact HistoryKept.refl s
  | @addBus j a scl sda hi hc hb hu =>
    obtain ⟨-, -, -, -, f1, f2, f3, f4⟩ := addBus_frame j a scl sda s
    refine ⟨fun c l hl => ?_, by rw [f1], by rw [f2], by rw [f3], by rw [f4]⟩
    exact ⟨l, (addBus_lines j a scl sda s).1 c l hl, rfl, List.prefix_refl _, Nat.le_refl _, fun _ _ _ h => h⟩
  | configureOwner hi hb hl hc ho =>
    exact .ofLine hl (mget_mset_same _ _ _ _) (fun d hd => mget_mset_other _ hd _ _) rfl (List.prefix_refl _)
      (Nat.le_refl _) (fun _ _ => rfl) ⟨rfl, rfl, rfl, rfl⟩
  | configureOther hi hb hl hc ho => exact HistoryKept.refl s
  | abort err => exact HistoryKept.refl s

/-! ### Private state -/

/-- Every engine but `i`'s is as before. -/
theorem Move.otherEngines (m : Move i bus s t) (e : Nat) (g : Engine) (he : engineOf i ≠ some e)
    (hg : mget e s.engines = some g) : mget e t.engines = some g := by
  cases m with
  | run hx hl hes hm => rw [hm.only.1.2.1]; exact hg
  | engine he' hg' k => rw [putEngine_engines, mget_mset_other _ (by rintro rfl; exact he he')]; exact hg
  | newEngine ref gain he' hg' => rw [putEngine_engines, mget_mset_other _ (by rintro rfl; exact he he')]; exact hg
  | addBus a hi hc hb hu => rw [(addBus_frame _ _ _ _ _).2.1]; exact hg
  | _ => exact hg

/-- The entries that ran from `s` to `u` are those that ran from `s` to `t` and from `t` to `u`. -/
theorem executed_append {c : LineId} {l : ClockLine} (hl : mget c s.lines = some l) (h : HistoryKept s t)
    (k : HistoryKept t u) (hq : HeadsOk t) : executed c s u = executed c s t ++ executed c t u := by
  obtain ⟨l1, e1, -, ⟨w1, p1⟩, q1, -⟩ := h.1 c l hl
  obtain ⟨l2, e2, -, ⟨w2, p2⟩, q2, -⟩ := k.1 c l1 e1
  have hle := (hq c l1 e1).1
  simp only [executed, hl, e1, e2, ← p2]
  rw [List.drop_append_of_le_length (by omega), List.drop_append_of_le_length hle]
  have h1 : l1.qhead - l.qhead ≤ (l1.tq.drop l.qhead).length := by rw [List.length_drop]; omega
  have h2 : l2.qhead - l.qhead = (l1.qhead - l.qhead) + (l2.qhead - l1.qhead) := by omega
  rw [h2, List.take_add, List.take_append_of_le_length h1, List.drop_append_of_le_length h1, List.drop_drop]
  congr 4; omega

/-- Where no head moves, no entry runs. -/
theorem executed_still {c : LineId}
    (h : ∀ l, mget c s.lines = some l → ∃ l', mget c t.lines = some l' ∧ l'.qhead = l.qhead) : executed c s t = [] := by
  unfold executed
  cases hl : mget c s.lines with
  | none => rfl
  | some l =>
    obtain ⟨l', e1, e2⟩ := h l hl
    simp only [e1, e2, Nat.sub_self, List.take_zero]

/-- No head moves but by a run of entries. -/
theorem Move.heads (m : Move i bus s t) (hx : runsEntries bus i = false) (c : LineId) (l : ClockLine)
    (hl : mget c s.lines = some l) : ∃ l', mget c t.lines = some l' ∧ l'.qhead = l.qhead := by
  have put : ∀ (d : LineId) (k k' : ClockLine), mget d s.lines = some k → k'.qhead = k.qhead →
      ∃ l', mget c (mset LineId.lt d k' s.lines) = some l' ∧ l'.qhead = l.qhead := by
    intro d k k' hk hq
    rw [mget_mset]
    split
    · next h => subst h; rw [hl] at hk; cases hk; exact ⟨k', rfl, hq⟩
    · exact ⟨l, hl, rfl⟩
  cases m with
  | run hx' => rw [hx] at hx'; cases hx'
  | emit r hj hb hl' => exact put _ _ _ hl' rfl
  | @addBus j a scl sda hi hc hb hu => exact ⟨l, (addBus_lines j a scl sda s).1 c l hl, rfl⟩
  | @configureOwner j b l' hi hb hl' => exact put _ l' (idleLine l') hl' rfl
  | _ => exact ⟨l, hl, rfl⟩

theorem Run.heads (r : Run i bus s t) (hx : runsEntries bus i = false) (c : LineId) : executed c s t = [] := by
  refine executed_still (r.lift (R := fun s t => ∀ l, mget c s.lines = some l →
    ∃ l', mget c t.lines = some l' ∧ l'.qhead = l.qhead) (fun _ l hl => ⟨l, hl, rfl⟩) ?_
    (fun s t m => m.heads hx c))
  intro s t u h k l hl
  obtain ⟨l1, e1, q1⟩ := h l hl
  obtain ⟨l2, e2, q2⟩ := k l1 e1
  exact ⟨l2, e2, q2.trans q1⟩

/-- A move leaves every bus record but that of `bus` as it is, the data wire at the level the entries that ran give it. -/
theorem Move.wires (m : Move i bus s t) (hs : QueuesOk s) (j : Nat) (b : Bus) (hj : bus ≠ some j)
    (hb : mget j s.buses = some b) :
    mget j t.buses = some { b with wSda := lastSda j b.wSda (executed b.scl s t) } := by
  have still : t.buses = s.buses → runsEntries bus i = false ∨ t.lines = s.lines →
      mget j t.buses = some { b with wSda := lastSda j b.wSda (executed b.scl s t) } := by
    intro hbs hln
    have : executed b.scl s t = [] := executed_still fun l hl => by
      rcases hln with h | h
      · exact m.heads h _ l hl
      · rw [h]; exact ⟨l, hl, rfl⟩
    rw [this, hbs]; exact hb
  have other : ∀ k b', bus = some k → t.buses = mset natLt k b' s.buses →
      (∀ l, mget b.scl s.lines = some l → ∃ l', mget b.scl t.lines = some l' ∧ l'.qhead = l.qhead) →
      mget j t.buses = some { b with wSda := lastSda j b.wSda (executed b.scl s t) } := by
    intro k b' hk hbs hln
    rw [executed_still hln, hbs, mget_mset_other _ (by rintro rfl; exact hj hk)]; exact hb
  have put : ∀ (d : LineId) (k k' : ClockLine), mget d s.lines = some k → k'.qhead = k.qhead →
      ∀ l, mget b.scl s.lines = some l → ∃ l', mget b.scl (mset LineId.lt d k' s.lines) = some l' ∧ l'.qhead = l.qhead := by
    intro d k k' hk hq l hl
    rw [mget_mset]
    split
    · next h => rw [h, hk] at hl; cases hl; exact ⟨k', rfl, hq⟩
    · exact ⟨l, hl, rfl⟩
  cases m with
  | env e hp k => exact still rfl (Or.inr rfl)
  | give r => exact still rfl (Or.inr rfl)
  | emit r hk hb' hl' => exact other _ _ hk rfl (put _ _ _ hl' rfl)
  | @run _ c l es hx hl hes hm =>
    rw [hm.bus j, hb]
    simp only [Option.map_some, Option.some.injEq]
    by_cases hc : b.scl = c
    · obtain ⟨rx, e1, -⟩ := hm.line l hl
      obtain ⟨w, hw⟩ := hes
      simp only [executed, hc, hl, e1, Nat.add_sub_cancel_left, ← hw, List.take_left]
    · have hun : ∀ k v x, .sda k v x ∈ es → k ≠ j := by
        rintro k v x hm' rfl
        obtain ⟨b', g1, g2⟩ := hs.2 c l hl k v x (List.drop_subset _ _ (hes.subset hm'))
        rw [hb] at g1; cases g1; exact hc g2
      rw [lastSda_unnamed hun, executed_still fun k hk => ⟨k, by rw [hm.only.2.1 _ hc]; exact hk, rfl⟩]
      rfl
  | engine he hg k => exact still rfl (Or.inr rfl)
  | newEngine ref gain he hg => exact still rfl (Or.inr rfl)
  | logs sh cb hw dg => exact still rfl (Or.inr rfl)
  | done => exact still rfl (Or.inr rfl)
  | retry he => exact still rfl (Or.inr rfl)
  | @addBus k a scl sda hi hc hn hu =>
    obtain ⟨o, b1, -⟩ := addBus_buses k a scl sda s
    rw [executed_still fun l hl => ⟨l, (addBus_lines k a scl sda s).1 _ l hl, rfl⟩, b1,
      if_neg (by rintro rfl; exact hj hi)]
    exact hb
  | @configureOwner k b' l' hi hb' hl' => exact other _ _ hi rfl (put _ l' (idleLine l') hl' rfl)
  | configureOther hi hb' hl' => exact other _ _ hi rfl (fun l hl => ⟨l, hl, rfl⟩)
  | abort err => exact still rfl (Or.inr rfl)

/-- A run leaves every bus record but that of `bus` as it is, the data wire at the level the entries that ran give it. -/
theorem Run.wires (r : Run i bus s t) (hs : QueuesOk s) (j : Nat) (b : Bus) (l : ClockLine) (hj : bus ≠ some j)
    (hb : mget j s.buses = some b) (hl : mget b.scl s.lines = some l) :
    mget j t.buses = some { b with wSda := lastSda j b.wSda (executed b.scl s t) } := by
  have key : QueuesOk t ∧ HistoryKept s t ∧ ∀ b, mget j s.buses = some b → (mget b.scl s.lines).isSome = true →
      mget j t.buses = some { b with wSda := lastSda j b.wSda (executed b.scl s t) } := by
    refine r.lift (R := fun s t => QueuesOk s → QueuesOk t ∧ HistoryKept s t ∧ ∀ b, mget j s.buses = some b →
      (mget b.scl s.lines).isSome = true → mget j t.buses = some { b with wSda := lastSda j b.wSda (executed b.scl s t) })
      ?_ ?_ ?_ hs
    · refine fun s hs => ⟨hs, HistoryKept.refl s, fun b hb _ => ?_⟩
      rw [executed_still fun l hl => ⟨l, hl, rfl⟩]; exact hb
    · intro s t u h k hs
      obtain ⟨h1, h2, h3⟩ := h hs
      obtain ⟨k1, k2, k3⟩ := k h1
      refine ⟨k1, h2.trans k2, fun b hb hl => ?_⟩
      obtain ⟨l, hl⟩ := Option.isSome_iff_exists.mp hl
      obtain ⟨l', e1, -⟩ := h2.1 _ l hl
      rw [k3 _ (h3 b hb (by simp [hl])) (by simp [e1]), executed_append hl h2 k2 h1.1, lastSda_append]
    · exact fun s t m hs => ⟨QueuesOk.move m hs, HistoryKept.move m, fun b hb _ => m.wires hs j b hj hb⟩
  exact key.2.2 b hb (by simp [hl])

/-! ### What an operation does to the engine it names -/

/-- How operation `i` can change the registers of an engine it names. -/
def EngineStep (i : Instr) (g g' : Engine) : Prop :=
  (g'.st = g.st ∨ (g.st = .idle ∧ g'.st = .configuring ∧ ∃ e, i = .ecfg e) ∨
    (g.st = .configuring ∧ g'.st = .armed ∧ ∃ e, i = .earm e) ∨
    (g.st = .armed ∧ g'.st = .sampling ∧ ∃ e now, i = .etick e now)) ∧
  ((∀ e now, i ≠ .etick e now) → g'.partialSum = g.partialSum ∧ g'.samplesTaken = g.samplesTaken ∧ g'.last = g.last ∧
    g'.errCount = g.errCount ∧ g'.lastCb = g.lastCb) ∧
  (g.st ≠ .idle → g'.win = g.win ∧ g'.rate = g.rate) ∧
  ((∀ e, i ≠ .earm e) → g'.cfgReg = g.cfgReg ∧ g'.timer = g.timer) ∧
  ((∀ e x f, i ≠ .ecb e x f) → g'.cb = g.cb)

theorem EngineStep.refl (i : Instr) (g : Engine) : EngineStep i g g :=
  ⟨Or.inl rfl, fun _ => ⟨rfl, rfl, rfl, rfl, rfl⟩, fun _ => ⟨rfl, rfl⟩, fun _ => ⟨rfl, rfl⟩, fun _ => rfl⟩

theorem EngineStep.trans {g g' g'' : Engine} (h : EngineStep i g g') (k : EngineStep i g' g'') : EngineStep i g g'' := by
  obtain ⟨h1, h2, h3, h4, h5⟩ := h
  obtain ⟨k1, k2, k3, k4, k5⟩ := k
  have hst : g.st ≠ .idle → g'.st ≠ .idle := by
    intro hi
    rcases h1 with h | ⟨h, -⟩ | ⟨-, h, -⟩ | ⟨-, h, -⟩
    · rw [h]; exact hi
    · exact absurd h hi
    · rw [h]; decide
    · rw [h]; decide
  refine ⟨?_, fun hn => ?_, fun hn => ?_, fun hn => ?_, fun hn => (k5 hn).trans (h5 hn)⟩
  · rcases h1 with h | ⟨a, b, c⟩ | ⟨a, b, c⟩ | ⟨a, b, c⟩
    · rw [← h]; exact k1
    · obtain ⟨e, rfl⟩ := c
      rcases k1 with k | ⟨k, -⟩ | ⟨-, -, _, k⟩ | ⟨-, -, _, _, k⟩
      · exact Or.inr (Or.inl ⟨a, k.trans b, e, rfl⟩)
      · rw [b] at k; cases k
      · cases k
      · cases k
    · obtain ⟨e, rfl⟩ := c
      rcases k1 with k | ⟨-, -, _, k⟩ | ⟨k, -⟩ | ⟨-, -, _, _, k⟩
      · exact Or.inr (Or.inr (Or.inl ⟨a, k.trans b, e, rfl⟩))
      · cases k
      · rw [b] at k; cases k
      · cases k
    · obtain ⟨e, now, rfl⟩ := c
      rcases k1 with k | ⟨-, -, _, k⟩ | ⟨-, -, _, k⟩ | ⟨k, -⟩
      · exact Or.inr (Or.inr (Or.inr ⟨a, k.trans b, e, now, rfl⟩))
      · cases k
      · cases k
      · rw [b] at k; cases k
  · obtain ⟨a1, a2, a3, a4, a5⟩ := h2 hn
    obtain ⟨b1, b2, b3, b4, b5⟩ := k2 hn
    exact ⟨b1.trans a1, b2.trans a2, b3.trans a3, b4.trans a4, b5.trans a5⟩
  · obtain ⟨a1, a2⟩ := h3 hn
    obtain ⟨b1, b2⟩ := k3 (hst hn)
    exact ⟨b1.trans a1, b2.trans a2⟩
  · obtain ⟨a1, a2⟩ := h4 hn
    obtain ⟨b1, b2⟩ := k4 hn
    exact ⟨b1.trans a1, b2.trans a2⟩

theorem EngineMove.step {p : Params} {g g' : Engine} (h : EngineMove p i g g') : EngineStep i g g' := by
  cases h with
  | ewin hst hw =>
    exact ⟨Or.inl rfl, fun _ => ⟨rfl, rfl, rfl, rfl, rfl⟩, fun hn => absurd hst hn, fun _ => ⟨rfl, rfl⟩, fun _ => rfl⟩
  | ecb k =>
    exact ⟨Or.inl rfl, fun _ => ⟨rfl, rfl, rfl, rfl, rfl⟩, fun _ => ⟨rfl, rfl⟩, fun _ => ⟨rfl, rfl⟩,
      fun hn => absurd rfl (hn _ _ _)⟩
  | ecfg hst hw =>
    exact ⟨Or.inr (Or.inl ⟨hst, rfl, _, rfl⟩), fun _ => ⟨rfl, rfl, rfl, rfl, rfl⟩, fun hn => absurd hst hn,
      fun _ => ⟨rfl, rfl⟩, fun _ => rfl⟩
  | earm handle hst hr =>
    exact ⟨Or.inr (Or.inr (Or.inl ⟨hst, rfl, _, rfl⟩)), fun _ => ⟨rfl, rfl, rfl, rfl, rfl⟩, fun _ => ⟨rfl, rfl⟩,
      fun hn => absurd rfl (hn _), fun _ => rfl⟩
  | @begins e now _ hst =>
    refine ⟨?_, fun hn => absurd rfl (hn _ _), fun _ => ⟨rfl, rfl⟩, fun _ => ⟨rfl, rfl⟩, fun _ => rfl⟩
    rcases hst with h | h
    · exact Or.inr (Or.inr (Or.inr ⟨h, rfl, e, now, rfl⟩))
    · exact Or.inl h.symm
  | finish sum n last errors lastCb next hn =>
    exact ⟨Or.inl rfl, fun hn => absurd rfl (hn _ _), fun _ => ⟨rfl, rfl⟩, fun _ => ⟨rfl, rfl⟩, fun _ => rfl⟩

/-- An engine stays there, and is as before unless the operation names it. -/
theorem Move.engineStep (m : Move i bus s t) (e : Nat) (g : Engine) (hg : mget e s.engines = some g) :
    ∃ g', mget e t.engines = some g' ∧ (engineOf i = some e → EngineStep i g g') ∧ (engineOf i ≠ some e → g' = g) := by
  by_cases he : engineOf i = some e
  · have same : ∃ g', mget e s.engines = some g' ∧ (engineOf i = some e → EngineStep i g g') ∧
        (engineOf i ≠ some e → g' = g) := ⟨g, hg, fun _ => EngineStep.refl i g, fun _ => rfl⟩
    cases m with
    | engine he' hg' k =>
      rw [he] at he'; cases he'
      rw [hg] at hg'; cases hg'
      exact ⟨_, mget_mset_same _ _ _ _, fun _ => k.step, fun hn => absurd he hn⟩
    | newEngine ref gain he' hg' =>
      rw [he] at he'; cases he'
      rw [hg] at hg'; cases hg'
    | run hx hl hes hm => rw [hm.only.1.2.1]; exact same
    | addBus a hi hc hb hu => rw [(addBus_frame _ _ _ _ _).2.1]; exact same
    | _ => exact same
  · exact ⟨g, m.otherEngines e g he hg, fun h => absurd h he, fun _ => rfl⟩

theorem Run.engineStep (h : Run i bus s t) (e : Nat) (g : Engine) (hg : mget e s.engines = some g) :
    ∃ g', mget e t.engines = some g' ∧ (engineOf i = some e → EngineStep i g g') ∧ (engineOf i ≠ some e → g' = g) := by
  induction h generalizing g with
  | refl => exact ⟨g, hg, fun _ => EngineStep.refl i g, fun _ => rfl⟩
  | step m _ ih =>
    obtain ⟨g1, e1, e2, e3⟩ := m.engineStep e g hg
    obtain ⟨g2, f1, f2, f3⟩ := ih g1 e1
    exact ⟨g2, f1, fun he => (e2 he).trans (f2 he), fun he => (f3 he).trans (e3 he)⟩

end Sys2Proof.Machine
end

