-- ==== Sys2Proof/Laws/PerInstr.lean ====
section
/-! SUPPORT. Statements about every operation as syntax, one lemma per constructor. -/

namespace Sys2Proof.Laws.RoundTrip

/-- Decoding the command of an operation gives it back, whatever follows it. -/
def Statement (i : Instr) : Prop := ∀ rest : Bytes, decode (encode i ++ rest) = .ok (i, rest)

theorem bnew (i : Nat) (addr7 : Nat) (scl sda : LineId) : Statement (.bnew i addr7 scl sda) := by
  intro rest
  simp [encode, putOperands, Instr.opcode, decode, getOperands, getName, getNameHint]

theorem bcfg (i : Nat) : Statement (.bcfg i) := by
  intro rest
  simp [encode, putOperands, Instr.opcode, decode, getOperands, getName, getNameHint]

theorem bwr (i : Nat) (ab : Nat) (payload : List Nat) (h : Hint) : Statement (.bwr i ab payload h) := by
  intro rest
  simp [encode, putOperands, Instr.opcode, decode, getOperands, getName, getNameHint]

theorem brd (i : Nat) (n : Nat) (h : Hint) : Statement (.brd i n h) := by
  intro rest
  simp [encode, putOperands, Instr.opcode, decode, getOperands, getName, getNameHint]

theorem bctl (i : Nat) : Statement (.bctl i) := by
  intro rest
  simp [encode, putOperands, Instr.opcode, decode, getOperands, getName, getNameHint]

theorem enew (e : Nat) (bus : BusRef) (gain : Int) : Statement (.enew e bus gain) := by
  intro rest
  simp [encode, putOperands, Instr.opcode, decode, getOperands, getName, getNameHint]

theorem ewin (e : Nat) (sampleTime : F64) (sampleCount : Int) (min max : F64) (rcc : Int) : Statement (.ewin e sampleTime sampleCount min max rcc) := by
  intro rest
  simp [encode, putOperands, Instr.opcode, decode, getOperands, getName, getNameHint]

theorem ecb (e : Nat) (reportTime : F64) (cb : Nat) : Statement (.ecb e reportTime cb) := by
  intro rest
  simp [encode, putOperands, Instr.opcode, decode, getOperands, getName, getNameHint]

theorem ecfg (e : Nat) : Statement (.ecfg e) := by
  intro rest
  simp [encode, putOperands, Instr.opcode, decode, getOperands, getName, getNameHint]

theorem earm (e : Nat) : Statement (.earm e) := by
  intro rest
  simp [encode, putOperands, Instr.opcode, decode, getOperands, getName, getNameHint]

theorem etick (e : Nat) (now : F64) : Statement (.etick e now) := by
  intro rest
  simp [encode, putOperands, Instr.opcode, decode, getOperands, getName, getNameHint]

theorem eget (e : Nat) : Statement (.eget e) := by
  intro rest
  simp [encode, putOperands, Instr.opcode, decode, getOperands, getName, getNameHint]

theorem estat (e : Nat) : Statement (.estat e) := by
  intro rest
  simp [encode, putOperands, Instr.opcode, decode, getOperands, getName, getNameHint]

theorem setl (i : Nat) (line : WireLine) (v : Bit) (h : Hint) : Statement (.setl i line v h) := by
  intro rest
  simp [encode, putOperands, Instr.opcode, decode, getOperands, getName, getNameHint]

theorem rel (i : Nat) (h : Hint) : Statement (.rel i h) := by
  intro rest
  simp [encode, putOperands, Instr.opcode, decode, getOperands, getName, getNameHint]

theorem start (i : Nat) (h : Hint) : Statement (.start i h) := by
  intro rest
  simp [encode, putOperands, Instr.opcode, decode, getOperands, getName, getNameHint]

theorem stop (i : Nat) (h : Hint) : Statement (.stop i h) := by
  intro rest
  simp [encode, putOperands, Instr.opcode, decode, getOperands, getName, getNameHint]

theorem txbit (i : Nat) (b : Bit) (h : Hint) : Statement (.txbit i b h) := by
  intro rest
  simp [encode, putOperands, Instr.opcode, decode, getOperands, getName, getNameHint]

theorem txbyte (i : Nat) (byte : Byte) (h : Hint) : Statement (.txbyte i byte h) := by
  intro rest
  simp [encode, putOperands, Instr.opcode, decode, getOperands, getName, getNameHint]

theorem rxbit (i : Nat) (h : Hint) : Statement (.rxbit i h) := by
  intro rest
  simp [encode, putOperands, Instr.opcode, decode, getOperands, getName, getNameHint]

theorem rxbyte (i : Nat) (last : Bool) (h : Hint) : Statement (.rxbyte i last h) := by
  intro rest
  simp [encode, putOperands, Instr.opcode, decode, getOperands, getName, getNameHint]

theorem mack (i : Nat) (h : Hint) : Statement (.mack i h) := by
  intro rest
  simp [encode, putOperands, Instr.opcode, decode, getOperands, getName, getNameHint]

theorem mnack (i : Nat) (h : Hint) : Statement (.mnack i h) := by
  intro rest
  simp [encode, putOperands, Instr.opcode, decode, getOperands, getName, getNameHint]

theorem qset (c : LineId) : Statement (.qset c) := by
  intro rest
  simp [encode, putOperands, Instr.opcode, decode, getOperands, getName, getNameHint]

theorem qsmp (c : LineId) (s : Bit) : Statement (.qsmp c s) := by
  intro rest
  simp [encode, putOperands, Instr.opcode, decode, getOperands, getName, getNameHint]

end Sys2Proof.Laws.RoundTrip
end

