-- ==== Sys2Proof/Laws/Wave.lean ====
section
/-! SUPPORT. Counting the entries of a frame by kind, its clock pulses, and which of its data entries run while the clock is
high. -/

namespace Sys2Proof.Machine

/-! ### Counts -/
theorem clockLevels_append (es fs : List Entry) : clockLevels (es ++ fs) = clockLevels es ++ clockLevels fs := by
  induction es with
  | nil => rfl
  | cons e es ih => cases e <;> simp [clockLevels, ih]

theorem dataCount_append (es fs : List Entry) : dataCount (es ++ fs) = dataCount es + dataCount fs := by
  induction es with
  | nil => simp [dataCount]
  | cons e es ih => cases e <;> simp [dataCount, ih]; omega

/-- Every entry is of one kind. -/
theorem length_kinds (es : List Entry) : es.length = (clockLevels es).length + dataCount es + sampleCount es := by
  induction es with
  | nil => rfl
  | cons e es ih => cases e <;> simp [clockLevels, dataCount, sampleCount, ih] <;> omega

/-- `k` clock pulses. -/
def pulses : Nat → List Bit
  | 0 => []
  | k + 1 => true :: false :: pulses k

theorem pulses_append (j k : Nat) : pulses j ++ pulses k = pulses (j + k) := by
  induction j with
  | zero => simp [pulses]
  | succ j ih => rw [Nat.succ_add]; simp [pulses, ih]

theorem pulses_length (k : Nat) : (pulses k).length = 2 * k := by
  induction k with
  | zero => rfl
  | succ k ih => simp [pulses, ih]; omega

theorem clockLevels_bits (i : Nat) (h : Hint) (bs : List Bit) (lvl : Bit) :
    clockLevels (bitEntries i h lvl bs) = pulses bs.length := by
  induction bs generalizing lvl with
  | nil => rfl
  | cons b bs ih =>
    rw [bitEntries, clockLevels_append, clockLevels_append, ih]
    split <;> simp [clockLevels, pulseEntries, pulses]

theorem dataCount_bits (i : Nat) (h : Hint) (bs : List Bit) (lvl : Bit) :
    dataCount (bitEntries i h lvl bs) = changes lvl bs := by
  induction bs generalizing lvl with
  | nil => rfl
  | cons b bs ih =>
    rw [bitEntries, dataCount_append, dataCount_append, ih, changes]
    split <;> simp [dataCount, pulseEntries]

theorem clockLevels_cell (i : Nat) (h : Hint) (lvl : Bit) (x : Byte) : clockLevels (cellEntries i h lvl x) = pulses 9 := by
  rw [cellEntries, clockLevels_append, clockLevels_bits]; rfl

theorem dataCount_cell (i : Nat) (h : Hint) (lvl : Bit) (x : Byte) :
    dataCount (cellEntries i h lvl x) = changes lvl (bitsOfByte x) := by
  rw [cellEntries, dataCount_append, dataCount_bits]; rfl

theorem clockLevels_cells (i : Nat) (h : Hint) (xs : List Byte) (lvl : Bit) :
    clockLevels (cellsEntries i h lvl xs) = pulses (9 * xs.length) := by
  induction xs generalizing lvl with
  | nil => rfl
  | cons x xs ih =>
    rw [cellsEntries, clockLevels_append, clockLevels_cell, ih, pulses_append]
    congr 1; simp only [List.length_cons]; omega

theorem dataCount_cells (i : Nat) (h : Hint) (xs : List Byte) (lvl : Bit) :
    dataCount (cellsEntries i h lvl xs) = changesOver lvl xs := by
  induction xs generalizing lvl with
  | nil => rfl
  | cons x xs ih => rw [cellsEntries, dataCount_append, dataCount_cell, ih, changesOver]

theorem sampleCount_cells (i : Nat) (h : Hint) (xs : List Byte) (lvl : Bit) :
    sampleCount (cellsEntries i h lvl xs) = 0 := by
  induction xs generalizing lvl with
  | nil => rfl
  | cons x xs ih =>
    rw [cellsEntries, sampleCount_append, cellEntries, sampleCount_append, sampleCount_bitEntries, ih]; rfl

theorem clockLevels_samples (i : Nat) (h : Hint) (k : Nat) : clockLevels (sampleEntries i h k) = pulses k := by
  induction k with
  | zero => rfl
  | succ k ih => simp [sampleEntries, clockLevels, ih, pulses]

theorem dataCount_samples (i : Nat) (h : Hint) (k : Nat) : dataCount (sampleEntries i h k) = 0 := by
  induction k with
  | zero => rfl
  | succ k ih => simp [sampleEntries, dataCount, ih]

theorem clockLevels_rxCell (i : Nat) (h : Hint) (last : Bool) : clockLevels (rxCellEntries i h last) = pulses 9 := by
  rw [rxCellEntries, clockLevels_append, clockLevels_samples]; cases last <;> rfl

theorem clockLevels_rxCells (i : Nat) (h : Hint) (n : Nat) : clockLevels (rxCellsEntries i h n) = pulses (9 * n) := by
  induction n with
  | zero => rfl
  | succ n ih =>
    rw [rxCellsEntries, clockLevels_append, clockLevels_rxCell, ih, pulses_append]
    congr 1; omega

theorem dataCount_rxCells (i : Nat) (h : Hint) (n : Nat) : dataCount (rxCellsEntries i h n) = 2 * (n - 1) := by
  induction n with
  | zero => rfl
  | succ n ih =>
    rw [rxCellsEntries, dataCount_append, rxCellEntries, dataCount_append, dataCount_samples, ih]
    cases n with
    | zero => rfl
    | succ m => simp [pulseEntries, dataCount]; omega

theorem fallCount_pulses (k : Nat) (tail : List Bit) : fallCount (pulses k ++ true :: tail) = k + fallCount (true :: tail) := by
  induction k with
  | zero => simp [pulses]
  | succ k ih =>
    cases k with
    | zero => simp [pulses, fallCount]
    | succ m =>
      simp only [pulses, List.cons_append] at ih ⊢
      rw [fallCount, fallCount, ih]; simp; omega

theorem fallCount_pulses_nil (k : Nat) : fallCount (pulses k) = k := by
  induction k with
  | zero => rfl
  | succ k ih =>
    cases k with
    | zero => rfl
    | succ m => simp only [pulses] at ih ⊢; rw [fallCount, fallCount, ih]; simp; omega

theorem clockLevels_write (i : Nat) (h : Hint) (ab : Byte) (xs : List Byte) :
    clockLevels (writeEntries false i h ab xs) = false :: (pulses (9 * (xs.length + 1)) ++ [true]) := by
  rw [writeEntries, clockLevels_append, clockLevels_append, clockLevels_cells]; rfl

theorem read_counts (p : Params) (i : Nat) (h : Hint) (ab : Byte) (n : Nat) (hp : p.stopPrelow = false)
    (hr : p.rdAddrStop = false) :
    clockLevels (readEntries p i h ab n) = false :: (pulses (9 * (n + 1)) ++ [true]) ∧
    sampleCount (readEntries p i h ab n) = 8 * n ∧
    dataCount (readEntries p i h ab n) = 4 + changes false (bitsOfByte ab) + 2 * (n - 1) := by
  refine ⟨?_, sampleCount_readEntries i h p ab n, ?_⟩
  · simp only [readEntries, hp, hr, clockLevels_append, clockLevels_cell, clockLevels_rxCells, startEntries, stopEntries,
      clockLevels, Bool.false_eq_true, if_false, List.nil_append, List.append_nil, List.append_assoc, List.cons_append]
    rw [← List.append_assoc, pulses_append, show 9 + 9 * n = 9 * (n + 1) by omega]
  · simp only [readEntries, hp, hr, dataCount_append, dataCount_cell, dataCount_rxCells, startEntries, stopEntries,
      dataCount, Bool.false_eq_true, if_false]
    omega

/-! ### Wire conditions -/

theorem startsSeen_append (i : Nat) (slave : Nat → Bit) (a b : Bit) (es fs : List Entry) :
    startsSeen i slave a b (es ++ fs) = startsSeen i slave a b es +
      startsSeen i (fun p => slave (p + es.length)) (lastScl a es) (lastSda i b es) fs := by
  induction es generalizing slave a b with
  | nil => simp [startsSeen, lastScl, lastSda]
  | cons e es ih =>
    cases e with
    | scl v h => simp [startsSeen, lastScl, lastSda, ih, Nat.add_assoc]
    | sda j v h => by_cases hj : j = i <;> simp [startsSeen, lastScl, lastSda, ih, hj, Nat.add_assoc]
    | smp j h => simp [startsSeen, lastScl, lastSda, ih, Nat.add_assoc]

theorem stopsSeen_append (i : Nat) (a b : Bit) (es fs : List Entry) :
    stopsSeen i a b (es ++ fs) = stopsSeen i a b es + stopsSeen i (lastScl a es) (lastSda i b es) fs := by
  induction es generalizing a b with
  | nil => simp [stopsSeen, lastScl, lastSda]
  | cons e es ih =>
    cases e with
    | scl v h => simp [stopsSeen, lastScl, lastSda, ih]
    | sda j v h => by_cases hj : j = i <;> simp [stopsSeen, lastScl, lastSda, ih, hj]; omega
    | smp j h => simp [stopsSeen, lastScl, lastSda, ih]

theorem dataWhileHigh_append (a : Bit) (es fs : List Entry) :
    dataWhileHigh a (es ++ fs) = dataWhileHigh a es + dataWhileHigh (lastScl a es) fs := by
  induction es generalizing a with
  | nil => simp [dataWhileHigh, lastScl]
  | cons e es ih =>
    cases e <;> simp [dataWhileHigh, lastScl, ih]; omega

/-- Entries that, run with the clock low, move no data wire while it is high and leave it low. -/
structure Quiet (i : Nat) (es : List Entry) : Prop where
  starts : ∀ slave b, startsSeen i slave false b es = 0
  stops : ∀ b, stopsSeen i false b es = 0
  data : dataWhileHigh false es = 0
  low : lastScl false es = false

theorem Quiet.append {i : Nat} {es fs : List Entry} (h : Quiet i es) (k : Quiet i fs) : Quiet i (es ++ fs) where
  starts slave b := by rw [startsSeen_append, h.starts, h.low, k.starts]
  stops b := by rw [stopsSeen_append, h.stops, h.low, k.stops]
  data := by rw [dataWhileHigh_append, h.data, h.low, k.data]
  low := by rw [lastScl_append, h.low, k.low]

theorem Quiet.nil (i : Nat) : Quiet i [] := ⟨fun _ _ => rfl, fun _ => rfl, rfl, rfl⟩

theorem Quiet.sda (i j : Nat) (v : Bit) (h : Hint) : Quiet i [.sda j v h] := by
  constructor
  · intro slave b; by_cases hj : j = i <;> simp [startsSeen, hj]
  · intro b; by_cases hj : j = i <;> simp [stopsSeen, hj]
  · rfl
  · rfl

theorem Quiet.pulse (i : Nat) (h : Hint) : Quiet i (pulseEntries h) := ⟨fun _ _ => rfl, fun _ => rfl, rfl, rfl⟩

theorem Quiet.bits (i : Nat) (h : Hint) (bs : List Bit) (lvl : Bit) : Quiet i (bitEntries i h lvl bs) := by
  induction bs generalizing lvl with
  | nil => exact Quiet.nil i
  | cons b bs ih =>
    rw [bitEntries]
    refine (Quiet.append ?_ (Quiet.pulse i h)).append (ih b)
    split
    · exact Quiet.nil i
    · exact Quiet.sda i i b h

theorem Quiet.cell (i : Nat) (h : Hint) (lvl : Bit) (x : Byte) : Quiet i (cellEntries i h lvl x) :=
  (Quiet.bits i h _ lvl).append (Quiet.pulse i h)

theorem Quiet.cells (i : Nat) (h : Hint) (xs : List Byte) (lvl : Bit) : Quiet i (cellsEntries i h lvl xs) := by
  induction xs generalizing lvl with
  | nil => exact Quiet.nil i
  | cons x xs ih => exact (Quiet.cell i h lvl x).append (ih _)

theorem Quiet.samples (i : Nat) (h : Hint) (k : Nat) : Quiet i (sampleEntries i h k) := by
  induction k with
  | zero => exact Quiet.nil i
  | succ k ih =>
    exact Quiet.append (es := [.scl true h, .smp i h, .scl false h]) ⟨fun _ _ => rfl, fun _ => rfl, rfl, rfl⟩ ih

theorem Quiet.rxCell (i : Nat) (h : Hint) (last : Bool) : Quiet i (rxCellEntries i h last) := by
  refine (Quiet.samples i h 8).append ?_
  cases last
  · exact ((Quiet.sda i i false h).append (Quiet.pulse i h)).append (Quiet.sda i i true h)
  · exact Quiet.pulse i h

theorem Quiet.rxCells (i : Nat) (h : Hint) (n : Nat) : Quiet i (rxCellsEntries i h n) := by
  induction n with
  | zero => exact Quiet.nil i
  | succ n ih => exact (Quiet.rxCell i h _).append ih

theorem lastSda_cell_self (i : Nat) (h : Hint) (lvl : Bit) (x : Byte) :
    lastSda i lvl (cellEntries i h lvl x) = x.getLsbD 0 := by
  rw [cellEntries, lastSda_append, lastSda_bitEntries_self]
  simp [pulseEntries, lastSda, bitsOfByte, lastLevel]

theorem lastSda_cells_self (i : Nat) (h : Hint) (xs : List Byte) (lvl : Bit) (x : Byte) :
    lastSda i lvl (cellsEntries i h lvl (x :: xs)) = ((x :: xs).getLast (by simp)).getLsbD 0 := by
  induction xs generalizing lvl x with
  | nil => rw [cellsEntries, lastSda_append, lastSda_cell_self]; rfl
  | cons y ys ih =>
    rw [cellsEntries, lastSda_append, lastSda_cell_self, ih]; rfl

end Sys2Proof.Machine
end

