-- ==== Sys2Proof/Tests/Slice0.lean ====
section
/-! SUPPORT. Tests on fixed values, each with its source, and for every statement with hypotheses a state and operands that
meet them. Expected results come from spec/95_test_vectors.md or from the rule named. -/

namespace Sys2Proof.Tests

set_option Elab.async false

open Sys2Proof Sys2Proof.Machine

/-! ### Helpers -/

def c0 : LineId := ⟨0, 1⟩
def d0 : LineId := ⟨0, 2⟩
def d1 : LineId := ⟨0, 3⟩
def one : F64 := .fin false 1023 0
def minusOne : F64 := .fin true 1023 0
def eighth : F64 := .fin false 1020 0
def half : F64 := .fin false 1022 0

/-- Whether the outcome is a next state with this property. -/
def answers (o : Host.Outcome State Fault Refusal) (p : State → Bool) : Bool :=
  match o with
  | .next s => p s
  | .fault _ => false
  | .refused _ => false

/-- Whether the outcome is this refusal. -/
def refuses (o : Host.Outcome State Fault Refusal) (r : Refusal) : Bool :=
  match o with
  | .next _ => false
  | .fault _ => false
  | .refused r' => r' == r

theorem next_of {o : Host.Outcome State Fault Refusal} (h : answers o (fun _ => true) = true) : ∃ t, o = .next t := by
  cases o with
  | next s => exact ⟨s, rfl⟩
  | fault r => cases h
  | refused r => cases h

def line0 (tq : List Entry) (q : Nat) : ClockLine :=
  { owner := 0, tq := tq, qhead := q, rx := [], sclLvl := true, wScl := true, clkCfg := true }

def bus0 : Bus :=
  { addr7 := 0x50, scl := c0, sda := d0, ctrl := 0, owner := 0, sdaLvl := true, wSda := true, busCfg := true }

/-- One configured bus, with this queue. -/
def busState (tq : List Entry) (q : Nat) : State :=
  { State.reset with lines := [(c0, line0 tq q)], buses := [(0, bus0)] }

/-- One bus as BNEW leaves it, the levels chosen. -/
def rawState : State :=
  { State.reset with
    lines := [(c0, { line0 [] 0 with clkCfg := false })]
    buses := [(0, { bus0 with busCfg := false }), (1, { bus0 with sda := d1, busCfg := false })] }

def window0 : Window := { sampleTime := eighth, sampleCount := 2, minValue := minusOne, maxValue := one, rangeCheckCount := 2 }

def rate0 : RateRegs := { rate := .r8, code := 3, norm := 32768 }

/-- An engine in `Idle` with a window. -/
def idleEngine (bus : BusRef) : Engine :=
  { st := .idle, bus := bus, gain := .g2, gainCode := 1, rate := none, win := some window0, partialSum := F64.zero
    samplesTaken := 0, last := none, errCount := 0, cb := none, lastCb := F64.zero, timer := none, nextDeadline := none
    cfgReg := none }

def configuringEngine (bus : BusRef) : Engine := { idleEngine bus with st := .configuring, rate := some rate0 }

def armedEngine (bus : BusRef) : Engine :=
  { configuringEngine bus with st := .armed, timer := some 1, nextDeadline := some one, cfgReg := some 0x0D }

def samplingEngine (bus : BusRef) : Engine := { armedEngine bus with st := .sampling }

/-- One engine beside one configured bus. -/
def engineState (g : Engine) : State := { busState [] 0 with engines := [(0, g)] }

/-- The same with the next responses of external bus 7. -/
def answering (g : Engine) (rs : List HwResponse) : State :=
  { engineState g with env := { Env.empty with hw := [(7, rs)] } }

/-- A state with one message at its port. -/
def withPort (s : State) (a : Agent) (bytes : List Byte) : State :=
  { s with env := { s.env with port := [{ agent := a, bytes := bytes }] } }

/-! ### Well-formedness refuses (spec/30_encoding.md R103) -/

theorem test_wf_addr7 : Instr.wf (.bnew 0 128 c0 d0) = false := by decide
theorem test_wf_addr7_ok : Instr.wf (.bnew 0 127 c0 d0) = true := by decide
theorem test_wf_address_byte : Instr.wf (.bwr 0 256 [] 0) = false := by decide
theorem test_wf_payload : Instr.wf (.bwr 0 255 [0, 256] 0) = false := by decide
theorem test_wf_sample_time : Instr.wf (.ewin 0 F64.zero 1 minusOne one 0) = false := by decide
theorem test_wf_sample_count : Instr.wf (.ewin 0 one 0 minusOne one 0) = false := by decide
theorem test_wf_range_check : Instr.wf (.ewin 0 one 1 minusOne one (-1)) = false := by decide
theorem test_wf_min : Instr.wf (.ewin 0 one 1 .nan one 0) = false := by decide
theorem test_wf_max : Instr.wf (.ewin 0 one 1 minusOne .nan 0) = false := by decide
theorem test_wf_window_ok : Instr.wf (.ewin 0 one 1 minusOne one 0) = true := by decide
theorem test_wf_report_time : Instr.wf (.ecb 0 .nan 0) = false := by decide

/-! ### Decoding: opcodes from spec/30_encoding.md R101, operand bytes from log 1 -/

theorem test_decode_bnew :
    decode [0x01, 0x00, 0x50, 0x00, 0x01, 0x00, 0x02] = .ok (.bnew 0 0x50 c0 d0, []) := by decide
theorem test_decode_bcfg : decode [0x02, 0x03] = .ok (.bcfg 3, []) := by decide
theorem test_decode_bwr : decode [0x03, 0x00, 0xA0, 0x01, 0x01, 0x03, 0x00] = .ok (.bwr 0 0xA0 [3] 0, []) := by decide
theorem test_decode_brd : decode [0x04, 0x00, 0x02, 0x05] = .ok (.brd 0 2 5, []) := by decide
theorem test_decode_bctl : decode [0x05, 0x01] = .ok (.bctl 1, []) := by decide
theorem test_decode_enew : decode [0x10, 0x02, 0x01, 0x07, 0x08] = .ok (.enew 2 (.hardware 7) 4, []) := by decide
theorem test_decode_ewin :
    decode [0x11, 0x00, 0, 0, 0, 0, 0, 0, 0xC0, 0x3F, 0x04, 0, 0, 0, 0, 0, 0, 0xF0, 0xBF, 0, 0, 0, 0, 0, 0, 0xF0, 0x3F,
      0x04] = .ok (.ewin 0 eighth 2 minusOne one 2, []) := by decide +kernel
theorem test_decode_ecb :
    decode [0x12, 0x00, 0, 0, 0, 0, 0, 0, 0xE0, 0x3F, 0x09] = .ok (.ecb 0 half 9, []) := by decide +kernel
theorem test_decode_ecfg : decode [0x13, 0x04] = .ok (.ecfg 4, []) := by decide
theorem test_decode_earm : decode [0x14, 0x02] = .ok (.earm 2, []) := by decide
theorem test_decode_etick :
    decode [0x15, 0x00, 0, 0, 0, 0, 0, 0, 0xF0, 0x3F] = .ok (.etick 0 one, []) := by decide +kernel
theorem test_decode_eget : decode [0x16, 0x00] = .ok (.eget 0, []) := by decide
theorem test_decode_estat : decode [0x17, 0x00] = .ok (.estat 0, []) := by decide
theorem test_decode_setl : decode [0x20, 0x01, 0x01, 0x00, 0x04] = .ok (.setl 1 .sda false 4, []) := by decide
theorem test_decode_rel : decode [0x21, 0x01, 0x04] = .ok (.rel 1 4, []) := by decide
theorem test_decode_start : decode [0x22, 0x01, 0x04] = .ok (.start 1 4, []) := by decide
theorem test_decode_stop : decode [0x23, 0x01, 0x04] = .ok (.stop 1 4, []) := by decide
theorem test_decode_txbit : decode [0x24, 0x01, 0x01, 0x04] = .ok (.txbit 1 true 4, []) := by decide
theorem test_decode_txbyte : decode [0x25, 0x01, 0xFE, 0x00] = .ok (.txbyte 1 0xFE 0, []) := by decide
theorem test_decode_rxbit : decode [0x26, 0x01, 0x04] = .ok (.rxbit 1 4, []) := by decide
theorem test_decode_rxbyte : decode [0x27, 0x01, 0x01, 0x04] = .ok (.rxbyte 1 true 4, []) := by decide
theorem test_decode_mack : decode [0x28, 0x01, 0x04] = .ok (.mack 1 4, []) := by decide
theorem test_decode_mnack : decode [0x29, 0x01, 0x04] = .ok (.mnack 1 4, []) := by decide
theorem test_decode_qset : decode [0x30, 0x00, 0x01] = .ok (.qset c0, []) := by decide
theorem test_decode_qsmp : decode [0x31, 0x00, 0x01, 0x01] = .ok (.qsmp c0 true, []) := by decide
/-- F11 -/
theorem test_decode_reserved :
    ([0x00, 0x06, 0x18, 0x2A, 0x32, 0x40, 0xFF] : List Byte).map (fun op => decode [op, 0, 0, 0]) =
      List.replicate 7 (.error .reservedOpcode) := by decide
/-- A second group is read where bit 7 is set, and a superfluous one is rejected (log 1). -/
theorem test_decode_two_groups :
    decode [0x02, 0x80, 0x01] = .ok (.bcfg 128, []) ∧ decode [0x02, 0x80, 0x00] = .error .badOperand := by decide
theorem test_decode_truncated : decode [0x01, 0x00] = .error .truncated := by decide

/-! ### Codes and floats -/

/-- Bc1 to Bc16 -/
theorem test_config_bytes :
    ([Rate.r128, .r32, .r16, .r8].map fun r => [Gain.g1, .g2, .g4, .g8].map fun g =>
      cfgByte State.reset.params.rateCode r g) =
      [[0x00, 0x01, 0x02, 0x03], [0x04, 0x05, 0x06, 0x07], [0x08, 0x09, 0x0A, 0x0B], [0x0C, 0x0D, 0x0E, 0x0F]] := by
  decide

/-- spec/30_encoding.md R91 -/
theorem test_address_bytes : addrByte 0x50 false = 0xA0 ∧ addrByte 0x50 true = 0xA1 := by decide

/-- Dc1 to Dc13 -/
theorem test_samples :
    rawSample 0 0 = 0 ∧ rawSample 0 1 = 1 ∧ rawSample 0x7F 0xFF = 32767 ∧ rawSample 0x80 0 = -32768 ∧
    rawSample 0xFF 0xFF = -1 ∧ rawSample 0x12 0x34 = 4660 ∧ rawSample 0xFF 0x38 = -200 ∧ rawSample 0x20 0 = 8192 ∧
    rawSample 0xE0 0 = -8192 ∧ rawSample 0x10 0 = 4096 ∧ rawSample 0x4E 0x20 = 20000 ∧ rawSample 0xB1 0xE0 = -20000 ∧
    rawSample 0x34 0x12 = 13330 := by decide

/-- The example of spec/40_bus_primitives.md R127 -/
theorem test_received_byte : byteOfBits [false, false, false, true, false, false, true, false] = 0x12 := by decide

/-- T1, T2, T3, T4, T5, T6, T8, T9, T11, T12, T13, T14 -/
theorem test_select_rate :
    ([(4, 100), (125, 1000), (1, 1), (10 ^ 9, 1), (1, 10), (834, 10000), (833, 10000), (5, 100), (126, 10000),
      (125, 10000), (78125, 10 ^ 7), (1, 1000)].map fun (p : Int × Nat) => rateNat (selectRate (floatOfFrac p.1 p.2))) =
      [32, 8, 8, 8, 8, 8, 16, 16, 32, 128, 128, 128] := by decide +kernel

/-- T7, T10 -/
theorem test_select_rate_midpoints :
    selectRate (floatOfFrac 8333333333333333 (10 ^ 17)) = .r16 ∧
    selectRate (floatOfFrac 41666666666666664 (10 ^ 18)) = .r32 := by decide +kernel

def average (rs : List Int) (count norm : Nat) : F64 :=
  calibrated (rs.foldl (fun acc r => fadd acc (floatOfInt r)) F64.zero) count norm

/-- A1, A2, A3, A4, A5 -/
theorem test_averages :
    average [4096, 4098] 2 8192 = floatOfFrac 5001220703125 (10 ^ 13) ∧
    average [1, 2, 2] 3 32768 = floatOfFrac 50862630208333336 (10 ^ 21) ∧
    average [-32768, -32768, -32768, -32768] 4 32768 = minusOne ∧
    average [32767] 1 32768 = floatOfFrac 999969482421875 (10 ^ 15) ∧
    average [32767] 1 2048 = floatOfFrac 1599951171875 (10 ^ 11) := by decide +kernel

/-- A6, A7, A8, A9 -/
theorem test_averages_signed :
    average [-32768] 1 2048 = floatOfInt (-16) ∧ average [8192, -8192] 2 8192 = F64.zero ∧
    average [8191, 8193, 8192] 3 8192 = one ∧
    average [100, -200, 50] 3 16384 = floatOfFrac (-10172526041666667) (10 ^ 19) := by decide +kernel

/-- The binary64 patterns of 0.1, of 0.1 + 0.2 and of an overflowing quotient (IEEE 754, by hand). -/
theorem test_float_patterns :
    (floatOfFrac 1 10).toBits = 0x3FB999999999999A ∧
    (fadd (floatOfFrac 1 10) (floatOfFrac 2 10)).toBits = 0x3FD3333333333334 ∧
    (fdiv (floatOfInt 5) (F64.ofBits 1)).toBits = 0x7FF0000000000000 ∧
    (fdiv (F64.ofBits 3) (floatOfInt 2)).toBits = 2 := by decide +kernel

/-- spec/95_test_vectors.md 2.7: the closed interval, the threshold of 3, the threshold of 1, the threshold of 0. -/
theorem test_range_supervision :
    outOfRange { window0 with minValue := .fin true 1022 0, maxValue := half } half = false ∧
    outOfRange { window0 with minValue := .fin true 1022 0, maxValue := half } (floatOfFrac 50048828125 (10 ^ 11)) = true ∧
    tripCount { window0 with maxValue := half, rangeCheckCount := 3 } 0 [one, one, half, one, one, one] = 1 ∧
    tripCount { window0 with maxValue := half, rangeCheckCount := 1 } 0 [one] = 1 ∧
    tripCount { window0 with maxValue := half, rangeCheckCount := 0 } 0 [one, one, one, one, one] = 0 := by
  decide +kernel

/-! ### One step of each operation -/

/-- spec/41_bus_operations.md R150, the example -/
theorem test_bnew_owner :
    answers (exec (.bnew 0 0x50 c0 d0) State.reset) (fun t =>
      ownerOf c0 t == some 0 && ((mget 0 t.buses).map fun b => (b.owner, b.busCfg)) == some (0, false)) = true := by
  decide +kernel
/-- F1 -/
theorem test_bnew_mismatch :
    answers (exec (.bnew 0 0x50 c0 ⟨1, 2⟩) State.reset) (fun t =>
      t.aborted == some (.controllerMismatch 0 0 1) && t.lines.isEmpty && t.buses.isEmpty) = true := by decide +kernel
/-- F5 -/
theorem test_bnew_line_in_use : refuses (exec (.bnew 1 0x51 ⟨0, 3⟩ d0) (busState [] 0)) .lineInUse = true := by
  decide +kernel
theorem test_bcfg_levels :
    answers (exec (.bcfg 0) rawState) (fun t =>
      ((mget c0 t.lines).map fun l => (l.sclLvl, l.wScl, l.clkCfg, l.tq)) == some (true, true, true, []) &&
      ((mget 0 t.buses).map fun b => (b.sdaLvl, b.wSda, b.busCfg)) == some (true, true, true)) = true := by
  decide +kernel
/-- F4 -/
theorem test_bcfg_twice : refuses (exec (.bcfg 0) (busState [] 0)) .alreadyConfigured = true := by decide +kernel

/-- Entries by their names, with hint 0, on bus 0. -/
def entry (s : String) : Entry :=
  if s = "C1" then .scl true 0 else if s = "C0" then .scl false 0 else if s = "D1" then .sda 0 true 0
  else if s = "D0" then .sda 0 false 0 else .smp 0 0

def traceOf (s : State) : List Entry := ((mget c0 s.lines).map ClockLine.tq).getD []

/-- V1 -/
theorem test_bwr_V1 :
    answers (exec (.bwr 0 0xA0 [3] 0) (busState [] 0)) (fun t => traceOf t ==
      (["D0", "C0", "D1", "C1", "C0", "D0", "C1", "C0", "D1", "C1", "C0", "D0", "C1", "C0", "C1", "C0", "C1", "C0", "C1",
        "C0", "C1", "C0", "C1", "C0"] ++
      ["C1", "C0", "C1", "C0", "C1", "C0", "C1", "C0", "C1", "C0", "C1", "C0", "D1", "C1", "C0", "C1", "C0", "C1", "C0",
        "C1", "D1"]).map entry) = true := by decide +kernel
/-- F3 -/
theorem test_bwr_unconfigured : refuses (exec (.bwr 0 0xA0 [] 0) rawState) .notConfigured = true := by decide +kernel

/-- V10: the bytes, the length of the trace, the sample positions and the levels. -/
theorem test_brd_V10 :
    answers (exec (.brd 0 2 0) { busState [] 0 with
        env := { Env.empty with slave := [(c0, bitsOfByte 0x12 ++ bitsOfByte 0x34)] } }) (fun t =>
      (match t.result with
        | .read xs _ => xs == [0x12, 0x34]
        | _ => false) &&
      ((mget c0 t.lines).map fun l => (l.tq.length, l.qhead, l.sclLvl, l.wScl)) == some (83, 83, true, true) &&
      ((mget c0 t.lines).map fun l => l.rx.map Prod.fst) ==
        some [27, 30, 33, 36, 39, 42, 45, 48, 55, 58, 61, 64, 67, 70, 73, 76]) = true := by decide +kernel
/-- Bus 3 on a clock line of its own, with two pending entries; `bs` says which executors run before the next entries bus 0
waits for. -/
def twoLines (bs : List (List LineId)) : State :=
  { busState [] 0 with
    lines := [(c0, line0 [] 0), (⟨0, 5⟩, { line0 [.sda 3 false 0, .scl false 0] 0 with owner := 3 })]
    buses := [(0, bus0), (3, { bus0 with scl := ⟨0, 5⟩, sda := ⟨0, 6⟩, owner := 3 })]
    env := { Env.empty with beside := bs } }

def otherLine (s : State) : Option (Nat × Bit) × Option Bit :=
  ((mget ⟨0, 5⟩ s.lines).map fun l => (l.qhead, l.wScl), (mget 3 s.buses).map Bus.wSda)

/-- spec/20_memory.md R72: both entries of the other line run between entries of the read, one does, or none. -/
theorem test_brd_interleaved :
    answers (exec (.brd 0 0 0) (twoLines [[], [⟨0, 5⟩, c0], [⟨0, 5⟩]]))
      (fun t => otherLine t == (some (2, false), some false) && (traceOf t).length == 29) = true ∧
    answers (exec (.brd 0 0 0) (twoLines ([⟨0, 5⟩] :: List.replicate 28 [])))
      (fun t => otherLine t == (some (1, true), some false) && (traceOf t).length == 29) = true ∧
    answers (exec (.brd 0 0 0) (twoLines (List.replicate 29 [])))
      (fun t => otherLine t == (some (0, true), some true) && (traceOf t).length == 29) = true := by decide +kernel

/-- V12 -/
theorem test_brd_empty :
    answers (exec (.brd 0 0 0) { busState [] 0 with buses := [(0, { bus0 with addr7 := 0x48 })] }) (fun t =>
      (match t.result with
        | .read xs _ => xs == []
        | _ => false) && (traceOf t).length == 29) = true := by decide +kernel
theorem test_bctl : answers (exec (.bctl 0) (busState [] 0)) (fun t => t.result == .controller 0) = true := by
  decide +kernel

/-- The example of spec/42_engine_lifecycle.md R170 -/
theorem test_enew :
    answers (exec (.enew 0 (.software 0) 2) State.reset) (fun t =>
      ((mget 0 t.engines).map fun g => (g.gainCode, g.st)) == some (1, .idle)) = true := by decide +kernel
/-- F2 -/
theorem test_enew_bad_gain :
    answers (exec (.enew 0 (.software 0) 3) State.reset) (fun t =>
      t.aborted == some (.unsupportedGain 0 3) && t.engines.isEmpty) = true := by decide +kernel
theorem test_ewin :
    answers (exec (.ewin 0 one 5 minusOne half 7) (engineState (idleEngine (.hardware 7)))) (fun t =>
      ((mget 0 t.engines).bind Engine.win) == some
        { sampleTime := one, sampleCount := 5, minValue := minusOne, maxValue := half, rangeCheckCount := 7 }) = true := by
  decide +kernel
/-- F10 -/
theorem test_ewin_zero :
    refuses (exec (.ewin 0 F64.zero 1 minusOne one 2) (engineState (idleEngine (.hardware 7)))) .badOperand = true := by
  decide +kernel
theorem test_ecb :
    answers (exec (.ecb 0 half 9) (engineState (samplingEngine (.hardware 7)))) (fun t =>
      ((mget 0 t.engines).bind Engine.cb) == some { cb := 9, reportTime := half }) = true := by decide +kernel
/-- T2 -/
theorem test_ecfg :
    answers (exec (.ecfg 0) (engineState (idleEngine (.hardware 7)))) (fun t =>
      ((mget 0 t.engines).bind Engine.rate) == some rate0 &&
      ((mget 0 t.engines).map Engine.st) == some .configuring) = true := by decide +kernel
/-- F7 -/
theorem test_earm_early :
    refuses (exec (.earm 0) (engineState (idleEngine (.hardware 7)))) .wrongEngineState = true := by decide +kernel
/-- The example of spec/42_engine_lifecycle.md R175, at rate 8: V3's frame has 47 entries. -/
theorem test_earm :
    answers (exec (.earm 0) { engineState (configuringEngine (.software 0)) with
        buses := [(0, { bus0 with addr7 := 0x48 })] }) (fun t =>
      (traceOf t).length == 47 && ((mget 0 t.engines).bind Engine.cfgReg) == some 0x0D &&
      ((mget 0 t.engines).map Engine.st) == some .armed) = true := by decide +kernel
/-- P3's second tick, at rate 8: the cycle ends, the sum is reset, the deadline is one period later. -/
theorem test_etick_cycle :
    answers (exec (.etick 0 one) (answering { samplingEngine (.hardware 7) with
        partialSum := floatOfInt 4096, samplesTaken := 1 } [{ bytes := [0x10, 0x02], gap := 3 }])) (fun t =>
      ((mget 0 t.engines).bind Engine.last) == some { value := floatOfFrac 8194 65536, ts := 3 } &&
      ((mget 0 t.engines).map fun g => (g.partialSum, g.samplesTaken, g.errCount)) == some (F64.zero, 0, 0) &&
      t.result == .deadline (floatOfFrac 1125 1000)) = true := by decide +kernel
/-- The second of two out-of-range cycles trips; the hook is called before the callback. -/
theorem test_etick_trip :
    answers (exec (.etick 0 one) (answering { samplingEngine (.hardware 7) with
        win := some { window0 with sampleCount := 1, maxValue := half }, errCount := 1
        cb := some { cb := 9, reportTime := one } } [{ bytes := [0x7F, 0xFF], gap := 0 }])) (fun t =>
      t.shutLog == [{ engine := 0, reason := .adcOutOfRange }] && t.cbLog.length == 1 &&
      ((mget 0 t.engines).map fun g => (g.errCount, g.lastCb)) == some (2, one)) = true := by decide +kernel
theorem test_eget :
    answers (exec (.eget 0) (engineState { idleEngine (.hardware 7) with last := some { value := half, ts := 4 } }))
      (fun t => t.result == .last half 4) = true := by decide +kernel
theorem test_estat :
    answers (exec (.estat 0) (engineState { idleEngine (.hardware 7) with last := some { value := half, ts := 4 } }))
      (fun t => t.result == .status 4) = true := by decide +kernel

/-- A bus at levels 0 and 0, as V9 takes it. -/
def lowState : State :=
  { State.reset with lines := [(c0, { line0 [] 0 with sclLvl := false })], buses := [(0, { bus0 with sdaLvl := false })] }

def emits (i : Instr) (s : State) (names : List String) : Bool := answers (exec i s) (fun t => traceOf t == names.map entry)

/-- The example of spec/40_bus_primitives.md R120 -/
theorem test_setl : emits (.setl 0 .scl false 0) (busState [entry "D0"] 0) ["D0", "C0"] = true := by decide +kernel
/-- V9 -/
theorem test_rel : emits (.rel 0 0) (busState [] 0) ["D1"] = true := by decide +kernel
theorem test_start : emits (.start 0 0) (busState [] 0) ["D0", "C0"] = true := by decide +kernel
theorem test_stop : emits (.stop 0 0) lowState ["C1", "D1"] = true := by decide +kernel
/-- V7 -/
theorem test_stop_prelow :
    emits (.stop 0 0) { lowState with params := { Params.default with stopPrelow := true } } ["D0", "C1", "D1"] = true := by
  decide +kernel
theorem test_txbit_change : emits (.txbit 0 true 0) lowState ["D1", "C1", "C0"] = true := by decide +kernel
theorem test_txbit_same : emits (.txbit 0 false 0) lowState ["C1", "C0"] = true := by decide +kernel
theorem test_txbyte_55 :
    emits (.txbyte 0 0x55 0) lowState ["C1", "C0", "D1", "C1", "C0", "D0", "C1", "C0", "D1", "C1", "C0", "D0", "C1", "C0",
      "D1", "C1", "C0", "D0", "C1", "C0", "D1", "C1", "C0", "C1", "C0"] = true := by decide +kernel
theorem test_txbyte_A0 :
    emits (.txbyte 0 0xA0 0) lowState ["D1", "C1", "C0", "D0", "C1", "C0", "D1", "C1", "C0", "D0", "C1", "C0", "C1", "C0",
      "C1", "C0", "C1", "C0", "C1", "C0", "C1", "C0"] = true := by decide +kernel
/-- The example of spec/40_bus_primitives.md R126 -/
theorem test_rxbit :
    answers (exec (.rxbit 0 0) (busState (List.replicate 24 (entry "C0")) 0)) (fun t => t.result == .position 25) = true := by
  decide +kernel
theorem test_rxbyte_last :
    answers (exec (.rxbyte 0 true 0) lowState) (fun t =>
      (traceOf t).length == 26 && t.result == .positions [1, 4, 7, 10, 13, 16, 19, 22]) = true := by decide +kernel
theorem test_rxbyte_more :
    answers (exec (.rxbyte 0 false 0) lowState) (fun t =>
      (traceOf t).drop 24 == ["D0", "C1", "C0", "D1"].map entry) = true := by decide +kernel
theorem test_mack : emits (.mack 0 0) lowState ["D0", "C1", "C0", "D1"] = true := by decide +kernel
theorem test_mnack : emits (.mnack 0 0) lowState ["C1", "C0"] = true := by decide +kernel

/-- The example of spec/40_bus_primitives.md R130 -/
theorem test_qset :
    answers (exec (.qset c0) (busState [entry "D0", entry "C0"] 0)) (fun t =>
      ((mget 0 t.buses).map Bus.wSda) == some false && ((mget c0 t.lines).map ClockLine.qhead) == some 1) = true := by
  decide +kernel
/-- V16 -/
theorem test_qsmp_released :
    answers (exec (.qsmp c0 true) (busState [entry "S"] 0)) (fun t =>
      ((mget c0 t.lines).map ClockLine.rx) == some [(0, true)]) = true := by decide +kernel
theorem test_qsmp_held :
    answers (exec (.qsmp c0 true) { busState [entry "S"] 0 with buses := [(0, { bus0 with wSda := false })] }) (fun t =>
      ((mget c0 t.lines).map ClockLine.rx) == some [(0, false)]) = true := by decide +kernel

/-- F11: START at the host's port. -/
theorem test_host_may_not_start :
    refuses (step (withPort (busState [] 0) .host [0x22, 0x00, 0x00])) .reservedOpcode = true := by decide +kernel
/-- The table's word of BCFG, as the host lays it out. -/
theorem test_fetch_word :
    decodeTableWord 8 0x02 = some (.bcfg 0) ∧
    answers (step (rawState.withFetchWord 8 0x02)) (fun t => ((mget 0 t.buses).map Bus.busCfg) == some true) = true := by
  decide +kernel

/-! ### Witnesses: for each statement, and each clause of it, a state and operands that meet the hypotheses -/

/-- The port holds BCFG from the host; then QSET from the executor beside a retrying tick. -/
theorem witness_StepRunsTheWaitingCommand :
    (State.reset.aborted = none ∧ State.reset.busy = none ∧ decode [0x02, 0x00] = .ok (.bcfg 0, []) ∧
      permits .host (Instr.bcfg 0).format = true) ∧
    (decode [0x30, 0x00, 0x01, 0x02] = .ok (.qset c0, [0x02]) ∧ permits .executor (Instr.qset c0).format = true) := by
  decide

theorem witness_ReservedOpcodesAreRefused_reserved : ∀ i : Instr, i.opcode ≠ 0x06 := by
  intro i; cases i <;> simp [Instr.opcode]

theorem witness_ReservedOpcodesAreRefused_internal :
    (Instr.start 0 0).opcode = 0x22 ∧ (Instr.start 0 0).format = .u ∧ (Instr.qset c0).opcode = 0x30 ∧
    (Instr.qset c0).format = .q := by decide

/-- A tick of engine 0 inside its retry loop, answered short at least twice more. -/
def retryState : State :=
  { answering (samplingEngine (.hardware 7)) [{ bytes := [], gap := 0 }, { bytes := [0x10], gap := 1 }] with
    busy := some { engine := 0, now := one } }

theorem witness_ShortResponsesKeepTheTickRetrying :
    (retryState.aborted = none ∧ retryState.busy = some { engine := 0, now := one } ∧ Agent.host ≠ Agent.executor) ∧
    (retryState.env.port = [] ∧ mget 0 retryState.engines = some (samplingEngine (.hardware 7)) ∧
      (samplingEngine (.hardware 7)).bus = .hardware 7 ∧ 2 ≤ (responsesOf 7 retryState).length ∧
      ∀ r, r ∈ (responsesOf 7 retryState).take 2 → r.bytes.length < 2) := by decide

theorem witness_OperationsWithoutNaNHaveOneCommand :
    decode [0x15, 0x00, 0, 0, 0, 0, 0, 0, 0xF0, 0x3F] = .ok (.etick 0 one, []) ∧
    ∀ x, x ∈ floatsOf (.etick 0 one) → x ≠ .nan := by decide +kernel

theorem witness_ConfigByteRoundTrips : rateCodesInjective State.reset.params.rateCode = true := by decide

/-- T2, T7, T10 and T12: a period in each band, the last three on its lower edge. -/
theorem witness_RateBandsAreHalfOpen :
    eighth.isPosFinite = true ∧ (floatOfFrac 8333333333333333 (10 ^ 17)).isPosFinite = true ∧
    units (fdiv (floatOfInt 1) eighth) < 12 * 2 ^ 1074 ∧
    units (fdiv (floatOfInt 1) (floatOfFrac 8333333333333333 (10 ^ 17))) = 12 * 2 ^ 1074 ∧
    units (fdiv (floatOfInt 1) (floatOfFrac 41666666666666664 (10 ^ 18))) = 24 * 2 ^ 1074 ∧
    units (fdiv (floatOfInt 1) (floatOfFrac 125 10000)) = 80 * 2 ^ 1074 := by decide +kernel

/-- 1 - 1, 1 + 1, and twice the greatest datum. -/
theorem witness_AdditionIsCorrectlyRounded :
    (units one + units minusOne).natAbs < (2 ^ 54 - 1) * 2 ^ 2044 ∧ units one + units minusOne = 0 ∧
    (units one + units one).natAbs < (2 ^ 54 - 1) * 2 ^ 2044 ∧ units one + units one ≠ 0 ∧
    (2 ^ 54 - 1) * 2 ^ 2044 ≤ (2 * units (.fin false 2046 0xFFFFFFFFFFFFF)).natAbs := by decide +kernel

/-- 1 / 1, and the greatest datum by the least. -/
theorem witness_DivisionIsCorrectlyRounded :
    magUnits 1023 0 ≠ 0 ∧ magUnits 1023 0 * 2 ^ 1074 < (2 ^ 54 - 1) * (magUnits 1023 0 * 2 ^ 2044) ∧
    magUnits 0 1 ≠ 0 ∧ (2 ^ 54 - 1) * (magUnits 0 1 * 2 ^ 2044) ≤ magUnits 2046 0xFFFFFFFFFFFFF * 2 ^ 1074 := by
  decide +kernel

theorem witness_SampleSumsAreExact :
    (∀ r : Int, r ∈ [-32768, 32767, 0] → -32768 ≤ r ∧ r ≤ 32767) ∧ ([-32768, 32767, 0] : List Int).length ≤ 2 ^ 38 := by
  decide

theorem witness_NormalizationIsExact : 1 ≤ 2 ∧ 2 ≤ 2 ^ 38 ∧ (-65536 : Int).natAbs ≤ 32768 * 2 := by decide

theorem witness_BnewElectsTheFirstOwner :
    127 ≤ 127 ∧ d0.ctrl = c0.ctrl ∧ mget 0 State.reset.buses = none ∧
    (∀ p, p ∈ State.reset.buses → p.2.sda ≠ d0 ∧ p.2.scl ≠ d0 ∧ p.2.sda ≠ c0) ∧ mget c0 State.reset.lines = none := by
  decide

theorem witness_BnewSharesTheOwnersLine :
    0x51 ≤ 127 ∧ d1.ctrl = c0.ctrl ∧ mget 1 (busState [] 0).buses = none ∧
    (∀ p, p ∈ (busState [] 0).buses → p.2.sda ≠ d1 ∧ p.2.scl ≠ d1 ∧ p.2.sda ≠ c0) ∧
    mget c0 (busState [] 0).lines = some (line0 [] 0) := by decide

theorem witness_ControllerMismatchAbortsInitialization : 0x50 ≤ 127 ∧ (⟨1, 2⟩ : LineId).ctrl ≠ c0.ctrl := by decide

/-- Each clause: an address of 128; a name that is taken; a data line, a clock line, and a clock line that is a data line. -/
theorem witness_BnewRefusals :
    127 < 128 ∧ (mget 0 (busState [] 0).buses).isSome = true ∧ mget 1 (busState [] 0).buses = none ∧
    (∃ p, p ∈ (busState [] 0).buses ∧ p.2.sda = d0) ∧ (∃ p, p ∈ (busState [] 0).buses ∧ p.2.scl = c0) := by decide

/-- The owner, another bus of its line, and a configured bus. -/
theorem witness_BcfgEstablishesIdleLines :
    (∃ b l, mget 0 rawState.buses = some b ∧ mget b.scl rawState.lines = some l ∧ b.busCfg = false ∧ b.owner = 0) ∧
    (∃ b l, mget 1 rawState.buses = some b ∧ mget b.scl rawState.lines = some l ∧ b.busCfg = false ∧ b.owner ≠ 1) ∧
    (∃ b l, mget 0 (busState [] 0).buses = some b ∧ mget b.scl (busState [] 0).lines = some l ∧ b.busCfg = true) :=
  ⟨⟨_, _, rfl, rfl, rfl, rfl⟩, ⟨_, _, rfl, rfl, rfl, by decide⟩, ⟨_, _, rfl, rfl, rfl⟩⟩

/-- A queue of bus 0 of which nothing has run. -/
theorem queuesOk_pending {s : State} {es : List Entry} (hl : s.lines = [(c0, line0 es 0)]) (hb : s.buses = [(0, bus0)])
    (h : ∀ j v x, .sda j v x ∈ es → j = 0) : QueuesOk s := by
  have line : ∀ c l, mget c s.lines = some l → c = c0 ∧ l = line0 es 0 := fun c l hc => by
    rw [hl] at hc; simpa using mem_of_mget hc
  refine ⟨fun c l hc => ?_, fun c l hc j v x hm => ?_⟩
  · obtain ⟨-, rfl⟩ := line c l hc
    exact ⟨Nat.zero_le _, fun p => by simp [line0]⟩
  · obtain ⟨rfl, rfl⟩ := line c l hc
    rw [h j v x hm, hb]; exact ⟨bus0, rfl, rfl⟩

/-- A configured bus on a configured line: what BCTL, BWR, BRD and the micro-operations ask for, with pending entries. -/
theorem witness_configured_bus :
    ∃ b l, mget 0 (busState [entry "D0", entry "C0"] 0).buses = some b ∧
      mget b.scl (busState [entry "D0", entry "C0"] 0).lines = some l ∧ b.busCfg = true ∧ l.clkCfg = true ∧
      QueuesOk (busState [entry "D0", entry "C0"] 0) :=
  ⟨_, _, rfl, rfl, rfl, rfl, queuesOk_pending rfl rfl (by simp [entry])⟩

theorem witness_TrafficNeedsConfiguration :
    (∀ b l, mget 0 rawState.buses = some b → mget b.scl rawState.lines = some l → (b.busCfg && l.clkCfg) = false) ∧
    (∀ b l, mget 0 rawState.buses = some b → mget b.scl rawState.lines = some l → b.busCfg = false) ∧
    WellFormed (.bwr 0 255 [0, 255] 0) := by
  refine ⟨fun b l hb _ => ?_, fun b l hb _ => ?_, by decide⟩ <;> cases hb <;> rfl

theorem witness_BwrRefusesBytesAbove255 : 255 < 256 ∧ ∃ x, x ∈ [0, 256] ∧ 255 < x := by decide

theorem witness_BwrEmitsTheWriteFrame : 0xFF ≤ 255 ∧ ∀ x, x ∈ [0, 255] → x ≤ 255 := by decide

/-- One earlier sample is pending; the slave's levels spell 0x12 and 0x34 after it. -/
def scripted : State :=
  { busState [entry "C1", entry "S"] 0 with
    env := { Env.empty with slave := [(c0, true :: (bitsOfByte 0x12 ++ bitsOfByte 0x34))] } }

theorem witness_BrdReturnsTheSlavesBytes :
    QueuesOk scripted ∧ mget 0 scripted.buses = some bus0 ∧
    mget c0 scripted.lines = some (line0 [entry "C1", entry "S"] 0) ∧
    [true].length = sampleCount ((line0 [entry "C1", entry "S"] 0).tq.drop 0) ∧ ([0x12, 0x34] : List Byte).length = 2 ∧
    scriptOf c0 scripted = [true] ++ ([0x12, 0x34] : List Byte).flatMap bitsOfByte ++ [] :=
  ⟨queuesOk_pending rfl rfl (by simp [entry]), by decide, by decide, by decide, by decide, by decide⟩

theorem witness_FrameSizes :
    State.reset.params.stopPrelow = false ∧ State.reset.params.rdAddrStop = false ∧ 1 ≤ 1 := by decide

theorem witness_WireConditionsOfAFrame :
    State.reset.params.stopPrelow = false ∧ State.reset.params.rdAddrStop = false := by decide

/-- The head entry of each kind, and an empty rest. -/
theorem witness_QsetAndQsmp :
    (line0 [entry "C0"] 0).tq[(line0 [entry "C0"] 0).qhead]? = some (.scl false 0) ∧
    (line0 [entry "D0"] 0).tq[(line0 [entry "D0"] 0).qhead]? = some (.sda 0 false 0) ∧
    (line0 [entry "S"] 0).tq[(line0 [entry "S"] 0).qhead]? = some (.smp 0 0) ∧
    (line0 [entry "S"] 1).tq[(line0 [entry "S"] 1).qhead]? = none ∧
    mget c0 (busState [entry "S"] 0).lines = some (line0 [entry "S"] 0) ∧ mget 0 (busState [entry "S"] 0).buses = some bus0 := by
  decide

/-- Up to the whole rest of the queue. -/
theorem witness_ExecutorRunsInEmissionOrder :
    mget c0 (busState [entry "D0", entry "C0"] 0).lines = some (line0 [entry "D0", entry "C0"] 0) ∧
    (line0 [entry "D0", entry "C0"] 0).qhead + 2 ≤ (line0 [entry "D0", entry "C0"] 0).tq.length := by decide

theorem witness_EnewConstructsAnIdleEngine :
    mget 0 State.reset.engines = none ∧ (mget 0 (engineState (idleEngine (.hardware 7))).engines).isSome = true := by decide

theorem witness_UnsupportedGainAbortsInitialization : (0 : Int) ≠ 1 ∧ (0 : Int) ≠ 2 ∧ (0 : Int) ≠ 4 ∧ (0 : Int) ≠ 8 := by
  decide

theorem witness_EwinSetsTheWindow :
    mget 0 (engineState (idleEngine (.hardware 7))).engines = some (idleEngine (.hardware 7)) ∧
    (idleEngine (.hardware 7)).st = .idle ∧ (F64.fin false 0 1).isPosFinite = true ∧ (1 : Int) ≤ 1 ∧ (0 : Int) ≤ 0 ∧
    one.isNaN = false ∧ (F64.inf false).isNaN = false ∧
    (F64.zero.isPosFinite = false ∧ (0 : Int) < 1 ∧ (-1 : Int) < 0 ∧ F64.nan.isNaN = true) ∧
    (configuringEngine (.hardware 7)).st ≠ .idle := by decide

theorem witness_EcbRegistersTheCallback : half.isNaN = false ∧ F64.nan.isNaN = true := by decide

theorem witness_EcfgFixesRateAndPeriod :
    (idleEngine (.hardware 7)).st = .idle ∧ (idleEngine (.hardware 7)).win = some window0 ∧
    ({ idleEngine (.hardware 7) with win := none } : Engine).win = none ∧ (armedEngine (.hardware 7)).st ≠ .idle := by decide

theorem witness_EarmOnASoftwareBus :
    mget 0 (engineState (configuringEngine (.software 0))).engines = some (configuringEngine (.software 0)) ∧
    (configuringEngine (.software 0)).st = .configuring ∧ (configuringEngine (.software 0)).rate = some rate0 ∧
    mget 0 (engineState (configuringEngine (.software 0))).buses = some bus0 ∧
    mget bus0.scl (engineState (configuringEngine (.software 0))).lines = some (line0 [] 0) ∧
    bus0.busCfg = true ∧ (line0 [] 0).clkCfg = true := by decide

theorem witness_EarmOnAHardwareBus :
    (configuringEngine (.hardware 7)).st = .configuring ∧ (configuringEngine (.hardware 7)).rate = some rate0 ∧
    (configuringEngine (.hardware 7)).bus = .hardware 7 := by decide

theorem witness_QueriesReturnTheLastResult :
    ({ idleEngine (.hardware 7) with last := some { value := half, ts := 4 } } : Engine).last =
      some { value := half, ts := 4 } ∧ (idleEngine (.hardware 7)).last = none := by decide

/-- A move of each kind of the table, and an engine outside each phase. -/
theorem witness_EngineStateMovesAlongTheTable :
    (∃ t, exec (.ecfg 0) (engineState (idleEngine (.hardware 7))) = .next t) ∧
    (∃ t, exec (.earm 0) (engineState (configuringEngine (.hardware 7))) = .next t) ∧
    (∃ t, exec (.etick 0 one) (answering (armedEngine (.hardware 7)) [{ bytes := [0, 1], gap := 0 }]) = .next t) ∧
    (armedEngine (.hardware 7)).st ≠ .idle ∧ (idleEngine (.hardware 7)).st ≠ .configuring ∧
    (idleEngine (.hardware 7)).st ≠ .armed ∧ (idleEngine (.hardware 7)).st ≠ .sampling :=
  ⟨next_of (by decide +kernel), next_of (by decide +kernel), next_of (by decide +kernel), by decide, by decide, by decide,
    by decide⟩

/-- An armed engine and a sampling one, on an external bus that answers two bytes, and on one that nothing is known of. -/
theorem witness_EtickOnAnExternalBus :
    (armedEngine (.hardware 7)).st = .armed ∧ (samplingEngine (.hardware 7)).st = .sampling ∧
    (armedEngine (.hardware 7)).bus = .hardware 7 ∧ (armedEngine (.hardware 7)).win = some window0 ∧
    (armedEngine (.hardware 7)).rate = some rate0 ∧
    responsesOf 7 (answering (armedEngine (.hardware 7)) [{ bytes := [0x10, 0], gap := 2 }]) =
      [{ bytes := [0x10, 0], gap := 2 }] ∧
    responsesOf 7 (engineState (armedEngine (.hardware 7))) = [] := by decide

theorem witness_EtickOnASoftwareBus :
    QueuesOk (engineState (armedEngine (.software 0))) ∧ (armedEngine (.software 0)).st = .armed ∧ (armedEngine (.software 0)).bus = .software 0 ∧
    mget 0 (engineState (armedEngine (.software 0))).buses = some bus0 ∧
    mget bus0.scl (engineState (armedEngine (.software 0))).lines = some (line0 [] 0) ∧
    ([] : List Bit).length = sampleCount ((line0 [] 0).tq.drop 0) ∧
    scriptOf c0 { engineState (armedEngine (.software 0)) with
        env := { Env.empty with slave := [(c0, bitsOfByte 0x10 ++ bitsOfByte 0x02)] } } =
      [] ++ bitsOfByte 0x10 ++ bitsOfByte 0x02 ++ [] :=
  ⟨queuesOk_pending rfl rfl (by simp), by decide⟩

theorem witness_ShortResponseIsDiscarded :
    ({ bytes := [0x10], gap := 0 } : HwResponse).bytes.length < 2 ∧
    2 < ({ bytes := [0, 0, 0], gap := 0 } : HwResponse).bytes.length ∧
    responsesOf 7 (answering (armedEngine (.hardware 7)) [{ bytes := [0, 0, 0], gap := 0 }]) =
      { bytes := [0, 0, 0], gap := 0 } :: [] := by decide

theorem witness_RetriedTickUsesTheSecondResponse :
    responsesOf 7 (answering (armedEngine (.hardware 7)) [{ bytes := [1], gap := 1 }, { bytes := [0x10, 2], gap := 2 }]) =
      { bytes := [1], gap := 1 } :: { bytes := [0x10, 2], gap := 2 } :: [] ∧
    (answering (armedEngine (.hardware 7)) []).aborted = none ∧ (answering (armedEngine (.hardware 7)) []).env.port = [] := by
  decide

theorem witness_RepeatedTripsCallTheHookAgain :
    0 < window0.rangeCheckCount ∧ (∀ x, x ∈ [F64.inf false, .inf true] → outOfRange window0 x = true) ∧
    [F64.inf false, .inf true].length = window0.rangeCheckCount + 0 ∧ [F64.inf false].length < window0.rangeCheckCount ∧
    ({ window0 with rangeCheckCount := 0 } : Window).rangeCheckCount = 0 ∧ outOfRange window0 half = false := by
  decide +kernel

theorem witness_CallbackKeepsItsInterval :
    ({ idleEngine (.hardware 7) with cb := some { cb := 9, reportTime := half } } : Engine).cb =
      some { cb := 9, reportTime := half } := by decide

/-- An operation other than a tick of an engine past `Idle`, and the tick of another engine. -/
theorem witness_OnlyTicksWriteResults :
    (∃ t, exec (.ecb 0 half 9) (engineState (armedEngine (.hardware 7))) = .next t) ∧ (armedEngine (.hardware 7)).st ≠ .idle ∧
    (∀ now, Instr.ecb 0 half 9 ≠ .etick 0 now) ∧ Instr.ecb 0 half 9 ≠ .earm 0 ∧
    (∀ x f, Instr.etick 0 one ≠ .ecb 0 x f) :=
  ⟨next_of (by decide +kernel), by decide, by simp, by decide, by simp⟩

/-- A step that goes on with an open tick of another engine, and with an own one, which ends. -/
theorem witness_OnlyTicksWriteResults_step :
    (∃ t, step retryState = .next t) ∧ running retryState = some (.etick 0 one) ∧ Instr.etick 0 one ≠ .etick 1 one ∧
    (∃ t, step { retryState with env := { Env.empty with hw := [(7, [{ bytes := [0, 1], gap := 0 }])] } } = .next t) :=
  ⟨next_of (by decide +kernel), by decide, by decide, next_of (by decide +kernel)⟩

/-- Bus 1 is not named by an operation of bus 0, nor an engine, and no entry runs. -/
theorem witness_InstancesKeepTheirPrivateState :
    QueuesOk rawState ∧ BusesOk rawState ∧
    (∃ t, exec (.bcfg 0) rawState = .next t) ∧ engineOf (.bcfg 0) ≠ some 1 ∧ busOf rawState (.bcfg 0) ≠ some 1 ∧
    (mget 1 rawState.buses).isSome = true ∧ runsEntries (busOf rawState (.bcfg 0)) (.bcfg 0) = false := by
  have line : ∀ {c l}, mget c rawState.lines = some l → c = c0 ∧ l = { line0 [] 0 with clkCfg := false } := fun h => by
    simpa [rawState] using mem_of_mget h
  have buses : ∀ {i b}, mget i rawState.buses = some b → (i = 0 ∧ b = { bus0 with busCfg := false }) ∨
      (i = 1 ∧ b = { bus0 with sda := d1, busCfg := false }) := fun h => by simpa [rawState] using mem_of_mget h
  refine ⟨⟨fun c l h => ?_, fun c l h j v x hm => ?_⟩, ⟨fun i b h => ?_, fun c l h => ?_, fun i j a b hi hj hij => ?_⟩,
    next_of (by decide +kernel), by decide, by decide, by decide, by decide⟩
  · obtain ⟨-, rfl⟩ := line h; exact ⟨Nat.le_refl _, fun p => by simp [line0]⟩
  · obtain ⟨-, rfl⟩ := line h; simp [line0] at hm
  · rcases buses h with ⟨-, rfl⟩ | ⟨-, rfl⟩ <;> exact ⟨rfl, rfl, _, rfl, rfl⟩
  · obtain ⟨rfl, rfl⟩ := line h; exact ⟨_, rfl, rfl, rfl⟩
  · rcases buses hi with ⟨rfl, rfl⟩ | ⟨rfl, rfl⟩ <;> rcases buses hj with ⟨rfl, rfl⟩ | ⟨rfl, rfl⟩
    · exact absurd rfl hij
    · decide
    · decide
    · exact absurd rfl hij

/-- A configured bus with a frame half executed and a sampling engine, and a write at the port: every invariant holds, and
the step answers. -/
def goodState : State :=
  withPort { engineState (samplingEngine (.software 0)) with
    lines := [(c0, { line0 [entry "D1", entry "C1", entry "S", entry "D1"] 3 with rx := [(2, true)] })] } .host
    [0x03, 0x00, 0xA0, 0x01, 0x00, 0x00]

theorem witness_invariants_step : ∃ t, step goodState = .next t := next_of (by decide +kernel)

theorem goodLine {c : LineId} {l : ClockLine} (h : mget c goodState.lines = some l) :
    c = c0 ∧ l = { line0 [entry "D1", entry "C1", entry "S", entry "D1"] 3 with rx := [(2, true)] } := by
  simpa [goodState, withPort] using mem_of_mget h

theorem goodBus {i : Nat} {b : Bus} (h : mget i goodState.buses = some b) : i = 0 ∧ b = bus0 := by
  simpa [goodState, withPort, engineState, busState] using mem_of_mget h

theorem goodEngine {e : Nat} {g : Engine} (h : mget e goodState.engines = some g) :
    e = 0 ∧ g = samplingEngine (.software 0) := by
  simpa [goodState, withPort, engineState] using mem_of_mget h

theorem witness_StepKeepsMapsCanonical : MapsOk goodState := by
  refine ⟨by decide, by decide, by decide, fun c l h => ?_, by decide, by decide, by decide, by decide⟩
  obtain ⟨-, rfl⟩ := goodLine h; decide

theorem witness_StepKeepsQueuesAndSamples : QueuesOk goodState := by
  refine ⟨fun c l h => ?_, fun c l h j v x hm => ?_⟩
  rotate_left
  · obtain ⟨rfl, rfl⟩ := goodLine h
    simp [line0, entry] at hm
    exact ⟨bus0, by rw [hm.1]; rfl, rfl⟩
  obtain ⟨-, rfl⟩ := goodLine h
  refine ⟨by decide, fun p => ?_⟩
  match p with
  | 0 => simp [line0, entry, mget]
  | 1 => simp [line0, entry, mget]
  | 2 => simp [line0, entry, mget]
  | 3 => simp [line0, entry, mget]
  | p + 4 => simp [line0, mget]

/-- R132 (a) with R29: a `D0` while the clock is high is a start condition only where the slave has the data line released. -/
theorem test_startNeedsReleasedWire :
    startsSeen 0 (fun _ => true) true true [.sda 0 false 0] = 1 ∧
    startsSeen 0 (fun _ => false) true true [.sda 0 false 0] = 0 := by decide

theorem witness_StepKeepsOwnership : BusesOk goodState := by
  refine ⟨fun i b h => ?_, fun c l h => ?_, fun i j a b hi hj hij => ?_⟩
  · obtain ⟨-, rfl⟩ := goodBus h; exact ⟨rfl, rfl, _, rfl, rfl⟩
  · obtain ⟨rfl, rfl⟩ := goodLine h; exact ⟨bus0, rfl, rfl, rfl⟩
  · exact absurd ((goodBus hi).1.trans (goodBus hj).1.symm) hij

theorem witness_StepKeepsEnginesConsistent : EnginesOk goodState := by
  refine ⟨fun e g h => ?_, fun k h => by cases h⟩
  obtain ⟨-, rfl⟩ := goodEngine h
  refine ⟨rfl, by decide, fun r hr => ?_, fun w hw => ?_, by decide, by decide, rfl, fun x hx => ?_, rfl⟩
  · cases hr; exact ⟨rfl, rfl, window0, rfl, by decide +kernel⟩
  · cases hw; decide
  · cases hx; exact ⟨rate0, rfl, by decide⟩

theorem witness_StepKeepsConfiguredLinesIdle : HostOnly goodState ∧ LevelsOk goodState ∧ IdleOk goodState := by
  refine ⟨by simp [HostOnly, goodState, withPort], ⟨fun c l h => ?_, fun i b l hb hl _ => ?_⟩, fun i b h _ => ?_, fun c l h _ => ?_⟩
  · obtain ⟨rfl, rfl⟩ := goodLine h
    refine ⟨by decide, by decide, fun j v h hm => ?_⟩
    simp [line0, entry] at hm
    exact ⟨bus0, by rw [hm.1]; rfl, rfl, rfl⟩
  · obtain ⟨rfl, rfl⟩ := goodBus hb
    obtain ⟨-, rfl⟩ := goodLine hl
    decide
  · obtain ⟨-, rfl⟩ := goodBus h; rfl
  · obtain ⟨-, rfl⟩ := goodLine h; rfl

end Sys2Proof.Tests
end

section
/-! Proofs of the statements about the state: what every step keeps, which operation may write an engine's results, the
state after reset, and bus traffic before configuration. -/

namespace Sys2Proof.Machine

variable {i : Instr} {bus : Option Nat} {s t : State}

/-! ### A step as a run -/

/-- The state with other commands waiting at the port. -/
def State.withPort (port : List Message) (s : State) : State := { s with env := { s.env with port := port } }

/-- A step that runs an operation is a run of it, from the state whose port the fetch has advanced. -/
theorem step_run (h : step s = .next t) :
    (running s = none ∧ t = s) ∨
    ∃ i port, running s = some i ∧ Run i (busOf s i) (s.withPort port) t := by
  rcases step_cases h with idle | ⟨k, g, hrun, -, hg, ht⟩ | ⟨m, ms, i, rest, hrun, -, -, ht⟩
  · exact Or.inl idle
  · exact Or.inr ⟨_, s.env.port, hrun, tickAttempt_run hg (fun _ hb => softwareBusOf_eq hg hb) ht⟩
  · exact Or.inr ⟨i, portAfter m.agent rest ms, hrun, exec_run ht⟩

/-- A reflexive and transitive relation that no change of the port and no move breaks holds of every step. -/
theorem step_relates {R : State → State → Prop} (refl : ∀ s, R s s) (trans : ∀ s t u, R s t → R t u → R s u)
    (port : ∀ s p, R s (s.withPort p)) (move : ∀ i bus s t, Move i bus s t → R s t) (h : step s = .next t) : R s t := by
  rcases step_run h with ⟨-, rfl⟩ | ⟨i, p, -, hrun⟩
  · exact refl _
  · exact trans _ _ _ (port s p) (hrun.lift refl trans (move i _))

/-- A predicate that does not read the port and that every move keeps is kept by every step. -/
theorem step_keeps {P : State → Prop} (port : ∀ s p, P s → P (s.withPort p))
    (move : ∀ i bus s t, Move i bus s t → P s → P t) (h : step s = .next t) : P s → P t :=
  step_relates (R := fun s t => P s → P t) (fun _ => id) (fun _ _ _ h k => k ∘ h) port move h

/-! ### Queues, ownership, maps and history -/

/-- Settles O56: `QueuesOk` is kept by every move (`QueuesOk.move`). -/
theorem stepKeepsQueuesAndSamples : Obligations.StepKeepsQueuesAndSamples :=
  fun _ _ hs h => step_keeps (fun _ _ hs => hs) (fun _ _ _ _ => QueuesOk.move) h hs

/-- Settles O57: `BusesOk` is kept by every move (`BusesOk.move`). -/
theorem stepKeepsOwnership : Obligations.StepKeepsOwnership :=
  fun _ _ hs h => step_keeps (fun _ _ hs => hs) (fun _ _ _ _ => BusesOk.move) h hs

/-- Settles O55: `MapsOk` is kept by every move (`MapsOk.move`). -/
theorem stepKeepsMapsCanonical : Obligations.StepKeepsMapsCanonical :=
  fun _ _ hs h => step_keeps (fun _ _ hs => hs) (fun _ _ _ _ => MapsOk.move) h hs

/-- Settles O59: both relations are reflexive and transitive, and every move meets them. -/
theorem stepKeepsHistory : Obligations.StepKeepsHistory := fun _ _ h =>
  ⟨step_relates HistoryKept.refl (fun _ _ _ => HistoryKept.trans) (fun s _ => HistoryKept.refl s)
      (fun _ _ _ _ => HistoryKept.move) h,
    step_relates FixedKept.refl (fun _ _ _ => FixedKept.trans) (fun s _ => FixedKept.refl s)
      (fun _ _ _ _ => FixedKept.move) h⟩

/-! ### Engines -/

/-- An attempt of a sampling engine's tick keeps every engine consistent, whether it finishes the tick or leaves it
open. -/
theorem EnginesOk.tickAttempt {e : Nat} {now : F64} {g : Engine} (hs : EnginesOk s) (hg : mget e s.engines = some g)
    (hst : g.st = .sampling) (h : tickAttempt e now g s = .next t) : EnginesOk t := by
  have hopen : TickOpen (.etick e now) s := fun e' now' he => by cases he; exact ⟨g, hg, hst⟩
  have hrun := tickAttempt_run hg (fun _ hb => softwareBusOf_eq hg hb) h
  exact (hrun.keeps (P := fun s => EnginesOk s ∧ TickOpen _ s) (fun _ _ m => EnginesOk.move m) ⟨hs, hopen⟩).1

/-- ETICK answers a next state only in `Armed` and `Sampling`, and then as its first attempt does. -/
theorem exec_etick_next {e : Nat} {now : F64} (h : exec (.etick e now) s = .next t) :
    ∃ g, mget e s.engines = some g ∧ (g.st = .armed ∨ g.st = .sampling) ∧
      tickAttempt e now (sampling g) (tickStart e g s) = .next t := by
  cases hg : mget e s.engines with
  | none => simp [exec, execEtick, hg] at h
  | some g =>
    by_cases hst : g.st = .armed ∨ g.st = .sampling
    · exact ⟨g, rfl, hst, exec_etick hg hst ▸ h⟩
    · simp [exec, execEtick, hg, hst] at h

/-- Every operation keeps every engine consistent. A tick first moves its engine to `Sampling`, where its attempt is
covered by `EnginesOk.tickAttempt`; no other operation opens or ends a tick. -/
theorem EnginesOk.exec (hs : EnginesOk s) (h : exec i s = .next t) : EnginesOk t := by
  by_cases hi : ∃ e now, i = .etick e now
  · obtain ⟨e, now, rfl⟩ := hi
    obtain ⟨g, hg, hst, ht⟩ := exec_etick_next h
    exact (tickStart_ok hs hg hst).tickAttempt (mget_mset_same _ _ _ _) rfl ht
  · have hopen : TickOpen i s := fun e now he => absurd ⟨e, now, he⟩ hi
    exact ((exec_run h).keeps (P := fun s => EnginesOk s ∧ TickOpen i s) (fun _ _ m => EnginesOk.move m) ⟨hs, hopen⟩).1

/-- Settles O58: the open tick of a consistent state is that of a sampling engine, so its next attempt keeps the engines
consistent too. -/
theorem stepKeepsEnginesConsistent : Obligations.StepKeepsEnginesConsistent := by
  intro s t hs h
  rcases step_cases h with ⟨-, rfl⟩ | ⟨k, g, -, hk, hg, ht⟩ | ⟨m, ms, i, rest, -, -, -, ht⟩
  · exact hs
  · obtain ⟨g', hg', hst⟩ := hs.2 k hk
    cases hg.symm.trans hg'
    exact hs.tickAttempt hg hst ht
  · exact EnginesOk.exec (s := s.withPort (portAfter m.agent rest ms)) hs ht

/-- Every run of an operation leaves the results of all engines but that of a tick's own, and windows, rates, registers of
arming and callbacks as `ResultsKept` says. -/
theorem Run.resultsKept (h : Run i bus s t) : ResultsKept (some i) s t := by
  intro e g hg
  obtain ⟨g', hg', named, other⟩ := h.engineStep e g hg
  refine ⟨g', hg', ?_⟩
  by_cases he : engineOf i = some e
  · obtain ⟨-, results, window, arming, callback⟩ := named he
    refine ⟨fun hn => results ?_, window, fun hn => arming ?_, fun hn => callback ?_⟩
    · rintro e' now rfl; cases he; exact hn now rfl
    · rintro e' rfl; cases he; exact hn rfl
    · rintro e' x f rfl; cases he; exact hn x f rfl
  · rw [other he]
    exact ⟨fun _ => ⟨rfl, rfl, rfl, rfl, rfl⟩, fun _ => ⟨rfl, rfl⟩, fun _ => ⟨rfl, rfl⟩, fun _ => rfl⟩

theorem ResultsKept.refl (i : Option Instr) (s : State) : ResultsKept i s s := fun _ g hg =>
  ⟨g, hg, fun _ => ⟨rfl, rfl, rfl, rfl, rfl⟩, fun _ => ⟨rfl, rfl⟩, fun _ => ⟨rfl, rfl⟩, fun _ => rfl⟩

/-- Settles O53: an operation and a step that runs one are runs of moves (`Run.resultsKept`). -/
theorem onlyTicksWriteResults : Obligations.OnlyTicksWriteResults := by
  refine ⟨fun i s t h => (exec_run h).resultsKept, fun s t h => ?_⟩
  rcases step_run h with ⟨-, rfl⟩ | ⟨i, p, hi, hrun⟩
  · exact ResultsKept.refl _ _
  · rw [hi]
    exact hrun.resultsKept

/-! ### Reset -/

theorem reset_mapsOk : MapsOk State.reset := ⟨rfl, rfl, rfl, nofun, rfl, rfl, rfl, rfl⟩

theorem reset_queuesOk : QueuesOk State.reset := ⟨nofun, nofun⟩

theorem reset_busesOk : BusesOk State.reset := ⟨nofun, nofun, nofun⟩

theorem reset_levelsOk : LevelsOk State.reset := ⟨nofun, nofun⟩

theorem reset_idleOk : IdleOk State.reset := ⟨nofun, nofun⟩

theorem reset_enginesOk : EnginesOk State.reset := ⟨fun _ _ h => (by cases h), nofun⟩

theorem reset_hostOnly : HostOnly State.reset := nofun

/-- Settles O1: the fields are those of `State.reset`, and every invariant speaks of records that are not there. -/
theorem resetIsEmptyAndMeetsEveryInvariant : Obligations.ResetIsEmptyAndMeetsEveryInvariant :=
  ⟨rfl, rfl, rfl, rfl, rfl, rfl, rfl, rfl, rfl, rfl, rfl, rfl, reset_mapsOk, reset_queuesOk, reset_busesOk,
    reset_levelsOk, reset_idleOk, reset_enginesOk, reset_hostOnly⟩

/-! ### Bus traffic before configuration -/

theorem busLine_eq_some {j : Nat} {b : Bus} {l : ClockLine} (h : busLine j s = some (b, l)) :
    mget j s.buses = some b ∧ mget b.scl s.lines = some l := by
  unfold busLine at h
  split at h
  · cases h
  · next b' hb =>
    split at h
    · cases h
    · next l' hl => cases h; exact ⟨hb, hl⟩

/-- Bus `j` is not there, or its registers fail the test `ready`. -/
def NotReady (ready : Bus → ClockLine → Bool) (j : Nat) (s : State) : Prop :=
  ∀ b l, mget j s.buses = some b → mget b.scl s.lines = some l → ready b l = false

theorem microOp_notConfigured {j : Nat} (hn : NotReady (fun b _ => b.busCfg) j s) (f : Lane → Lane × Result) :
    microOp j f s = .refused .notConfigured := by
  unfold microOp
  split
  · rfl
  · next b l hbl =>
    obtain ⟨hb, hl⟩ := busLine_eq_some hbl
    have hc : b.busCfg = false := hn b l hb hl
    simp [hc]

theorem busWrite_notConfigured {j : Nat} (hn : NotReady busReady j s) (ab : Byte) (xs : List Byte) (h : Hint) :
    busWrite j ab xs h s = .error .notConfigured := by
  unfold busWrite
  split
  · rfl
  · next b l hbl =>
    obtain ⟨hb, hl⟩ := busLine_eq_some hbl
    simp [hn b l hb hl]

theorem busRead_notConfigured {j : Nat} (hn : NotReady busReady j s) (n : Nat) (h : Hint) :
    busRead j n h s = .error .notConfigured := by
  unfold busRead
  split
  · rfl
  · next b l hbl =>
    obtain ⟨hb, hl⟩ := busLine_eq_some hbl
    simp [hn b l hb hl]

theorem execBrd_notConfigured {j : Nat} (hn : NotReady busReady j s) (n : Nat) (h : Hint) :
    exec (.brd j n h) s = .refused .notConfigured := by
  simp only [exec, execBrd, busRead_notConfigured hn]

/-- With its bytes in their domain, a BWR is refused for the missing configuration (log 8 has the other order). -/
theorem execBwr_notConfigured {j ab : Nat} {payload : List Nat} {h : Hint} (hn : NotReady busReady j s)
    (hw : WellFormed (.bwr j ab payload h)) : exec (.bwr j ab payload h) s = .refused .notConfigured := by
  simp only [WellFormed, Instr.wf, Bool.and_eq_true, decide_eq_true_eq, List.all_eq_true] at hw
  obtain ⟨hab, hpayload⟩ := hw
  have hbyte : byteOf ab = some (BitVec.ofNat 8 ab) := if_pos hab
  simp only [exec, execBwr, hbyte, bytesOf_ok hpayload, busWrite_notConfigured hn]

/-- Settles O23: BWR and BRD test the bus and its clock line, the micro-operations the bus alone, and each is
refused on the test. -/
theorem trafficNeedsConfiguration : Obligations.TrafficNeedsConfiguration := by
  refine fun j s => ⟨fun hn => ⟨execBrd_notConfigured hn, fun _ _ _ => execBwr_notConfigured hn⟩, fun hn _ _ _ _ => ?_⟩
  simp only [exec, execSetl, execRel, execStart, execStop, execTxbit, execTxbyte, execRxbit, execRxbyte, execMack, execMnack,
    microOp_notConfigured hn, and_self]

end Sys2Proof.Machine
end

section
/-! Proofs of the statements about the memory: the order of the bits in a byte, and the executor along a line's queue. -/

namespace Sys2Proof.Machine

/-! ### Bits of a byte -/

/-- Shifting a bit into a byte puts it at place 0 and moves every other bit one place up. -/
theorem getLsbD_shiftIn (x : Byte) (b : Bit) {k : Nat} (hk : k < 8) :
    ((x <<< 1) ||| (if b then 1 else 0)).getLsbD k = if k = 0 then b else x.getLsbD (k - 1) := by
  cases k with
  | zero => cases b <;> simp
  | succ k => cases b <;> simp [hk, BitVec.getLsbD_eq_getElem (Nat.lt_of_succ_lt hk)]

/-- Eight sampled bits are the bits of the byte they form, the first one at the top. -/
theorem bitsOfByte_byteOfBits (b7 b6 b5 b4 b3 b2 b1 b0 : Bit) :
    bitsOfByte (byteOfBits [b7, b6, b5, b4, b3, b2, b1, b0]) = [b7, b6, b5, b4, b3, b2, b1, b0] := by
  simp (disch := decide) only [byteOfBits, bitsOfByte, List.foldl, getLsbD_shiftIn, Nat.reduceSub, reduceIte,
    OfNat.ofNat_ne_zero, one_ne_zero]

/-- Settles O11: assembling a byte and taking it apart are inverse to each other, and the eight bits taken apart are its
bits 7 to 0. -/
theorem bytesTravelMostSignificantBitFirst : Obligations.BytesTravelMostSignificantBitFirst := by
  refine ⟨fun b7 b6 b5 b4 b3 b2 b1 b0 => ?_, byteOfBits_bitsOfByte⟩
  have hbits := bitsOfByte_byteOfBits b7 b6 b5 b4 b3 b2 b1 b0
  exact ⟨hbits, by simpa only [bitsOfByte, List.cons.injEq, and_true] using hbits⟩

/-! ### The executor along a queue -/

theorem length_take_pending {k : Nat} {l : ClockLine} (hk : l.qhead + k ≤ l.tq.length) :
    ((l.tq.drop l.qhead).take k).length = k :=
  List.length_take_of_le (by rw [List.length_drop]; omega)

/-- Within the pending entries of a clock line, `k` steps of the executor run the first `k` of them. -/
theorem autoSteps_ran {c : LineId} {k : Nat} {s : State} {l : ClockLine} (hl : mget c s.lines = some l)
    (hk : l.qhead + k ≤ l.tq.length) : Ran c ((l.tq.drop l.qhead).take k) s (autoSteps c k s) := by
  have hsteps := autoSteps_eq hl _ _ (List.take_append_drop k (l.tq.drop l.qhead)).symm
  rw [length_take_pending hk] at hsteps
  exact hsteps ▸ runEntries_ran c _ s (by simp [hl])

/-- Settles O36: what `k` steps change is what a run over the first `k` pending entries changes (`autoSteps_ran`). -/
theorem executorRunsInEmissionOrder : Obligations.ExecutorRunsInEmissionOrder := by
  intro c k s l hl hk
  have hran := autoSteps_ran hl hk
  obtain ⟨rx, hline, hrx, -⟩ := hran.line l hl
  rw [length_take_pending hk] at hline
  exact ⟨hran.only, ⟨rx, hline, hrx⟩, hran.bus⟩

end Sys2Proof.Machine
end

section
/-! Proofs of the statements about the encoding: decoding and encoding are inverse to each other, what a step takes off the
port or refuses there, and the fields of the address byte and of the sample word. -/

namespace Sys2Proof.Machine

/-! ### Decoding and encoding -/

/-- Settles O5: each operation's own round trip (Laws/PerInstr.lean). -/
theorem decodeGivesBackEveryOperation : Obligations.DecodeGivesBackEveryOperation
  | .bnew .. => Laws.RoundTrip.bnew _ _ _ _
  | .bcfg .. => Laws.RoundTrip.bcfg _
  | .bwr .. => Laws.RoundTrip.bwr _ _ _ _
  | .brd .. => Laws.RoundTrip.brd _ _ _
  | .bctl .. => Laws.RoundTrip.bctl _
  | .enew .. => Laws.RoundTrip.enew _ _ _
  | .ewin .. => Laws.RoundTrip.ewin _ _ _ _ _ _
  | .ecb .. => Laws.RoundTrip.ecb _ _ _
  | .ecfg .. => Laws.RoundTrip.ecfg _
  | .earm .. => Laws.RoundTrip.earm _
  | .etick .. => Laws.RoundTrip.etick _ _
  | .eget .. => Laws.RoundTrip.eget _
  | .estat .. => Laws.RoundTrip.estat _
  | .setl .. => Laws.RoundTrip.setl _ _ _ _
  | .rel .. => Laws.RoundTrip.rel _ _
  | .start .. => Laws.RoundTrip.start _ _
  | .stop .. => Laws.RoundTrip.stop _ _
  | .txbit .. => Laws.RoundTrip.txbit _ _ _
  | .txbyte .. => Laws.RoundTrip.txbyte _ _ _
  | .rxbit .. => Laws.RoundTrip.rxbit _ _
  | .rxbyte .. => Laws.RoundTrip.rxbyte _ _ _
  | .mack .. => Laws.RoundTrip.mack _ _
  | .mnack .. => Laws.RoundTrip.mnack _ _
  | .qset .. => Laws.RoundTrip.qset _
  | .qsmp .. => Laws.RoundTrip.qsmp _ _

/-- Settles O6: a command that decodes is an opcode byte and operand bytes, and without a not-a-number the operand bytes
are those the encoder writes (`decode_inv`). -/
theorem operationsWithoutNaNHaveOneCommand : Obligations.OperationsWithoutNaNHaveOneCommand := by
  intro bs i rest hd hnan
  obtain ⟨operands, rfl, hoperands⟩ := decode_inv hd
  rw [hoperands hnan, encode, List.cons_append]

/-- Settles O7: opcodes and written-out commands by evaluation, the format group of every opcode by `groupOf_opcode`. -/
theorem opcodeBytesNameTheirOperations : Obligations.OpcodeBytesNameTheirOperations := by
  refine ⟨fun _ _ _ _ => rfl, fun _ => rfl, fun _ _ _ _ => rfl, fun _ _ _ => rfl, fun _ => rfl, fun _ _ _ => rfl,
    fun _ _ _ _ _ _ => rfl, fun _ _ _ => rfl, fun _ => rfl, fun _ => rfl, fun _ _ => rfl, fun _ => rfl, fun _ => rfl,
    fun _ _ _ _ => rfl, fun _ _ => rfl, fun _ _ => rfl, fun _ _ => rfl, fun _ _ _ => rfl, fun _ _ _ => rfl,
    fun _ _ => rfl, fun _ _ _ => rfl, fun _ _ => rfl, fun _ _ => rfl, fun _ => rfl, fun _ _ => rfl,
    ?_, ?_, ?_, ?_, ?_, ?_, groupOf_opcode⟩ <;> decide

/-! ### What a step takes off the port -/

section Port

variable {s : State} {m : Message} {ms : List Message} {i : Instr}

/-- An agent may open a command with an operation's opcode byte where it may send that operation's format. -/
theorem mayOpen_opcode (a : Agent) (i : Instr) : mayOpen a i.opcode = permits a i.format := by
  simp only [mayOpen, groupOf_opcode]

/-- Outside an open tick every waiting command is looked at, inside one only the executor's (R283). -/
theorem fetch_of_waiting (hport : s.env.port = m :: ms) (hturn : s.busy = none ∨ m.agent = .executor) :
    fetch s = takeCommand m ms s := by
  rcases hturn with h | h <;> simp [fetch, hport, h]

/-- A command that decodes, from an agent that may send its format, is taken off the port. -/
theorem takeCommand_of_decode {rest : Bytes} (hd : decode m.bytes = .ok (i, rest))
    (hperm : permits m.agent i.format = true) :
    takeCommand m ms s = .ok (some (i, s.withPort (portAfter m.agent rest ms))) := by
  obtain ⟨operands, hbytes, -⟩ := decode_inv hd
  have hopen : mayOpen m.agent i.opcode = true := (mayOpen_opcode _ _).trans hperm
  rw [hbytes] at hd
  simp only [takeCommand, hbytes, hopen, hd, if_true, State.withPort]

/-- A command whose opcode byte its agent may not send, or that stands for no operation, is refused as reserved. -/
theorem takeCommand_of_reserved {op : Byte} {operands : Bytes} (hbytes : m.bytes = op :: operands)
    (hres : mayOpen m.agent op = false ∨ ∀ i : Instr, i.opcode ≠ op) :
    takeCommand m ms s = .error .reservedOpcode := by
  rcases hres with hclosed | hnone
  · simp [takeCommand, hbytes, hclosed]
  · have hd : decode (op :: operands) = .error .reservedOpcode := getOperands_reserved operands hnone
    simp [takeCommand, hbytes, hd]

/-- The host may not send an operation of format U or Q (R102). -/
theorem permits_host_eq_false {f : Format} (hf : f = .u ∨ f = .q) : permits .host f = false := by
  rcases hf with rfl | rfl <;> rfl

end Port

/-- Settles O2: the fetch looks at the waiting command, takes it off the port, and the step runs it. -/
theorem stepRunsTheWaitingCommand : Obligations.StepRunsTheWaitingCommand := by
  intro s m ms i rest habort hport hturn hd hperm
  simp only [step, habort, fetch_of_waiting hport hturn, takeCommand_of_decode hd hperm, State.withPort]

/-- Settles O3: an opcode that stands for no operation is refused by the decoder, one of format U or Q from the host
before decoding (log 8). -/
theorem reservedOpcodesAreRefused : Obligations.ReservedOpcodesAreRefused := by
  intro s m ms op operands habort hbusy hport hbytes hres
  have hrefused : takeCommand m ms s = .error .reservedOpcode := by
    refine takeCommand_of_reserved hbytes ?_
    rcases hres with hnone | ⟨hhost, i, rfl, hf⟩
    · exact Or.inr hnone
    · exact Or.inl (by rw [hhost, mayOpen_opcode, permits_host_eq_false hf])
  simp only [step, habort, fetch_of_waiting hport (Or.inl hbusy), hrefused]

/-! ### Bytes -/

/-- The address byte is twice the address plus the read flag (R91). -/
theorem addrByte_toNat (a : BitVec 7) (rw : Bit) : (addrByte a rw).toNat = 2 * a.toNat + (if rw then 1 else 0) := by
  have hflag : (if rw then 1 else 0 : Byte).toNat = if rw then 1 else 0 := by cases rw <;> rfl
  have hlt : (if rw then 1 else 0) < 2 ^ 1 := by cases rw <;> decide
  have haddr : (a.setWidth 8 <<< 1).toNat = a.toNat <<< 1 := by
    rw [BitVec.toNat_shiftLeft, BitVec.toNat_setWidth_of_le (by decide), Nat.shiftLeft_eq]
    have := a.isLt
    omega
  rw [addrByte, BitVec.toNat_or, hflag, haddr, ← Nat.shiftLeft_add_eq_or_of_lt hlt, Nat.shiftLeft_eq, Nat.mul_comm]

/-- Settles O8: halving the byte's value (`addrByte_toNat`) leaves the address; bit 0 is `addrByte_bit0`. -/
theorem addressByteFields : Obligations.AddressByteFields := by
  refine fun a rw => ⟨BitVec.eq_of_toNat_eq ?_, addrByte_bit0 a rw, addrByte_toNat a rw⟩
  have ha := a.isLt
  have hflag : (if rw then 1 else 0) < 2 := by cases rw <;> decide
  rw [BitVec.extractLsb'_toNat, addrByte_toNat, Nat.shiftRight_eq_div_pow]
  omega

/-- Two bytes appended are 256 times the first plus the second. -/
theorem toNat_append_bytes (b0 b1 : Byte) : (b0 ++ b1 : BitVec 16).toNat = 256 * b0.toNat + b1.toNat := by
  rw [BitVec.toNat_append, ← Nat.shiftLeft_add_eq_or_of_lt b1.isLt, Nat.shiftLeft_eq, Nat.mul_comm]

/-- Settles O10: the two's complement value of the 16 bits, whose unsigned value is `toNat_append_bytes`. -/
theorem sampleWordIsBigEndian : Obligations.SampleWordIsBigEndian := by
  intro b0 b1
  have hval : rawSample b0 b1 = _ := BitVec.toInt_eq_toNat_cond (b0 ++ b1 : BitVec 16)
  rw [toNat_append_bytes] at hval
  have h0 := b0.isLt
  have h1 := b1.isLt
  split at hval <;> split <;> omega

/-! ### Operand domains -/

theorem byteOf_eq_none {n : Nat} (hn : 255 < n) : byteOf n = none := if_neg (Nat.not_le.mpr hn)

/-- One element above 255 makes a list of naturals no list of bytes. -/
theorem bytesOf_eq_none {p : List Nat} {x : Nat} (hx : x ∈ p) (hbig : 255 < x) : bytesOf p = none := by
  induction p with
  | nil => cases hx
  | cons y p ih =>
    rcases List.mem_cons.mp hx with rfl | hx
    · simp [bytesOf, byteOf_eq_none hbig]
    · simp [bytesOf, ih hx]

/-- Settles O24: BWR converts the address byte and the payload first, and one of the two fails. -/
theorem bwrRefusesBytesAbove255 : Obligations.BwrRefusesBytesAbove255 := by
  rintro i ab payload h s (hab | ⟨x, hx, hbig⟩)
  · simp [exec, execBwr, byteOf_eq_none hab]
  · simp [exec, execBwr, bytesOf_eq_none hx hbig]

end Sys2Proof.Machine
end

section
/-! Proofs of the statements about the bus primitives: the entries each micro-operation emits, the executor's two steps, the
wire conditions of a frame, and that configured lines are idle between operations. -/

namespace Sys2Proof.Machine

/-! ### Idle lines between operations -/

section Idle

variable {s t : State}

/-- Only the bus itself may send a micro-operation (R100). -/
theorem internal_of_permits {a : Agent} {f : Format} (hperm : permits a f = true) (hf : f = .u) : a = .internal := by
  subst hf
  cases a with
  | internal => rfl
  | host | event | executor => cases hperm

/-- Taking a command off the port leaves no message of another agent there. -/
theorem HostOnly.withPort_portAfter {m : Message} {ms : List Message} (hhost : HostOnly s) (hport : s.env.port = m :: ms)
    (rest : Bytes) : HostOnly (s.withPort (portAfter m.agent rest ms)) := by
  rw [HostOnly, hport] at hhost
  obtain ⟨hm, hms⟩ := List.forall_mem_cons.mp hhost
  show ∀ m' ∈ portAfter m.agent rest ms, m'.agent ≠ .internal
  unfold portAfter
  split
  · exact hms
  · exact List.forall_mem_cons.mpr ⟨hm, hms⟩

/-- With no message of the bus itself at the port, a step is idle or a run of an operation other than a
micro-operation, which begins, and so ends, with no such message at the port. -/
theorem HostOnly.step_run (hhost : HostOnly s) (h : step s = .next t) :
    t = s ∨ ∃ i bus port, i.format ≠ .u ∧ HostOnly (s.withPort port) ∧ Run i bus (s.withPort port) t := by
  rcases step_cases h with ⟨-, rfl⟩ | ⟨k, g, -, -, hg, ht⟩ | ⟨m, ms, i, rest, -, hport, hperm, ht⟩
  · exact Or.inl rfl
  · exact Or.inr ⟨.etick k.engine k.now, _, s.env.port, nofun, hhost,
      tickAttempt_run hg (fun _ hb => softwareBusOf_eq hg hb) ht⟩
  · refine Or.inr ⟨i, _, _, fun hu => ?_, hhost.withPort_portAfter hport rest, exec_run ht⟩
    exact hhost m (hport ▸ List.mem_cons_self) (internal_of_permits hperm hu)

end Idle

/-- Settles O60: outside micro-operations every move keeps queues, ownership, levels and the idle level together
(`LinesInOrder.move`), and no move writes the port. -/
theorem stepKeepsConfiguredLinesIdle : Obligations.StepKeepsConfiguredLinesIdle := by
  intro s t hhost hq hbs hlv hid h
  rcases hhost.step_run h with rfl | ⟨i, bus, port, hi, hport, hrun⟩
  · exact ⟨hhost, hlv, hid⟩
  · have hlines : LinesInOrder (s.withPort port) := ⟨hq, hbs, hlv, hid⟩
    obtain ⟨-, -, hlv', hid'⟩ := hrun.keeps (fun _ _ => LinesInOrder.move hi) hlines
    rw [HostOnly, ← hrun.port] at hport
    exact ⟨hport, hlv', hid'⟩

/-! ### Wire conditions of a frame -/

section Frame

variable {i : Nat} {h : Hint} {es : List Entry}

/-- From idle, quiet entries between START and STOP leave one start condition, START's own, and that only where the
slave has the data line released. -/
theorem startsSeen_framed (hes : Quiet i es) (slave : Nat → Bit) :
    startsSeen i slave true true (startEntries i h ++ es ++ stopEntries false i h) = if slave 0 then 1 else 0 := by
  rw [startsSeen_append, startsSeen_append]
  have hlow : lastScl true (startEntries i h ++ es) = false := by rw [lastScl_append]; exact hes.low
  rw [show lastScl true (startEntries i h) = false from rfl, hes.starts, hlow]
  simp [startEntries, stopEntries, startsSeen]

/-- From idle, quiet entries between START and STOP leave one stop condition, STOP's own, and that only where they end
with the data line low. -/
theorem stopsSeen_framed (hes : Quiet i es) :
    stopsSeen i true true (startEntries i h ++ es ++ stopEntries false i h) =
      if lastSda i false es then 0 else 1 := by
  rw [stopsSeen_append, stopsSeen_append]
  have hlow : lastScl true (startEntries i h ++ es) = false := by rw [lastScl_append]; exact hes.low
  have hsda : lastSda i true (startEntries i h ++ es) = lastSda i false es := by
    rw [lastSda_append]; simp [startEntries, lastSda]
  rw [show lastScl true (startEntries i h) = false from rfl, hes.stops, hlow, hsda]
  cases lastSda i false es <;> simp [startEntries, stopEntries, stopsSeen]

/-- Releasing the data line at the released level shows no start condition. -/
theorem startsSeen_release (slave : Nat → Bit) (scl : Bit) :
    startsSeen i slave scl true (.sda i true h :: es) = startsSeen i (fun p => slave (p + 1)) scl true es := by
  simp [startsSeen]

/-- Releasing the data line at the released level shows no stop condition. -/
theorem stopsSeen_release (scl : Bit) : stopsSeen i scl true (.sda i true h :: es) = stopsSeen i scl true es := by
  simp [stopsSeen]

/-- What a read emits between START and STOP. -/
def readBody (i : Nat) (h : Hint) (ab : Byte) (n : Nat) : List Entry :=
  cellEntries i h false ab ++ rxCellsEntries i h n ++ [.sda i true h]

theorem readEntries_framed {p : Params} (hp : p.stopPrelow = false) (hr : p.rdAddrStop = false) (ab : Byte) (n : Nat) :
    readEntries p i h ab n =
      .sda i true h :: (startEntries i h ++ readBody i h ab n ++ stopEntries false i h) := by
  simp [readEntries, readBody, hp, hr]

theorem readBody_quiet (i : Nat) (h : Hint) (ab : Byte) (n : Nat) : Quiet i (readBody i h ab n) :=
  ((Quiet.cell i h false ab).append (Quiet.rxCells i h n)).append (Quiet.sda i i true h)

theorem lastSda_readBody (i : Nat) (h : Hint) (ab : Byte) (n : Nat) : lastSda i false (readBody i h ab n) = true := by
  rw [readBody, lastSda_append]; simp [lastSda]

end Frame

/-- Settles O29: the entries between START and STOP are quiet, so the conditions are those of START and STOP; a write ends
at the last bit of its last byte, a read with the data line released. -/
theorem wireConditionsOfAFrame : Obligations.WireConditionsOfAFrame := by
  refine ⟨fun i h ab payload => ?_, fun p i h ab n hp hr => ?_⟩
  · have hquiet : Quiet i (cellsEntries i h false (ab :: payload)) := Quiet.cells i h _ _
    refine ⟨startsSeen_framed hquiet, ?_, rfl, hquiet.data⟩
    rw [writeEntries, stopsSeen_framed hquiet, lastSda_cells_self]
  · have hquiet := readBody_quiet i h ab n
    rw [readEntries_framed hp hr]
    refine ⟨fun slave => ?_, ?_, rfl, hquiet.data⟩
    · rw [startsSeen_release, startsSeen_framed hquiet]
    · rw [stopsSeen_release, stopsSeen_framed hquiet, lastSda_readBody, if_pos rfl]

/-! ### Micro-operations -/

/-- A micro-operation that returns nothing, on a configured bus. -/
theorem microOp_emits_none {i : Nat} {f : Lane → Lane} {s : State} {b : Bus} {l : ClockLine} {es : List Entry}
    {scl sda : Bit} (hb : mget i s.buses = some b) (hl : mget b.scl s.lines = some l) (hc : b.busCfg = true)
    (hf : f (laneOf b l) = (laneOf b l).app es scl sda) :
    microOp i (fun ln => (f ln, .none)) s = .next (afterEmit i b l es scl sda .none s) :=
  microOp_emits hb hl hc (congrArg (·, Result.none) hf)

/-- Settles O30: each operation is one emission, of the entries its own lemma names (`start_app` and the others). -/
theorem framingOperationsEmit : Obligations.FramingOperationsEmit := by
  intro i v h s b l hb hl hc
  exact ⟨microOp_emits_none hb hl hc (setl_scl_app i h v _), microOp_emits_none hb hl hc (setl_sda_app i h v _),
    microOp_emits_none hb hl hc (setl_sda_app i h true _), microOp_emits_none hb hl hc (start_app i h _),
    microOp_emits_none hb hl hc (stop_app s.params i h _), microOp_emits_none hb hl hc (mack_app i h _),
    microOp_emits_none hb hl hc (mnack_app i h _)⟩

theorem clockPulses_eq {es : List Entry} {k : Nat} (hes : clockLevels es = pulses k) : clockPulses es = k := by
  rw [clockPulses, hes, fallCount_pulses_nil]

theorem bitEntries_singleton (i : Nat) (h : Hint) (lvl b : Bit) :
    bitEntries i h lvl [b] = (if b = lvl then [] else [.sda i b h]) ++ pulseEntries h := by
  rw [bitEntries, bitEntries, List.append_nil]

/-- Settles O31: a bit and a byte are one emission each; a byte's clock levels are nine pulses. -/
theorem transmitOperationsEmit : Obligations.TransmitOperationsEmit := by
  intro i v x h s b l hb hl hc
  have hclock := clockLevels_cell i h b.sdaLvl x
  refine ⟨?_, microOp_emits_none hb hl hc (txbyte_app i h x _), dataCount_cell i h b.sdaLvl x, ?_, clockPulses_eq hclock⟩
  · have hbit := txbit_app i h v (laneOf b l)
    rw [bitEntries_singleton] at hbit
    exact microOp_emits_none hb hl hc hbit
  · rw [hclock, pulses_length]

/-- Settles O32: RXBIT is one emission, of one sample at the second place (`rxbit_app`). -/
theorem rxbitPlacesOneSample : Obligations.RxbitPlacesOneSample := by
  intro i h s b l hb hl hc
  have hemit := rxbit_app i h (laneOf b l)
  exact microOp_emits (f := fun ln => ((rxbit i h ln).1, .position (rxbit i h ln).2)) hb hl hc (by rw [hemit]; rfl)

/-- The positions RXBYTE returns are those of the cell's samples, three entries apart. -/
theorem getElem?_samplePositions (i : Nat) (h : Hint) (last : Bool) (tq : List Entry) {p : Nat}
    (hp : p ∈ samplePositions tq.length) : (tq ++ rxCellEntries i h last)[p]? = some (.smp i h) := by
  obtain ⟨k, hk, rfl⟩ : ∃ k, k < 8 ∧ p = tq.length + (3 * k + 1) := by
    refine ⟨(p - tq.length - 1) / 3, ?_⟩
    simp only [samplePositions, List.mem_cons, List.not_mem_nil, or_false] at hp
    omega
  rw [List.getElem?_append_right (Nat.le_add_right _ _), Nat.add_sub_cancel_left]
  exact (rxCell_sample i h last k hk).1

/-- Settles O33: RXBYTE is one emission, of a receive cell (`rxbyte_app`). -/
theorem rxbyteEmitsAReceiveCell : Obligations.RxbyteEmitsAReceiveCell := by
  intro i last h s b l hb hl hc
  obtain ⟨-, -, hsamples⟩ := rxCell_whole i h last
  refine ⟨?_, fun p => getElem?_samplePositions i h last l.tq, clockPulses_eq (clockLevels_rxCell i h last), hsamples⟩
  have hlevel : (last && b.sdaLvl || !last) = if last then b.sdaLvl else true := by cases last <;> simp
  have hemit := rxbyte_app i h last (laneOf b l)
  rw [show (laneOf b l).sda = b.sdaLvl from rfl, hlevel] at hemit
  exact microOp_emits (f := fun ln => ((rxbyte i h last ln).1, .positions (rxbyte i h last ln).2)) hb hl hc
    (by rw [hemit]; rfl)

/-! ### The executor's steps -/

section Executor

variable {c : LineId} {s : State} {l : ClockLine}

theorem headEntry_of_line (hl : mget c s.lines = some l) : headEntry c s = l.tq[l.qhead]?.map (l, ·) := by
  cases he : l.tq[l.qhead]? <;> simp [headEntry, hl, he]

theorem setWireSda_of_bus {i : Nat} {b : Bus} (hb : mget i s.buses = some b) (v : Bit) :
    setWireSda i v s = s.putBus i { b with wSda := v } := by
  rw [setWireSda, hb]

theorem runSda_of_bus {i : Nat} {b : Bus} (hb : mget i s.buses = some b) (v : Bit) :
    runSda c l i v s = (s.putLine c { l with qhead := l.qhead + 1 }).putBus i { b with wSda := v } :=
  setWireSda_of_bus (s := s.putLine c { l with qhead := l.qhead + 1 }) hb v

theorem runSmp_of_bus {i : Nat} {b : Bus} (hb : mget i s.buses = some b) (slave : Bit) :
    runSmp c l i slave s =
      s.putLine c { l with rx := mset natLt l.qhead (b.wSda && slave) l.rx, qhead := l.qhead + 1 } := by
  rw [runSmp, wireSda, hb]

end Executor

/-- Settles O34: the meaning of QSET on each kind of head entry. -/
theorem qsetExecutesALevelEntry : Obligations.QsetExecutesALevelEntry := by
  intro c s l hl
  have hhead := headEntry_of_line hl
  refine ⟨fun v h he => ?_, fun i v h b he hb => ?_, ?_⟩
  · simp only [exec, execQset, hhead, he, Option.map_some, runScl, State.putLine]
  · simp only [exec, execQset, hhead, he, Option.map_some, runSda_of_bus hb, State.putLine, State.putBus]
  · rintro (he | ⟨i, h, he⟩)
    · simp only [exec, execQset, hhead, he, Option.map_none]
    · simp only [exec, execQset, hhead, he, Option.map_some]

/-- Settles O35: the meaning of QSMP on each kind of head entry. -/
theorem qsmpRecordsTheWire : Obligations.QsmpRecordsTheWire := by
  intro c v s l hl
  have hhead := headEntry_of_line hl
  refine ⟨fun i h b he hb => ?_, ?_⟩
  · simp only [exec, execQsmp, hhead, he, Option.map_some, runSmp_of_bus hb, State.putLine]
  · rintro (he | ⟨w, h, he⟩ | ⟨i, w, h, he⟩)
    · simp only [exec, execQsmp, hhead, he, Option.map_none]
    · simp only [exec, execQsmp, hhead, he, Option.map_some]
    · simp only [exec, execQsmp, hhead, he, Option.map_some]

end Sys2Proof.Machine
end

section
/-! Proofs of the statements about the host's bus operations: construction and configuration of a bus, the frames BWR and BRD
emit, the bytes BRD returns, and how many entries of each kind a frame has. -/

namespace Sys2Proof.Machine

/-! ### A bus on its clock line, operands in their domain -/

section Access

variable {i : Nat} {s : State} {b : Bus} {l : ClockLine}

theorem busLine_of_mget (hb : mget i s.buses = some b) (hl : mget b.scl s.lines = some l) :
    busLine i s = some (b, l) := by
  simp only [busLine, hb, hl]

theorem addr7Of_of_le {a : Nat} (ha : a ≤ 127) : addr7Of a = some (BitVec.ofNat 7 a) := if_pos ha

theorem byteOf_of_le {n : Nat} (hn : n ≤ 255) : byteOf n = some (BitVec.ofNat 8 n) := if_pos hn

end Access

/-! ### Construction -/

section Construction

variable {i a : Nat} {scl sda : LineId} {s : State}

/-- BNEW's tests for a name and lines that are free: it creates the bus (R150). -/
theorem execBnew_of_free (ha : a ≤ 127) (hctrl : sda.ctrl = scl.ctrl) (hname : mget i s.buses = none)
    (hfree : ∀ p, p ∈ s.buses → p.2.sda ≠ sda ∧ p.2.scl ≠ sda ∧ p.2.sda ≠ scl) :
    execBnew i a scl sda s = .next (addBus i (BitVec.ofNat 7 a) scl sda s) := by
  have hsda : lineInUse true sda s.buses = false := lineInUse_false fun p hp =>
    let ⟨hdata, hclock, _⟩ := hfree p hp
    ⟨hdata, fun _ => hclock⟩
  have hscl : lineInUse false scl s.buses = false := lineInUse_false fun p hp =>
    let ⟨_, _, hdata⟩ := hfree p hp
    ⟨hdata, nofun⟩
  simp [execBnew, addr7Of_of_le ha, hctrl, hname, hsda, hscl]

theorem addBus_of_unowned {x : BitVec 7} (hline : mget scl s.lines = none) :
    addBus i x scl sda s =
      ((s.putLine scl (newLine i s)).putBus i (newBus x scl sda i s)).nextDraw.give .none := by
  rw [addBus, hline]

theorem addBus_of_owned {x : BitVec 7} {l : ClockLine} (hline : mget scl s.lines = some l) :
    addBus i x scl sda s = (s.putBus i (newBus x scl sda l.owner s)).nextDraw.give .none := by
  rw [addBus, hline]

/-- The data line is another bus's line, or the clock line another bus's data line (R150, log 28). -/
theorem lineInUse_of_taken (h : ∃ p, p ∈ s.buses ∧ (p.2.sda = sda ∨ p.2.scl = sda ∨ p.2.sda = scl)) :
    (lineInUse true sda s.buses || lineInUse false scl s.buses) = true := by
  obtain ⟨p, hp, hsda | hclock | hscl⟩ := h
  · rw [lineInUse_true hp (.inl hsda), Bool.true_or]
  · rw [lineInUse_true hp (.inr ⟨rfl, hclock⟩), Bool.true_or]
  · rw [lineInUse_true hp (.inl hscl), Bool.or_true]

end Construction

/-- Settles O17: BNEW's tests pass (`execBnew_of_free`), and the new bus allocates its clock line (`addBus_of_unowned`). -/
theorem bnewElectsTheFirstOwner : Obligations.BnewElectsTheFirstOwner := by
  intro i a scl sda s ha hctrl hname hfree hline
  exact ⟨_, _, _, _, (execBnew_of_free ha hctrl hname hfree).trans (congrArg _ (addBus_of_unowned hline))⟩

/-- Settles O18: BNEW's tests pass (`execBnew_of_free`), and the new bus takes its clock line's owner (`addBus_of_owned`). -/
theorem bnewSharesTheOwnersLine : Obligations.BnewSharesTheOwnersLine := by
  intro i a scl sda s l ha hctrl hname hfree hline
  exact ⟨_, _, (execBnew_of_free ha hctrl hname hfree).trans (congrArg _ (addBus_of_owned hline))⟩

/-- Settles O20: each refusal is the first of BNEW's tests that fails (log 8 has their order). -/
theorem bnewRefusals : Obligations.BnewRefusals := by
  refine fun i a scl sda s => ⟨fun ha => ?_, fun ha hctrl hname => ?_, fun ha hctrl hname htaken => ?_⟩
  · have hnone : addr7Of a = none := if_neg (Nat.not_le.mpr ha)
    simp only [exec, execBnew, hnone]
  · simp [exec, execBnew, addr7Of_of_le ha, hctrl, hname]
  · simp [exec, execBnew, addr7Of_of_le ha, hctrl, hname, lineInUse_of_taken htaken]

/-! ### Configuration -/

section Configuration

variable {i : Nat} {s : State} {b : Bus} {l : ClockLine} (hb : mget i s.buses = some b) (hl : mget b.scl s.lines = some l)

include hb hl

theorem execBcfg_of_owner (hc : b.busCfg = false) (ho : b.owner = i) :
    execBcfg i s = .next (((s.putLine b.scl (idleLine l)).putBus i (idleBus b)).give .none) := by
  simp [execBcfg, busLine_of_mget hb hl, hc, ho]

theorem execBcfg_of_other (hc : b.busCfg = false) (ho : b.owner ≠ i) :
    execBcfg i s = .next ((s.putBus i (idleBus b)).give .none) := by
  simp [execBcfg, busLine_of_mget hb hl, hc, ho]

theorem execBcfg_of_configured (hc : b.busCfg = true) : execBcfg i s = .refused .alreadyConfigured := by
  simp [execBcfg, busLine_of_mget hb hl, hc]

end Configuration

/-- Settles O21: a bus not yet configured is idle afterwards, its clock line too when it is the owner; no queue is written. -/
theorem bcfgEstablishesIdleLines : Obligations.BcfgEstablishesIdleLines := by
  intro i s b l hb hl
  exact ⟨execBcfg_of_owner hb hl, execBcfg_of_other hb hl, execBcfg_of_configured hb hl⟩

/-- Settles O22: on a bus that is there, BCTL writes the returned value alone. -/
theorem bctlReturnsTheController : Obligations.BctlReturnsTheController := by
  intro i s b hb
  simp only [exec, execBctl, hb, State.give]

/-! ### Traffic on a configured bus -/

/-- Settles O25: the bytes are in their domain, and BWR's body emits the write frame (`busWrite_ok`). -/
theorem bwrEmitsTheWriteFrame : Obligations.BwrEmitsTheWriteFrame := by
  intro i ab payload h s b l hb hl hbus hclk hab hpayload
  have hready := busReady_iff.mpr ⟨hbus, hclk⟩
  simp only [exec, execBwr, byteOf_of_le hab, bytesOf_ok hpayload, busWrite_ok hb hl hready]
  rfl

/-- BRD hands over what its body returns. -/
theorem execBrd_of_ok {i n : Nat} {h : Hint} {s t : State} {xs : List Byte} {rt : Timestamp}
    (hread : busRead i n h s = .ok (xs, rt, t)) : exec (.brd i n h) s = .next (t.give (.read xs rt)) := by
  simp only [exec, execBrd, hread]

/-- `ReadDone` does not speak of the returned value. -/
theorem ReadDone.give {i n : Nat} {h : Hint} {b : Bus} {l : ClockLine} {rt : Timestamp} {s t : State}
    (hdone : ReadDone i n h b l rt s t) (r : Result) : ReadDone i n h b l rt s (t.give r) := hdone

/-- Settles O26: BRD's body answers `n` bytes and leaves `ReadDone` (`busRead_ok`). -/
theorem brdRunsTheReadFrame : Obligations.BrdRunsTheReadFrame := by
  intro i n h s b l hb hl hbus hclk hqueues
  obtain ⟨xs, rt, t, hread, hlen, hdone, -, -⟩ := busRead_ok hb hl (busReady_iff.mpr ⟨hbus, hclk⟩) hqueues
  exact ⟨xs, rt, _, execBrd_of_ok hread, rfl, hlen, hdone.give _⟩

/-- Settles O27: the bytes BRD's body answers are the ones the slave's list spells there (`busRead_ok`). -/
theorem brdReturnsTheSlavesBytes : Obligations.BrdReturnsTheSlavesBytes := by
  intro i n h s b l before xs after hb hl hbus hclk hqueues hbefore hlen hscript
  obtain ⟨ys, rt, t, hread, -, -, -, hspelled⟩ := busRead_ok hb hl (busReady_iff.mpr ⟨hbus, hclk⟩) hqueues
  obtain rfl : ys = xs := hspelled before xs after hbefore hlen hscript
  exact ⟨rt, _, execBrd_of_ok hread, rfl⟩

/-! ### Sizes of frames -/

/-- The clock levels of a frame with `k` pulses: down at START, up at STOP. -/
def frameLevels (k : Nat) : List Bit := false :: (pulses k ++ [true])

theorem frameLevels_length (k : Nat) : (frameLevels k).length = 2 + 2 * k := by
  simp only [frameLevels, List.length_cons, List.length_append, pulses_length, List.length_nil]
  omega

/-- The edges of START and STOP make no pulse. -/
theorem fallCount_frameLevels (k : Nat) : fallCount (frameLevels k) = k := by
  have hstart : ∀ vs : List Bit, fallCount (false :: vs) = fallCount vs := by
    intro vs
    cases vs <;> simp [fallCount]
  rw [frameLevels, hstart, fallCount_pulses]
  rfl

/-- A write frame has one data entry per change of the data line, one in START and one in STOP. -/
theorem dataCount_write (i : Nat) (h : Hint) (ab : Byte) (xs : List Byte) :
    dataCount (writeEntries false i h ab xs) = 2 + changesOver false (ab :: xs) := by
  rw [writeEntries, dataCount_append, dataCount_append, dataCount_cells]
  simp only [startEntries, stopEntries, dataCount, Bool.false_eq_true, if_false, List.nil_append]
  omega

theorem sampleCount_write (i : Nat) (h : Hint) (ab : Byte) (xs : List Byte) :
    sampleCount (writeEntries false i h ab xs) = 0 := by
  rw [writeEntries, sampleCount_append, sampleCount_append, sampleCount_cells]
  rfl

/-- Settles O28: clock entries, data entries and samples are counted apart (`clockLevels_write`, `dataCount_write`,
`read_counts`), and every entry is of one of these kinds (`length_kinds`). -/
theorem frameSizes : Obligations.FrameSizes := by
  refine ⟨fun i h ab payload => ?_, fun p i h ab n hp hr hn => ?_, fun p i h ab hp hr => ?_⟩
  · have hlevels : clockLevels (writeEntries false i h ab payload) = frameLevels (9 * (payload.length + 1)) :=
      clockLevels_write i h ab payload
    refine ⟨?_, ?_, ?_⟩
    · rw [length_kinds, hlevels, frameLevels_length, dataCount_write, sampleCount_write, changesOver]
      omega
    · rw [hlevels, frameLevels_length]
      omega
    · rw [clockPulses, hlevels, fallCount_frameLevels]
  · obtain ⟨hclock, hsamples, hdata⟩ := read_counts p i h ab n hp hr
    have hclocks := (congrArg List.length hclock).trans (frameLevels_length (9 * (n + 1)))
    refine ⟨?_, ?_, hsamples, hdata⟩
    · rw [length_kinds, hclocks, hdata, hsamples]
      omega
    · rw [hclocks]
      omega
  · obtain ⟨hclock, hsamples, hdata⟩ := read_counts p i h ab 0 hp hr
    have hclocks := (congrArg List.length hclock).trans (frameLevels_length (9 * (0 + 1)))
    refine ⟨?_, hclocks, hsamples, hdata⟩
    rw [length_kinds, hclocks, hdata, hsamples]
    omega

end Sys2Proof.Machine
end

section
/-! Proofs of the statements about the life of an engine: the configuration byte and the choice of the rate, what each
operation of construction, configuration, arming and query answers in each phase, and which phases follow each other. -/

namespace Sys2Proof.Machine

/-! ### The configuration byte -/

/-- The configuration byte is four times the rate's code plus the gain's (R92). -/
theorem cfgByte_toNat (rc : RateCodes) (r : Rate) (g : Gain) :
    (cfgByte rc r g).toNat = 4 * (rateCodeOf rc r).toNat + (gainCodeOf g).toNat := by
  have hgain : ((gainCodeOf g).setWidth 8).toNat = (gainCodeOf g).toNat := BitVec.toNat_setWidth_of_le (by decide)
  have hrate : ((rateCodeOf rc r).setWidth 8 <<< 2).toNat = (rateCodeOf rc r).toNat <<< 2 := by
    rw [BitVec.toNat_shiftLeft, BitVec.toNat_setWidth_of_le (by decide), Nat.shiftLeft_eq]
    have := (rateCodeOf rc r).isLt
    omega
  rw [cfgByte, BitVec.toNat_or, hgain, hrate, ← Nat.shiftLeft_add_eq_or_of_lt (gainCodeOf g).isLt, Nat.shiftLeft_eq,
    Nat.mul_comm]

/-- Bits 3 and 2 are the rate's code, bits 1 and 0 the gain's, and the upper half is 0 (R92). -/
theorem cfgByte_fields (rc : RateCodes) (r : Rate) (g : Gain) :
    (cfgByte rc r g).extractLsb' 2 2 = rateCodeOf rc r ∧ (cfgByte rc r g).extractLsb' 0 2 = gainCodeOf g ∧
    (cfgByte rc r g).extractLsb' 4 4 = 0 := by
  have hrate := (rateCodeOf rc r).isLt
  have hgain := (gainCodeOf g).isLt
  refine ⟨BitVec.eq_of_toNat_eq ?_, BitVec.eq_of_toNat_eq ?_, BitVec.eq_of_toNat_eq ?_⟩ <;>
    rw [BitVec.extractLsb'_toNat, cfgByte_toNat, Nat.shiftRight_eq_div_pow]
  · omega
  · omega
  · show _ = 0
    omega

/-- An injective RATE_CODE has an inverse (R94). -/
theorem rateOfCode_rateCodeOf {rc : RateCodes} (hrc : rateCodesInjective rc = true) (r : Rate) :
    rateOfCode rc (rateCodeOf rc r) = some r := by
  simp only [rateCodesInjective, Bool.and_eq_true, bne_iff_ne] at hrc
  obtain ⟨⟨⟨⟨⟨h8_16, h8_32⟩, h8_128⟩, h16_32⟩, h16_128⟩, h32_128⟩ := hrc
  cases r with
  | r8 => simp [rateOfCode, rateCodeOf]
  | r16 => simp [rateOfCode, rateCodeOf, h8_16.symm]
  | r32 => simp [rateOfCode, rateCodeOf, h8_32.symm, h16_32.symm]
  | r128 => simp [rateOfCode, rateCodeOf, h8_128.symm, h16_128.symm, h32_128.symm]

/-- A gain is the power of two its code is the exponent of (R93). -/
theorem one_shiftLeft_gainCodeOf (g : Gain) : 1 <<< (gainCodeOf g).toNat = gainNat g := by
  cases g <;> rfl

/-- Settles O9: the byte's fields are the two codes (`cfgByte_fields`), and each code gives back what it stands for. -/
theorem configByteRoundTrips : Obligations.ConfigByteRoundTrips := by
  intro rc r g hrc
  obtain ⟨hrate, hgain, hupper⟩ := cfgByte_fields rc r g
  exact ⟨hrate ▸ rateOfCode_rateCodeOf hrc r, hgain ▸ one_shiftLeft_gainCodeOf g, hupper⟩

/-! ### The choice of the rate -/

/-- `flt` against an exactly represented integer compares values. -/
theorem flt_floatOfInt {x : F64} {n : Int} (hx : x.isNaN = false) (hn : n.natAbs ≤ 2 ^ 53) :
    flt x (floatOfInt n) = decide (units x < n * 2 ^ 1074) := by
  simp only [flt, hx, floatOfInt_notNaN hn, units_floatOfInt hn, Bool.not_false, Bool.true_and]

/-- SelectRate of a legal period compares the value of the rounded quotient with the three midpoints (R174). -/
theorem selectRate_eq {t : F64} (ht : t.isPosFinite = true) :
    selectRate t =
      if units (fdiv (floatOfInt 1) t) < 12 * 2 ^ 1074 then .r8
      else if units (fdiv (floatOfInt 1) t) < 24 * 2 ^ 1074 then .r16
      else if units (fdiv (floatOfInt 1) t) < 80 * 2 ^ 1074 then .r32
      else .r128 := by
  have hnan := fdiv_one_notNaN ht
  simp only [selectRate, flt_floatOfInt hnan (n := 12) (by decide), flt_floatOfInt hnan (n := 24) (by decide),
    flt_floatOfInt hnan (n := 80) (by decide), decide_eq_true_eq]

/-- Settles O12: the tests of SelectRate are comparisons of values (`selectRate_eq`), of which the first that holds
decides; the period of the last clause is evaluated. -/
theorem rateBandsAreHalfOpen : Obligations.RateBandsAreHalfOpen := by
  refine ⟨fun t ht => ?_, by decide +kernel⟩
  rw [selectRate_eq ht]
  have hunit : (0 : Int) < 2 ^ 1074 := by positivity
  generalize units (fdiv (floatOfInt 1) t) = q
  generalize (2 : Int) ^ 1074 = unit at hunit ⊢
  refine ⟨fun h12 => if_pos h12, fun h12 h24 => ?_, fun h24 h80 => ?_, fun h80 => ?_⟩
  · rw [if_neg (by omega), if_pos h24]
  · rw [if_neg (by omega), if_neg (by omega), if_pos h80]
  · rw [if_neg (by omega), if_neg (by omega), if_neg (by omega)]

/-- The period of a rate is its exact reciprocal: the rates are powers of two (R173). -/
theorem units_periodOf (r : Rate) : units (periodOf r) * (rateNat r : Int) = 2 ^ 1074 := by
  obtain ⟨k, hk, hpow⟩ : ∃ k, k ≤ 7 ∧ rateNat r = 2 ^ k := by
    cases r with
    | r8 => exact ⟨3, by decide, rfl⟩
    | r16 => exact ⟨4, by decide, rfl⟩
    | r32 => exact ⟨5, by decide, rfl⟩
    | r128 => exact ⟨7, by decide, rfl⟩
  obtain ⟨e, f, hone, hmag⟩ := floatOfInt_exact (n := 1) (by decide)
  rw [Int.natAbs_one] at hmag
  obtain ⟨e', f', hdiv, hexact⟩ := fdiv_pow_exact (decide ((1 : Int) < 0)) e f hpow (Nat.le_trans hk (by decide))
    (by decide) (by decide) hmag (Nat.le_trans hk (by decide))
  rw [hmag, Nat.one_mul] at hexact
  have hvalue : units (periodOf r) = (magUnits e' f' : Int) := by rw [periodOf, hone, hdiv]; rfl
  rw [hvalue, ← Nat.cast_mul, hexact, Nat.cast_pow, Nat.cast_ofNat]

/-! ### Construction and configuration -/

/-- The gains are the integers the supported gains name (R43). -/
theorem gainOfInt_gainNat (gain : Gain) : gainOfInt (gainNat gain) = some gain := by
  cases gain <;> rfl

/-- Settles O37: a supported gain is recognised (`gainOfInt_gainNat`), so only a taken name is refused. -/
theorem enewConstructsAnIdleEngine : Obligations.EnewConstructsAnIdleEngine := by
  refine fun e bus gain s => ⟨fun hfree => ?_, fun htaken => ?_⟩
  · simp only [exec, execEnew, gainOfInt_gainNat, hfree, Option.isSome_none, Bool.false_eq_true, if_false]
    rfl
  · simp only [exec, execEnew, gainOfInt_gainNat, htaken, if_true]

theorem windowOf_of_legal {t lo hi : F64} {n rcc : Int} (ht : t.isPosFinite = true) (hn : 1 ≤ n) (hrcc : 0 ≤ rcc)
    (hlo : lo.isNaN = false) (hhi : hi.isNaN = false) :
    windowOf t n lo hi rcc = some
      { sampleTime := t, sampleCount := n.toNat, minValue := lo, maxValue := hi, rangeCheckCount := rcc.toNat } :=
  if_pos ⟨ht, hn, hrcc, hlo, hhi⟩

theorem windowOf_of_illegal {t lo hi : F64} {n rcc : Int}
    (h : t.isPosFinite = false ∨ n < 1 ∨ rcc < 0 ∨ lo.isNaN = true ∨ hi.isNaN = true) :
    windowOf t n lo hi rcc = none := by
  refine if_neg ?_
  rintro ⟨ht, hn, hrcc, hlo, hhi⟩
  rcases h with h | h | h | h | h
  · cases ht.symm.trans h
  · omega
  · omega
  · cases hlo.symm.trans h
  · cases hhi.symm.trans h

section Phases

variable {e : Nat} {s : State} {g : Engine} (hg : mget e s.engines = some g)

include hg

theorem execEwin_of_window {t lo hi : F64} {n rcc : Int} {w : Window} (hst : g.st = .idle)
    (hw : windowOf t n lo hi rcc = some w) :
    exec (.ewin e t n lo hi rcc) s = .next ((s.putEngine e { g with win := some w }).give .none) := by
  simp only [exec, execEwin, hg, hst, if_true, hw]

theorem execEwin_of_no_window {t lo hi : F64} {n rcc : Int} (hst : g.st = .idle)
    (hw : windowOf t n lo hi rcc = none) : exec (.ewin e t n lo hi rcc) s = .refused .badOperand := by
  simp only [exec, execEwin, hg, hst, if_true, hw]

/-- The window is written in `Idle` only (R171). -/
theorem execEwin_of_not_idle {t lo hi : F64} {n rcc : Int} (hst : g.st ≠ .idle) :
    exec (.ewin e t n lo hi rcc) s = .refused .wrongEngineState := by
  simp only [exec, execEwin, hg, hst, if_false]

/-- Only the first build-time callback acts (R173). -/
theorem execEcfg_of_not_idle (hst : g.st ≠ .idle) : exec (.ecfg e) s = .refused .wrongEngineState := by
  simp only [exec, execEcfg, hg, hst, if_false]

/-- The runtime-ready event arms an engine in `Configuring` only (R175). -/
theorem execEarm_of_not_configuring (hst : g.st ≠ .configuring) : exec (.earm e) s = .refused .wrongEngineState := by
  simp only [exec, execEarm, hg, hst, if_false]

/-- A timer tick acts in `Armed` and `Sampling` only (R178). -/
theorem execEtick_of_not_armed (harmed : g.st ≠ .armed) (hsampling : g.st ≠ .sampling) (now : F64) :
    exec (.etick e now) s = .refused .wrongEngineState := by
  simp only [exec, execEtick, hg, harmed, hsampling, or_self, if_false]

/-- Arming writes the configuration byte to the slave, then the engine's registers (R175). -/
theorem execEarm_of_written {r : RateRegs} {u : State} (hst : g.st = .configuring) (hr : g.rate = some r)
    (hw : memWrite g.bus [cfgByte s.params.rateCode r.rate g.gain] (Config.engineHint s.env.draws) s.nextDraw = .ok u) :
    exec (.earm e) s = .next ((u.putEngine e (armed s.params (cfgByte s.params.rateCode r.rate g.gain)
      (Config.timerHandle s.env.draws) g)).give .none) := by
  simp only [exec, execEarm, hg, hst, if_true, hr, hw]

end Phases

/-- Settles O39: in `Idle` EWIN answers as its operands are legal or not (`windowOf`), elsewhere it is refused. -/
theorem ewinSetsTheWindow : Obligations.EwinSetsTheWindow := by
  intro e t n lo hi rcc s g hg
  exact ⟨fun hst ht hn hrcc hlo hhi => execEwin_of_window hg hst (windowOf_of_legal ht hn hrcc hlo hhi),
    fun hst hbad => execEwin_of_no_window hg hst (windowOf_of_illegal hbad), execEwin_of_not_idle hg⟩

/-- Settles O40: ECB asks nothing of the engine's state, and refuses a report time that is not-a-number. -/
theorem ecbRegistersTheCallback : Obligations.EcbRegistersTheCallback := by
  refine fun e t cb s g hg => ⟨fun ht => ?_, fun ht => ?_⟩
  · simp only [exec, execEcb, hg, ht, Bool.false_eq_true, if_false]
    rfl
  · simp only [exec, execEcb, hg, ht, if_true]

/-- Settles O41: in `Idle` with a window ECFG writes `configured`; the period is exact by `units_periodOf`, the tables
are the definitions of `rateNat`, `normOf` and `rateCodeOf`. -/
theorem ecfgFixesRateAndPeriod : Obligations.EcfgFixesRateAndPeriod := by
  refine ⟨fun e s g w hg hst hw => ?_, fun r => ⟨units_periodOf r, ?_⟩, by decide, fun rc => ⟨rfl, rfl, rfl, rfl⟩,
    fun e s g hg => ⟨fun hst hw => ?_, execEcfg_of_not_idle hg⟩⟩
  · simp only [exec, execEcfg, hg, hst, if_true, hw]
    rfl
  · cases r <;> rfl
  · simp only [exec, execEcfg, hg, hst, if_true, hw]

/-! ### Arming -/

/-- MemWrite on a ready software bus emits one write frame to the bus's slave (R64). -/
theorem memWrite_software {i : Nat} {s : State} {b : Bus} {l : ClockLine} (hb : mget i s.buses = some b)
    (hl : mget b.scl s.lines = some l) (hready : busReady b l = true) (xs : List Byte) (h : Hint) :
    memWrite (.software i) xs h s = .ok (afterEmit i b l
      (writeEntries s.params.stopPrelow i h (addrByte b.addr7 false) xs) true true s.result s) := by
  simp only [memWrite, hb, busWrite_ok hb hl hready]

/-- MemWrite on an external bus is one record of HW_LOG (R66). -/
theorem memWrite_hardware (k : Nat) (xs : List Byte) (h : Hint) (s : State) :
    memWrite (.hardware k) xs h s =
      .ok { s with hwLog := s.hwLog ++ [{ bus := k, addr7 := Config.hwAddr7 k, bytes := xs }] } :=
  rfl

/-- Settles O42: the write emits one frame (`memWrite_software`), then the engine is armed (`execEarm_of_written`). -/
theorem earmOnASoftwareBus : Obligations.EarmOnASoftwareBus := by
  intro e i s g r b l hg hst hr hbus hb hl hcfg hclk
  have hw := memWrite_software (s := s.nextDraw) hb hl (busReady_iff.mpr ⟨hcfg, hclk⟩)
    [cfgByte s.params.rateCode r.rate g.gain] (Config.engineHint s.env.draws)
  rw [← hbus] at hw
  exact ⟨_, _, execEarm_of_written hg hst hr hw⟩

/-- Settles O43: the write is one record (`memWrite_hardware`), then the engine is armed (`execEarm_of_written`). -/
theorem earmOnAHardwareBus : Obligations.EarmOnAHardwareBus := by
  intro e k s g r hg hst hr hbus
  have hw := memWrite_hardware k [cfgByte s.params.rateCode r.rate g.gain] (Config.engineHint s.env.draws) s.nextDraw
  rw [← hbus] at hw
  exact ⟨_, execEarm_of_written hg hst hr hw⟩

/-! ### Queries -/

/-- Settles O44: a query asks nothing of the engine's state; it reads the last result, or draws one. -/
theorem queriesReturnTheLastResult : Obligations.QueriesReturnTheLastResult := by
  refine fun e s g hg => ⟨fun v ts hlast => ?_, fun hnone => ?_⟩
  · simp only [exec, execEget, execEstat, hg, hlast, State.give, and_self]
  · simp only [exec, execEget, execEstat, hg, hnone]
    exact ⟨⟨_, _, rfl⟩, ⟨_, rfl⟩⟩

/-! ### The phases of an engine -/

/-- Settles O45: an operation that answers is a run, which changes an engine's state along the table where it names the
engine and not at all elsewhere (`Run.engineStep`); outside its phase each operation has its refusal. -/
theorem engineStateMovesAlongTheTable : Obligations.EngineStateMovesAlongTheTable := by
  refine ⟨fun i s t e g hg h => ?_, fun e s g hg => ⟨fun hst => ⟨execEcfg_of_not_idle hg hst, fun _ _ _ _ _ =>
    execEwin_of_not_idle hg hst⟩, execEarm_of_not_configuring hg, execEtick_of_not_armed hg⟩⟩
  obtain ⟨g', hg', named, other⟩ := (exec_run h).engineStep e g hg
  refine ⟨g', hg', ?_⟩
  by_cases he : engineOf i = some e
  · obtain ⟨hst, -⟩ := named he
    rcases hst with same | ⟨hidle, hconf, e', rfl⟩ | ⟨hconf, harmed, e', rfl⟩ | ⟨harmed, hsamp, e', now, rfl⟩
    · exact .inl same
    · cases he
      exact .inr (.inl ⟨hidle, hconf, rfl⟩)
    · cases he
      exact .inr (.inr (.inl ⟨hconf, harmed, rfl⟩))
    · cases he
      exact .inr (.inr (.inr ⟨harmed, hsamp, now, rfl⟩))
  · exact .inl (congrArg Engine.st (other he))

end Sys2Proof.Machine
end

section
/-! Proofs of the statements about the tick: correct rounding and exactness of its arithmetic, what a tick does with each
answer of its bus, and how often it calls the shutdown hook and the callback. -/

namespace Sys2Proof.Machine

/-! ### Rounding -/

/-- A datum with the sign of `z` is as far from `z` as its magnitude is from that of `z`. -/
theorem natAbs_sub_units_sameSign (z : Int) (e : Fin 2047) (f : BitVec 52) :
    (z - units (.fin (decide (z < 0)) e f)).natAbs = gap z.natAbs 1 (magUnits e f) := by
  rw [units_fin, gap]
  generalize magUnits e f = M
  split
  · next h => have := of_decide_eq_true h; omega
  · next h => have := of_decide_eq_false (Bool.eq_false_of_not_eq_true h); omega

/-- No datum is nearer to `z` than its magnitude is to that of `z`, and one that is as near has the sign of `z`, or is a
zero. -/
theorem gap_le_natAbs_sub_units (z : Int) (n : Bool) (e : Fin 2047) (f : BitVec 52) :
    gap z.natAbs 1 (magUnits e f) ≤ (z - units (.fin n e f)).natAbs ∧
    (z ≠ 0 → gap z.natAbs 1 (magUnits e f) = (z - units (.fin n e f)).natAbs →
      units (.fin n e f) = units (.fin (decide (z < 0)) e f)) := by
  rw [units_fin, units_fin, gap]
  generalize magUnits e f = M
  by_cases hz : z < 0 <;> cases n <;> simp only [hz, decide_true, decide_false, if_true, Bool.false_eq_true, if_false]
  · exact ⟨by omega, fun _ _ => by omega⟩
  · exact ⟨by omega, fun _ _ => trivial⟩
  · exact ⟨by omega, fun _ _ => trivial⟩
  · exact ⟨by omega, fun _ _ => by omega⟩

/-- The nearest magnitude, with the sign of `z`, is the nearest datum. -/
theorem nearest_datum {z : Int} (hz : z ≠ 0) {e : Fin 2047} {f : BitVec 52}
    (hnear : ∀ e' f', gap z.natAbs 1 (magUnits e f) ≤ gap z.natAbs 1 (magUnits e' f') ∧
      (gap z.natAbs 1 (magUnits e f) = gap z.natAbs 1 (magUnits e' f') → magUnits e f ≠ magUnits e' f' →
        f.getLsbD 0 = false)) (n' : Bool) (e' : Fin 2047) (f' : BitVec 52) :
    (z - units (.fin (decide (z < 0)) e f)).natAbs ≤ (z - units (.fin n' e' f')).natAbs ∧
    ((z - units (.fin (decide (z < 0)) e f)).natAbs = (z - units (.fin n' e' f')).natAbs →
      units (.fin (decide (z < 0)) e f) ≠ units (.fin n' e' f') → f.getLsbD 0 = false) := by
  obtain ⟨hle, htie⟩ := hnear e' f'
  obtain ⟨hfar, hsign⟩ := gap_le_natAbs_sub_units z n' e' f'
  rw [natAbs_sub_units_sameSign]
  refine ⟨hle.trans hfar, fun heq hne => ?_⟩
  have hsame := hsign hz (Nat.le_antisymm hfar (heq ▸ hle))
  refine htie (Nat.le_antisymm hle (heq ▸ hfar)) fun hmag => hne ?_
  rw [hsame, units_fin, units_fin, hmag]

theorem fadd_fin_zero {a b : Bool} {ea eb : Fin 2047} {fa fb : BitVec 52}
    (h : units (.fin a ea fa) + units (.fin b eb fb) = 0) : fadd (.fin a ea fa) (.fin b eb fb) = .fin (a && b) 0 0 :=
  if_pos h

theorem fadd_fin_nonzero {a b : Bool} {ea eb : Fin 2047} {fa fb : BitVec 52} {z : Int}
    (h : z = units (.fin a ea fa) + units (.fin b eb fb)) (hz : z ≠ 0) :
    fadd (.fin a ea fa) (.fin b eb fb) = roundMag (decide (z < 0)) z.natAbs 1 := by
  subst h
  exact if_neg hz

theorem units_zero (neg : Bool) : units (.fin neg 0 0) = 0 := by cases neg <;> rfl

/-- Settles O13: an exact zero is `fadd_fin_zero`; any other sum is rounded in magnitude (`roundMag_correct`), which gives
the nearest datum (`nearest_datum`). -/
theorem additionIsCorrectlyRounded : Obligations.AdditionIsCorrectlyRounded := by
  intro a b ea eb fa fb z hsum
  by_cases hz : z = 0
  · subst hz
    refine ⟨fun _ => ⟨_, _, _, fadd_fin_zero hsum.symm, fun n' e' f' => ⟨?_, fun _ _ => rfl⟩, fun _ => rfl, absurd rfl⟩,
      fun hbig => ?_⟩
    · rw [units_zero]
      exact Nat.zero_le _
    · rw [Int.natAbs_zero] at hbig
      exact absurd hbig (Nat.not_le.mpr (by positivity))
  · obtain ⟨hfinite, hoverflow⟩ := roundMag_correct (decide (z < 0)) z.natAbs 1 Nat.one_pos
    rw [Nat.one_mul] at hfinite hoverflow
    rw [fadd_fin_nonzero hsum hz]
    refine ⟨fun hsmall => ?_, hoverflow⟩
    obtain ⟨e, f, hround, hnear⟩ := hfinite hsmall
    exact ⟨_, e, f, hround, nearest_datum hz hnear, fun h => absurd h hz, fun _ => rfl⟩

/-- Settles O14: the quotient of two finite data is the rounded quotient of their magnitudes (`roundMag_correct`). -/
theorem divisionIsCorrectlyRounded : Obligations.DivisionIsCorrectlyRounded := by
  intro a b ea eb fa fb hdiv
  have hround : fdiv (.fin a ea fa) (.fin b eb fb) = roundMag (a != b) (magUnits ea fa * 2 ^ 1074) (magUnits eb fb) :=
    if_neg hdiv
  rw [hround]
  exact roundMag_correct _ _ _ (Nat.pos_of_ne_zero hdiv)

/-! ### Exactness -/

theorem floatOfInt_zero : floatOfInt 0 = F64.zero := by decide +kernel

/-- Settles O15: 2^38 samples of 16 bits sum to at most 2^53, up to where integers and their sums are exact. -/
theorem sampleSumsAreExact : Obligations.SampleSumsAreExact := by
  intro rs hrange hlen
  have hsum : rs.sum.natAbs ≤ 2 ^ 53 := by
    have := sum_natAbs_le rs hrange
    omega
  refine ⟨?_, floatOfInt_finite hsum, units_floatOfInt hsum⟩
  rw [← floatOfInt_zero, foldl_fadd_exact rs 0 hrange (by rw [Int.natAbs_zero]; omega), Int.zero_add]

/-- Every NORM is a power of two, at most 2^15 (R44). -/
theorem normOf_eq_two_pow (r : Rate) : ∃ k, k ≤ 15 ∧ normOf r = 2 ^ k := by
  cases r with
  | r8 => exact ⟨15, by decide, rfl⟩
  | r16 => exact ⟨14, by decide, rfl⟩
  | r32 => exact ⟨13, by decide, rfl⟩
  | r128 => exact ⟨11, by decide, rfl⟩

/-- Settles O16: the average has at least 15 binary places to spare (`average_form`), and NORM takes no more. -/
theorem normalizationIsExact : Obligations.NormalizationIsExact := by
  intro sum count r hcount hcount38 hsum
  obtain ⟨e, f, m, j, havg, hmag, hm, hj, hj15⟩ := average_form hcount hcount38 hsum
  obtain ⟨k, hk, hnorm⟩ := normOf_eq_two_pow r
  obtain ⟨e', f', hcal, hexact⟩ := fdiv_pow_exact (decide (sum < 0)) e f hnorm (by omega) hm hj hmag (by omega)
  rw [calibrated, havg, hcal, units_fin, units_fin, ← hexact, Nat.cast_mul]
  refine ⟨rfl, ?_⟩
  split
  · exact neg_mul _ _
  · rfl

/-! ### One attempt of a tick -/

section Attempt

variable {e : Nat} {now : F64} {g : Engine} {s t : State} {rt : Timestamp}

/-- An attempt whose read gives fewer than two bytes leaves the tick retrying (R201). -/
theorem attempt_of_short_read {bs : List Byte}
    (hread : memRead g.bus 2 (Config.engineHint s.env.draws) s.nextDraw = .ok (bs, rt, t)) (hshort : bs.length < 2) :
    tickAttempt e now g s = .next { t with
      diag := t.diag ++ [.retryOccurred e bs.length]
      busy := some { engine := e, now := now } } := by
  simp only [tickAttempt, hread]
  match bs, hshort with
  | [], _ => rfl
  | [_], _ => rfl

/-- An attempt whose read gives two bytes finishes the tick with that sample (R202 to R208). -/
theorem attempt_of_full_read {b0 b1 : Byte} {w : Window} {r : RateRegs}
    (hread : memRead g.bus 2 (Config.engineHint s.env.draws) s.nextDraw = .ok ([b0, b1], rt, t))
    (hw : g.win = some w) (hr : g.rate = some r) (hst : g.st = .sampling) :
    tickAttempt e now g s = .next (tickDone e now (rawSample b0 b1) rt w r.norm g t) := by
  simp only [tickAttempt, hread]
  exact finishTick_eq hw hr hst

/-- A tick writes its engine last, over the move to `Sampling` it began with. -/
theorem tickDone_started {raw : Int} {w : Window} {norm : Nat} (ht : t.engines = mset natLt e (sampling g) s.engines) :
    tickDone e now raw rt w norm (sampling g) t = tickDone e now raw rt w norm g { t with engines := s.engines } := by
  simp only [tickDone, ht, mset_mset]
  rfl

end Attempt

/-! ### Scripted answers of an external bus -/

section Script

variable {e h : Nat} {now : F64} {g : Engine} {s : State} {r : HwResponse} {rs : List HwResponse}

/-- The state of retrying tick `k` after external bus `h` has answered short with the response `r`. -/
def retrying (k : Tick) (h : Nat) (r : HwResponse) (rs : List HwResponse) (s : State) : State :=
  { afterResponse h r rs s with diag := s.diag ++ [.retryOccurred k.engine r.bytes.length], busy := some k }

@[simp] theorem responsesOf_retrying (k : Tick) : responsesOf h (retrying k h r rs s) = rs := by
  rw [responsesOf, retrying, afterResponse, mget_mset_same, Option.getD_some]

@[simp] theorem hwStamp_retrying (k : Tick) : hwStamp h (retrying k h r rs s) = hwStamp h s + r.gap := by
  rw [hwStamp, retrying, afterResponse, mget_mset_same, Option.getD_some]

/-- `attempt_short`, with the state it leaves by name. -/
theorem attempt_retries (hg : g.bus = .hardware h) (hr : responsesOf h s = r :: rs) (hshort : r.bytes.length < 2) :
    tickAttempt e now g s = .next (retrying { engine := e, now := now } h r rs s) :=
  attempt_short hg hr hshort

/-- The step after a short answer is the next attempt. -/
theorem step_of_retrying {k : Tick} (habort : s.aborted = none) (hport : s.env.port = [])
    (hg : mget k.engine s.engines = some g) :
    step (retrying k h r rs s) = tickAttempt k.engine k.now g (retrying k h r rs s) :=
  step_retry habort hport rfl hg

/-- A response longer than the two bytes requested is refused (R66). -/
theorem attempt_overlong (hg : g.bus = .hardware h) (hr : responsesOf h s = r :: rs) (hlong : 2 < r.bytes.length) :
    tickAttempt e now g s = .refused .overlongResponse := by
  simp only [tickAttempt, memRead, hg, drawResponse_eq hr, Nat.not_le.mpr hlong, if_false]

end Script

/-! ### A tick on an external bus -/

/-- A record made in a tick follows that of its start. -/
theorem tickStart_diag_append (e : Nat) (g : Engine) (s : State) (d : DiagEvent) :
    (tickStart e g s).diag ++ [d] = s.diag ++ [.tickStarted e, d] :=
  List.append_assoc _ _ _

/-- Settles O46: the tick is its first attempt (`exec_etick`), which the two bytes finish (`attempt_hardware`). -/
theorem etickOnAHardwareBus : Obligations.EtickOnAHardwareBus := by
  intro e k now s g w r b0 b1 gp more hg hst hbus hw hr hresp
  rw [exec_etick hg hst, attempt_hardware (g := sampling g) (s := tickStart e g s) hbus hresp hw hr rfl,
    tickDone_started (s := s) rfl]
  rfl

/-- Settles O49: the tick is its first attempt, short (`attempt_retries`) or overlong (`attempt_overlong`). -/
theorem shortResponseIsDiscarded : Obligations.ShortResponseIsDiscarded := by
  intro e k now s g r more hg hst hbus hresp
  have hresp' : responsesOf k (tickStart e g s) = r :: more := hresp
  rw [exec_etick hg hst]
  refine ⟨fun hshort => ?_, attempt_overlong hbus hresp'⟩
  rw [attempt_retries (g := sampling g) hbus hresp' hshort, retrying, tickStart_diag_append]
  rfl

/-- What an external bus answers where nothing fixes it: at most two bytes, at a receive time not before the last one. -/
theorem memRead_unscripted {k : Nat} {h : Hint} {s : State} (hresp : responsesOf k s = []) :
    ∃ bs rt, hwStamp k s ≤ rt ∧ bs.length ≤ 2 ∧ memRead (.hardware k) 2 h s.nextDraw = .ok (bs, rt,
      { s with env := { s.env with hwLast := mset natLt k rt s.env.hwLast, draws := s.env.draws + 2 } }) := by
  have hlen := List.length_take_le 2 (Config.hwResponse (s.env.draws + 1))
  refine ⟨_, hwStamp k s + Config.rxGap (s.env.draws + 1), Nat.le_add_right _ _, hlen, ?_⟩
  have hdraw : drawResponse k 2 s.nextDraw = ((Config.hwResponse (s.env.draws + 1)).take 2,
      hwStamp k s + Config.rxGap (s.env.draws + 1), { s with env := { s.env with
        hwLast := mset natLt k (hwStamp k s + Config.rxGap (s.env.draws + 1)) s.env.hwLast
        draws := s.env.draws + 2 } }) := by
    unfold responsesOf at hresp
    simp [drawResponse, State.nextDraw, hresp, hwStamp]
  simp only [memRead, hdraw, hlen, if_true]

/-- Settles O47: two bytes finish the first attempt (`attempt_of_full_read`), fewer leave it retrying
(`attempt_of_short_read`). -/
theorem etickOnAnUnscriptedExternalBus : Obligations.EtickOnAnUnscriptedExternalBus := by
  intro e k now s g w r hg hst hbus hw hr hresp
  obtain ⟨bs, rt, hrt, hlen, hread⟩ := memRead_unscripted (k := k) (h := Config.engineHint (tickStart e g s).env.draws)
    (s := tickStart e g s) hresp
  rw [← hbus] at hread
  refine ⟨bs, rt, hrt, hlen, ?_⟩
  rw [exec_etick hg hst]
  rcases Nat.lt_or_eq_of_le hlen with hshort | hfull
  · refine .inr ⟨hshort, ?_⟩
    rw [attempt_of_short_read (g := sampling g) hread hshort]
    simp only [tickStart_diag_append]
    rfl
  · obtain ⟨b0, b1, rfl⟩ := List.length_eq_two.mp hfull
    rw [attempt_of_full_read (g := sampling g) hread hw hr rfl, tickDone_started (s := s) rfl]
    exact .inl ⟨b0, b1, _, rfl, rfl, rfl, rfl, rfl⟩

/-! ### The retry loop -/

/-- Settles O50: the one byte leaves the tick retrying (`attempt_retries`), and the next step is an attempt
(`step_of_retrying`), which the two bytes finish (`attempt_hardware`). -/
theorem retriedTickUsesTheSecondResponse : Obligations.RetriedTickUsesTheSecondResponse := by
  intro e k now s g w r x b0 b1 g1 g2 more habort hport hg hst hbus hw hr hresp
  have hfirst := attempt_retries (e := e) (now := now) (g := sampling g) (s := tickStart e g s) hbus hresp Nat.one_lt_two
  have hsecond := attempt_hardware (e := e) (now := now) (g := sampling g) hbus
    (responsesOf_retrying (s := tickStart e g s) (r := { bytes := [x], gap := g1 })
      (rs := { bytes := [b0, b1], gap := g2 } :: more) { engine := e, now := now }) hw hr rfl
  rw [hwStamp_retrying, tickDone_started (s := s) rfl] at hsecond
  have hstep := (step_of_retrying (s := tickStart e g s) (k := { engine := e, now := now }) habort hport
    (mget_mset_same _ _ _ _)).trans hsecond
  exact ⟨_, _, (exec_etick hg hst).trans hfirst, hstep, rfl, rfl, rfl, rfl, rfl, rfl⟩

theorem steps_succ_of_step {s u : State} (h : step s = .next u) (n : Nat) : steps (n + 1) s = steps n u := by
  rw [steps, h]

/-- A retrying tick that is answered short `n` times is still retrying `n` steps later, and only DIAG has grown. -/
theorem steps_retrying {k : Tick} {g : Engine} {h : Nat} (hbus : g.bus = .hardware h) (n : Nat) (s : State)
    (habort : s.aborted = none) (hbusy : s.busy = some k) (hport : s.env.port = [])
    (hg : mget k.engine s.engines = some g) (hlen : n ≤ (responsesOf h s).length)
    (hshort : ∀ r, r ∈ (responsesOf h s).take n → r.bytes.length < 2) :
    ∃ t, steps n s = .next t ∧ t.busy = some k ∧ t.engines = s.engines ∧ t.lines = s.lines ∧ t.buses = s.buses ∧
      t.shutLog = s.shutLog ∧ t.cbLog = s.cbLog ∧ t.hwLog = s.hwLog ∧ t.diag.length = s.diag.length + n := by
  induction n generalizing s with
  | zero => exact ⟨s, rfl, hbusy, rfl, rfl, rfl, rfl, rfl, rfl, rfl⟩
  | succ n ih =>
    obtain ⟨r, rs, hresp⟩ := List.exists_cons_of_length_pos (Nat.zero_lt_of_lt hlen)
    rw [hresp] at hlen hshort
    have hstep := (step_retry habort hport hbusy hg).trans (attempt_retries hbus hresp (hshort r List.mem_cons_self))
    obtain ⟨t, hsteps, hbusy', hengines, hlines, hbuses, hshut, hcb, hhw, hdiag⟩ := ih (retrying k h r rs s)
      habort rfl hport hg
      (by rw [responsesOf_retrying]; exact Nat.le_of_succ_le_succ hlen)
      (by rw [responsesOf_retrying]; exact fun r' hr' => hshort r' (List.mem_cons_of_mem _ hr'))
    refine ⟨t, (steps_succ_of_step hstep n).trans hsteps, hbusy', hengines, hlines, hbuses, hshut, hcb, hhw,
      hdiag.trans ?_⟩
    rw [retrying, List.length_append, List.length_singleton, Nat.add_assoc, Nat.add_comm 1]

/-- Settles O4: beside an open tick the fetch takes an executor's command only, and an attempt answered short leaves
the tick open (`steps_retrying`). -/
theorem shortResponsesKeepTheTickRetrying : Obligations.ShortResponsesKeepTheTickRetrying := by
  refine ⟨fun s k m ms habort hbusy hport hagent => ?_, fun n s k g h habort hbusy hport hg hbus hlen hshort =>
    steps_retrying hbus n s habort hbusy hport hg hlen hshort⟩
  have hfetch : fetch s = .ok none := by simp [fetch, hport, hbusy, hagent]
  simp only [step, habort, hfetch, hbusy]

/-! ### A tick on a software bus -/

/-- A read that a tick waits for is a complete read from the state before the tick too, but for the engine and the DIAG
record with which the tick began. -/
theorem ReadDone.of_tickStart {e i n : Nat} {h : Hint} {b : Bus} {l : ClockLine} {rt : Timestamp} {g : Engine}
    {s u : State} (hread : ReadDone i n h b l rt (tickStart e g s).nextDraw u) :
    ReadDone i n h b l rt s { u with engines := s.engines, diag := s.diag } := by
  obtain ⟨⟨hparams, -, hshut, hcb, hhw, -, haborted, hbusy, hport, hscript, hlast⟩, hrest⟩ := hread
  exact ⟨⟨hparams, rfl, hshut, hcb, hhw, rfl, haborted, hbusy, hport, hscript, hlast⟩, hrest⟩

/-- Settles O48: the tick is its first attempt (`exec_etick`), which reads one frame and finishes (`attempt_software`). -/
theorem etickOnASoftwareBus : Obligations.EtickOnASoftwareBus := by
  intro e i now s g w r b l hg hst hbus hw hr hb hl hcfg hclk hq
  obtain ⟨b0, b1, rt, u, hread, htick, hbytes⟩ := attempt_software (e := e) (now := now) (g := sampling g)
    (s := tickStart e g s) hbus hw hr rfl hb hl (busReady_iff.mpr ⟨hcfg, hclk⟩) hq
  have hdone := hread.of_tickStart
  obtain ⟨⟨-, hengines, hshut, hcb, -, hdiag, -⟩, -⟩ := hread
  refine ⟨_, b0, b1, rt, _, _, (exec_etick hg hst).trans htick, hdone, ?_, fun before x0 x1 after hlen hscript => ?_⟩
  · rw [tickDone_started (s := s) hengines, tickDone, hshut, hcb, hdiag]
    rfl
  · have hsame := hbytes before [x0, x1] after hlen rfl (hscript.trans (by simp))
    exact ⟨(List.cons.inj hsame).1, (List.cons.inj (List.cons.inj hsame).2).1⟩

/-! ### The shutdown hook and the callback -/

/-- Out of range, the cycles call the hook from the one on that brings the error count to the threshold. -/
theorem tripCount_outOfRange {w : Window} (hpos : 0 < w.rangeCheckCount) (xs : List F64) (n : Nat)
    (hout : ∀ x, x ∈ xs → outOfRange w x = true) :
    tripCount w n xs = xs.length - (w.rangeCheckCount - 1 - n) := by
  induction xs generalizing n with
  | nil => exact (Nat.zero_sub _).symm
  | cons x xs ih =>
    have hx := hout x List.mem_cons_self
    rw [tripCount, ih _ fun y hy => hout y (List.mem_cons_of_mem _ hy), errCountAfter, if_pos hx, trips, hx,
      List.length_cons]
    by_cases hreach : w.rangeCheckCount ≤ n + 1
    · simp only [hpos, hreach, decide_true, Bool.and_self, if_true]
      omega
    · simp only [hpos, hreach, decide_true, decide_false, Bool.and_false, Bool.false_eq_true, if_false]
      omega

theorem tripCount_threshold_zero {w : Window} (hzero : w.rangeCheckCount = 0) (xs : List F64) (n : Nat) :
    tripCount w n xs = 0 := by
  induction xs generalizing n with
  | nil => rfl
  | cons x xs ih => simp [tripCount, ih, trips, hzero]

/-- Settles O51: the number of calls is `tripCount_outOfRange`; in range the count starts again at 0. -/
theorem repeatedTripsCallTheHookAgain : Obligations.RepeatedTripsCallTheHookAgain := by
  refine fun w xs m => ⟨fun hpos hout => ?_, fun hzero n => tripCount_threshold_zero hzero xs n, fun x n hin => ?_⟩
  · rw [tripCount_outOfRange hpos xs 0 hout]
    omega
  · simp [tripCount, trips, errCountAfter, hin]

theorem callbackDue_of_cb {g : Engine} {k : Callback} (hk : g.cb = some k) (now : F64) :
    callbackDue g now = fge now (fadd g.lastCb k.reportTime) := by
  rw [callbackDue, hk]

/-- Settles O52: by induction on the cycles; a firing is due after the last one (`callbackDue_of_cb`), and becomes it. -/
theorem callbackKeepsItsInterval : Obligations.CallbackKeepsItsInterval := by
  intro g k ts hk
  induction ts generalizing g with
  | nil => exact List.isChain_singleton _
  | cons t ts ih =>
    rw [firings, gateCallback]
    split
    · next hdue =>
      rw [List.singleton_append]
      exact List.isChain_cons_cons.mpr ⟨callbackDue_of_cb hk t ▸ hdue, ih { g with lastCb := t } hk⟩
    · exact ih g hk

end Sys2Proof.Machine
end

section
/-! Proofs of the statements about exceptions and sharing: the two errors that end process initialization, and the private
state of engines and buses. -/

namespace Sys2Proof.Machine

variable {i : Instr} {s t : State}

/-! ### The end of process initialization -/

/-- After a ConfigurationError nothing runs (R239). -/
theorem step_of_aborted {err : ConfigError} (h : s.aborted = some err) : step s = .fault .processAborted := by
  simp only [step, h]

theorem gainOfInt_of_unsupported {gain : Int} (h1 : gain ≠ 1) (h2 : gain ≠ 2) (h4 : gain ≠ 4) (h8 : gain ≠ 8) :
    gainOfInt gain = none := by
  rw [gainOfInt, if_neg h1, if_neg h2, if_neg h4, if_neg h8]

/-- Settles O19: the lines' controllers are compared before anything is created, and the record of the error stops the
machine (`step_of_aborted`). -/
theorem controllerMismatchAbortsInitialization : Obligations.ControllerMismatchAbortsInitialization := by
  refine fun i a scl sda s ha hctrl => ⟨?_, step_of_aborted rfl⟩
  simp only [exec, execBnew, addr7Of_of_le ha, if_pos hctrl, raiseConfig]

/-- Settles O38: the gain is looked up before anything is created (`gainOfInt_of_unsupported`), and the record of the error
stops the machine (`step_of_aborted`). -/
theorem unsupportedGainAbortsInitialization : Obligations.UnsupportedGainAbortsInitialization := by
  refine fun e bus gain s h1 h2 h4 h8 => ⟨?_, step_of_aborted rfl⟩
  simp only [exec, execEnew, gainOfInt_of_unsupported h1 h2 h4 h8, raiseConfig]

/-! ### Private state -/

/-- Every run of an operation leaves the engines it does not name and the buses it does not use as they were, their data
wires moved by their own entries alone; the clock line of a bus, whose entries those are, is there by `BusesOk`. -/
theorem Run.privateKept (h : Run i (busOf s i) s t) (hqueues : QueuesOk s) (hbuses : BusesOk s) :
    PrivateKept (some i) s t := by
  refine ⟨fun e g he hg => ?_, fun j b hj hb => ?_, fun hruns c => h.heads (hruns i rfl) c⟩
  · obtain ⟨g', hg', -, other⟩ := h.engineStep e g hg
    exact other he ▸ hg'
  · obtain ⟨-, -, l, hl, -⟩ := hbuses.1 j b hb
    exact h.wires hqueues j b l hj hb hl

/-- Where nothing happens no entry runs. -/
theorem executed_refl (c : LineId) (s : State) : executed c s s = [] := executed_still fun l hl => ⟨l, hl, rfl⟩

theorem PrivateKept.refl (i : Option Instr) (s : State) : PrivateKept i s s :=
  ⟨fun _ _ _ hg => hg, fun _ b _ hb => by rw [executed_refl]; exact hb, fun _ c => executed_refl c s⟩

/-- Settles O54: an operation and a step that runs one are runs of moves (`Run.privateKept`), and an advance of the port
touches no engine, bus or clock line. -/
theorem instancesKeepTheirPrivateState : Obligations.InstancesKeepTheirPrivateState := by
  refine ⟨fun i s t hq hb h => (exec_run h).privateKept hq hb, fun s t hq hb h => ?_⟩
  rcases step_run h with ⟨-, rfl⟩ | ⟨i, port, hi, hrun⟩
  · exact PrivateKept.refl _ _
  · rw [hi]
    exact Run.privateKept (s := s.withPort port) hrun hq hb

end Sys2Proof.Machine
end
